-- ==== Sys2Proof/Word.lean ====
section
/-! DEFINITION. The words of the machine: 32-bit addresses and registers (R11) and 8-bit bytes (R60). -/

namespace Sys2Proof

/-- A 32-bit word: an address or the value of an MPU register (R11). -/
abbrev Word := BitVec 32

/-- A byte of memory (R60). -/
abbrev Byte := BitVec 8

end Sys2Proof
end

