-- ==== Sys2Proof/Syntax.lean ====
section
/-! DEFINITION. The transactions of the MPU, one constructor of `Instr` for every row of `spec/opcode_table.json`, and
the words a transaction is presented in. The hardware has no instruction words of its own (R90, D1): an operation is
selected by an address and a direction, and the processor's inputs come with every transaction (R12). -/

namespace Sys2Proof

/-- The size of an access to the register block or of an unprivileged load or store instruction. Only `word` is defined
for the registers (R70, R191). Every other access has its bytes as an operand of `validateAddress`. -/
inductive AccSize where
  | word
  | byte
  | half
  | double
  deriving DecidableEq, Repr

/-- The kind of an access (R12, R19). `normal` is the spec's name for every value the sources do not name (N14). -/
inductive AccType where
  | normal
  | ifetch
  | vectable
  | unpriv
  deriving DecidableEq, Repr

/-- The two facts about the processor the MPU reads with an access (R12, R47): whether `FindPriv()` holds and whether
`ExecutionPriority() < 0`. They are independent (R269). -/
structure ProcInputs where
  findPriv : Bool
  prioBelowZero : Bool
  deriving DecidableEq, Repr

/-- What comes with an access to the register block beside the register it selects: the processor's inputs, whether
the access is one of an unprivileged load or store instruction (AccType_UNPRIV), its size, and the low two bits of its
address, which are 0 for every defined access (R72, R92). -/
structure RegAccess where
  proc : ProcInputs
  unpriv : Bool
  size : AccSize
  lane : BitVec 2
  deriving DecidableEq, Repr

/-- The bytes of an access that is checked (R74): the lowest address, and how many bytes come after that one. -/
structure ByteRange where
  first : Word
  more : Word
  deriving DecidableEq, Repr

/-- The direction of an access to a reserved address, with the value of a write. -/
inductive RegOp where
  | read
  | write (v : Word)
  deriving DecidableEq, Repr

/-- The operations, one constructor for each row of `spec/opcode_table.json`, in its order. A write of an RBAR window
carries the fields of format RBAR (R96, R102), its VALID bit being the constructor. -/
inductive Instr where
  | readMpuType (r : RegAccess)
  | writeMpuType (r : RegAccess) (v : Word)
  | readMpuCtrl (r : RegAccess)
  | writeMpuCtrl (r : RegAccess) (v : Word)
  | readMpuRnr (r : RegAccess)
  | writeMpuRnr (r : RegAccess) (v : Word)
  | readMpuRbar (r : RegAccess)
  | writeMpuRbarValid0 (r : RegAccess) (addr : BitVec 27) (region : BitVec 4)
  | writeMpuRbarValid1 (r : RegAccess) (addr : BitVec 27) (region : BitVec 4)
  | readMpuRbarA1 (r : RegAccess)
  | writeMpuRbarA1Valid0 (r : RegAccess) (addr : BitVec 27) (region : BitVec 4)
  | writeMpuRbarA1Valid1 (r : RegAccess) (addr : BitVec 27) (region : BitVec 4)
  | readMpuRbarA2 (r : RegAccess)
  | writeMpuRbarA2Valid0 (r : RegAccess) (addr : BitVec 27) (region : BitVec 4)
  | writeMpuRbarA2Valid1 (r : RegAccess) (addr : BitVec 27) (region : BitVec 4)
  | readMpuRbarA3 (r : RegAccess)
  | writeMpuRbarA3Valid0 (r : RegAccess) (addr : BitVec 27) (region : BitVec 4)
  | writeMpuRbarA3Valid1 (r : RegAccess) (addr : BitVec 27) (region : BitVec 4)
  | readMpuRasr (r : RegAccess)
  | writeMpuRasr (r : RegAccess) (v : Word)
  | readMpuRasrA1 (r : RegAccess)
  | writeMpuRasrA1 (r : RegAccess) (v : Word)
  | readMpuRasrA2 (r : RegAccess)
  | writeMpuRasrA2 (r : RegAccess) (v : Word)
  | readMpuRasrA3 (r : RegAccess)
  | writeMpuRasrA3 (r : RegAccess) (v : Word)
  /-- 0xE000EDBC to 0xE000EDBF. -/
  | reservedEDBC (r : RegAccess) (op : RegOp)
  /-- 0xE000EDC0 to 0xE000EDDF, the `index`-th word of the eight. -/
  | reservedEDC0 (r : RegAccess) (index : BitVec 3) (op : RegOp)
  /-- 0xE000EDE0 to 0xE000EDEF, the `index`-th word of the four. -/
  | reservedEDE0 (r : RegAccess) (index : BitVec 2) (op : RegOp)
  /-- The check of one access by `ValidateAddress` (R74, R120): one call of `ValidateAddress(address, acctype, iswrite)`
  when the access is one byte. -/
  | validateAddress (p : ProcInputs) (address : ByteRange) (acctype : AccType) (iswrite : Bool)
  | ldrbt (p : ProcInputs) (address : Word)
  | ldrht (p : ProcInputs) (address : Word)
  | ldrsbt (p : ProcInputs) (address : Word)
  | ldrsht (p : ProcInputs) (address : Word)
  | ldrt (p : ProcInputs) (address : Word)
  | strbt (p : ProcInputs) (address : Word) (value : Word)
  | strht (p : ProcInputs) (address : Word) (value : Word)
  | strt (p : ProcInputs) (address : Word) (value : Word)
  deriving DecidableEq, Repr

/-- One transaction as the processor presents it: the address, a qualifier word that carries the decoder's other
inputs (R90: direction, width; R12: acctype, FindPriv, ExecutionPriority), and the data of a write or, for a check, the
number of bytes after the first. The layout of the qualifier is the model's. DESIGN CHOICE, log 25. -/
structure Packet where
  address : Word
  qualifier : Word
  data : Word
  deriving DecidableEq, Repr

/-- The fields of a qualifier word. `kind` 0 is an access to the register block, 1 the check of an access, 2 to 9
the eight unprivileged load and store instructions in the table's order. -/
structure Qualifier where
  iswrite : Bool
  size : AccSize
  acctype : AccType
  proc : ProcInputs
  kind : BitVec 4
  deriving DecidableEq, Repr

/-- Why a packet stands for no operation. -/
inductive DecodeError where
  /-- A qualifier bit above 10 is set. -/
  | reservedQualifierBits
  /-- `kind` is 10 or more. -/
  | unknownKind
  /-- A register access whose lowest address is outside 0xE000ED90 to 0xE000EDEF (log 44). -/
  | notARegisterAddress
  /-- A register access presented as an instruction fetch or a vector read: those are calls of ValidateAddress. -/
  | registerAccessNotData
  /-- A write presented as an instruction fetch or a vector read, which are reads (R186). -/
  | writeOfAReadOnlyKind
  /-- A field that the operation does not have is not zero. -/
  | unusedFieldNotZero
  deriving DecidableEq, Repr

end Sys2Proof
end

