-- ==== Sys2Proof/WellFormed.lean ====
section
/-! DEFINITION. Which terms of `Instr` stand for an operation. The field widths are in the types; the one relation
between operands is that an instruction fetch and a vector read are reads (R186). -/

namespace Sys2Proof

/-- The kinds of access that can be writes: an instruction fetch and a vector read are reads (R186). -/
def AccType.canWrite : AccType → Bool
  | .normal => true
  | .ifetch => false
  | .vectable => false
  | .unpriv => true

/-- Well-formed operations. -/
def Instr.wf : Instr → Bool
  | .readMpuType _ => true
  | .writeMpuType _ _ => true
  | .readMpuCtrl _ => true
  | .writeMpuCtrl _ _ => true
  | .readMpuRnr _ => true
  | .writeMpuRnr _ _ => true
  | .readMpuRbar _ => true
  | .writeMpuRbarValid0 _ _ _ => true
  | .writeMpuRbarValid1 _ _ _ => true
  | .readMpuRbarA1 _ => true
  | .writeMpuRbarA1Valid0 _ _ _ => true
  | .writeMpuRbarA1Valid1 _ _ _ => true
  | .readMpuRbarA2 _ => true
  | .writeMpuRbarA2Valid0 _ _ _ => true
  | .writeMpuRbarA2Valid1 _ _ _ => true
  | .readMpuRbarA3 _ => true
  | .writeMpuRbarA3Valid0 _ _ _ => true
  | .writeMpuRbarA3Valid1 _ _ _ => true
  | .readMpuRasr _ => true
  | .writeMpuRasr _ _ => true
  | .readMpuRasrA1 _ => true
  | .writeMpuRasrA1 _ _ => true
  | .readMpuRasrA2 _ => true
  | .writeMpuRasrA2 _ _ => true
  | .readMpuRasrA3 _ => true
  | .writeMpuRasrA3 _ _ => true
  | .reservedEDBC _ _ => true
  | .reservedEDC0 _ _ _ => true
  | .reservedEDE0 _ _ _ => true
  | .validateAddress _ _ acctype iswrite => !iswrite || acctype.canWrite
  | .ldrbt _ _ => true
  | .ldrht _ _ => true
  | .ldrsbt _ _ => true
  | .ldrsht _ _ => true
  | .ldrt _ _ => true
  | .strbt _ _ _ => true
  | .strht _ _ _ => true
  | .strt _ _ _ => true

end Sys2Proof
end

