-- ==== Sys2Proof/Decode.lean ====
section
/-! DEFINITION. The decoder of the register interface (R90 to R92), total on every packet, the encoder, and the host's
reading of a table word. The qualifier word's layout is the model's (DESIGN CHOICE, log 25):

    bit 0      iswrite            bits 2:1   size (0 word, 1 byte, 2 halfword, 3 doubleword)
    bits 4:3   acctype (0 normal, 1 IFETCH, 2 VECTABLE, 3 UNPRIV)
    bit 5      1 when FindPriv() is FALSE        bit 6   1 when ExecutionPriority() < 0
    bits 10:7  kind               bits 31:11 zero
-/

namespace Sys2Proof

/-- A field's value at its place in a word: its least significant bit at bit `k`. -/
def placed {w : Nat} (x : BitVec w) (k : Nat) : Word := x.setWidth 32 <<< k

/-- Size field of a qualifier. -/
def sizeOfBits (b : BitVec 2) : AccSize :=
  if b = 0#2 then .word else if b = 1#2 then .byte else if b = 2#2 then .half else .double

def bitsOfSize : AccSize → BitVec 2
  | .word => 0#2
  | .byte => 1#2
  | .half => 2#2
  | .double => 3#2

/-- Acctype field of a qualifier. -/
def acctypeOfBits (b : BitVec 2) : AccType :=
  if b = 0#2 then .normal else if b = 1#2 then .ifetch else if b = 2#2 then .vectable else .unpriv

def bitsOfAcctype : AccType → BitVec 2
  | .normal => 0#2
  | .ifetch => 1#2
  | .vectable => 2#2
  | .unpriv => 3#2

/-- The fields of a qualifier word; the bits above the layout must be zero. -/
def decodeQualifier (q : Word) : Except DecodeError Qualifier :=
  if q.extractLsb' 11 21 ≠ 0#21 then .error .reservedQualifierBits
  else .ok
    { iswrite := q.getLsbD 0
      size := sizeOfBits (q.extractLsb' 1 2)
      acctype := acctypeOfBits (q.extractLsb' 3 2)
      proc := { findPriv := !q.getLsbD 5, prioBelowZero := q.getLsbD 6 }
      kind := q.extractLsb' 7 4 }

def encodeQualifier (f : Qualifier) : Word :=
  placed (BitVec.ofBool f.iswrite) 0 ||| placed (bitsOfSize f.size) 1 ||| placed (bitsOfAcctype f.acctype) 3
    ||| placed (BitVec.ofBool (!f.proc.findPriv)) 5 ||| placed (BitVec.ofBool f.proc.prioBelowZero) 6
    ||| placed f.kind 7

/-- Format RBAR of a written word (R96, R102): ADDR is bits 31:5. -/
def rbarAddrField (v : Word) : BitVec 27 := v.extractLsb' 5 27

/-- REGION is bits 3:0 (R102). -/
def rbarRegionField (v : Word) : BitVec 4 := v.extractLsb' 0 4

/-- VALID is bit 4 (R102). -/
def rbarValidField (v : Word) : Bool := v.getLsbD 4

/-- Which operation an access to the register block is (R91, R92): the word address selects the register, the
direction the operation, and the VALID bit of a written RBAR word the row. DESIGN CHOICE, log 44: the lowest address
decides, so an access that starts below the block and runs into it is `notARegisterAddress`, unprivileged or not. -/
def decodeRegister (address : Word) (r : RegAccess) (iswrite : Bool) (v : Word) : Except DecodeError Instr :=
  let w := address &&& 0xFFFFFFFC#32
  let op : RegOp := if iswrite then .write v else .read
  let rbar (rd : Instr) (w0 w1 : BitVec 27 → BitVec 4 → Instr) : Except DecodeError Instr :=
    .ok (if iswrite then
      (if rbarValidField v then w1 (rbarAddrField v) (rbarRegionField v)
        else w0 (rbarAddrField v) (rbarRegionField v))
      else rd)
  if w = 0xE000ED90#32 then .ok (if iswrite then .writeMpuType r v else .readMpuType r)
  else if w = 0xE000ED94#32 then .ok (if iswrite then .writeMpuCtrl r v else .readMpuCtrl r)
  else if w = 0xE000ED98#32 then .ok (if iswrite then .writeMpuRnr r v else .readMpuRnr r)
  else if w = 0xE000ED9C#32 then rbar (.readMpuRbar r) (.writeMpuRbarValid0 r) (.writeMpuRbarValid1 r)
  else if w = 0xE000EDA0#32 then .ok (if iswrite then .writeMpuRasr r v else .readMpuRasr r)
  else if w = 0xE000EDA4#32 then rbar (.readMpuRbarA1 r) (.writeMpuRbarA1Valid0 r) (.writeMpuRbarA1Valid1 r)
  else if w = 0xE000EDA8#32 then .ok (if iswrite then .writeMpuRasrA1 r v else .readMpuRasrA1 r)
  else if w = 0xE000EDAC#32 then rbar (.readMpuRbarA2 r) (.writeMpuRbarA2Valid0 r) (.writeMpuRbarA2Valid1 r)
  else if w = 0xE000EDB0#32 then .ok (if iswrite then .writeMpuRasrA2 r v else .readMpuRasrA2 r)
  else if w = 0xE000EDB4#32 then rbar (.readMpuRbarA3 r) (.writeMpuRbarA3Valid0 r) (.writeMpuRbarA3Valid1 r)
  else if w = 0xE000EDB8#32 then .ok (if iswrite then .writeMpuRasrA3 r v else .readMpuRasrA3 r)
  else if w = 0xE000EDBC#32 then .ok (.reservedEDBC r op)
  else if address &&& 0xFFFFFFE0#32 = 0xE000EDC0#32 then .ok (.reservedEDC0 r (address.extractLsb' 2 3) op)
  else if address &&& 0xFFFFFFF0#32 = 0xE000EDE0#32 then .ok (.reservedEDE0 r (address.extractLsb' 2 2) op)
  else .error .notARegisterAddress

/-- The operation a packet stands for: total, every other packet rejected by name. The data word of a read is not
looked at (the processor drives none). -/
def decode (p : Packet) : Except DecodeError Instr :=
  match decodeQualifier p.qualifier with
  | .error e => .error e
  | .ok q =>
    let plain : Bool := !q.iswrite && q.size == .word && q.acctype == .normal
    if q.kind = 0#4 then
      if q.acctype == .ifetch || q.acctype == .vectable then .error .registerAccessNotData
      else decodeRegister p.address
        { proc := q.proc, unpriv := q.acctype == .unpriv, size := q.size, lane := p.address.extractLsb' 0 2 }
        q.iswrite p.data
    else if q.kind = 1#4 then
      if q.size != .word then .error .unusedFieldNotZero
      else if q.iswrite && !q.acctype.canWrite then .error .writeOfAReadOnlyKind
      else .ok (.validateAddress q.proc { first := p.address, more := p.data } q.acctype q.iswrite)
    else if q.kind.toNat ≥ 10 then .error .unknownKind
    else if !plain then .error .unusedFieldNotZero
    else if q.kind = 2#4 then .ok (.ldrbt q.proc p.address)
    else if q.kind = 3#4 then .ok (.ldrht q.proc p.address)
    else if q.kind = 4#4 then .ok (.ldrsbt q.proc p.address)
    else if q.kind = 5#4 then .ok (.ldrsht q.proc p.address)
    else if q.kind = 6#4 then .ok (.ldrt q.proc p.address)
    else if q.kind = 7#4 then .ok (.strbt q.proc p.address p.data)
    else if q.kind = 8#4 then .ok (.strht q.proc p.address p.data)
    else .ok (.strt q.proc p.address p.data)

/-- The packet of an access to the register block: the register's word address with the access's lane. -/
def encodeRegister (base : Word) (r : RegAccess) (iswrite : Bool) (v : Word) : Packet where
  address := base ||| placed r.lane 0
  qualifier := encodeQualifier
    { iswrite, size := r.size, acctype := if r.unpriv then .unpriv else .normal, proc := r.proc, kind := 0#4 }
  data := v

/-- A word in format RBAR (R96). -/
def rbarWordOf (addr : BitVec 27) (valid : Bool) (region : BitVec 4) : Word :=
  placed addr 5 ||| placed (BitVec.ofBool valid) 4 ||| placed region 0

/-- The packet of an access to a reserved address. -/
def encodeReserved (base : Word) (r : RegAccess) : RegOp → Packet
  | .read => encodeRegister base r false 0#32
  | .write v => encodeRegister base r true v

/-- The packet of an unprivileged load or store instruction. -/
def encodeUnpriv (kind : BitVec 4) (p : ProcInputs) (address value : Word) : Packet where
  address
  qualifier := encodeQualifier { iswrite := false, size := .word, acctype := .normal, proc := p, kind }
  data := value

/-- The packet of an operation, from the spec's address map (R91) and the formats (R93 to R97). -/
def encode : Instr → Packet
  | .readMpuType r => encodeRegister 0xE000ED90#32 r false 0#32
  | .writeMpuType r v => encodeRegister 0xE000ED90#32 r true v
  | .readMpuCtrl r => encodeRegister 0xE000ED94#32 r false 0#32
  | .writeMpuCtrl r v => encodeRegister 0xE000ED94#32 r true v
  | .readMpuRnr r => encodeRegister 0xE000ED98#32 r false 0#32
  | .writeMpuRnr r v => encodeRegister 0xE000ED98#32 r true v
  | .readMpuRbar r => encodeRegister 0xE000ED9C#32 r false 0#32
  | .writeMpuRbarValid0 r a n => encodeRegister 0xE000ED9C#32 r true (rbarWordOf a false n)
  | .writeMpuRbarValid1 r a n => encodeRegister 0xE000ED9C#32 r true (rbarWordOf a true n)
  | .readMpuRbarA1 r => encodeRegister 0xE000EDA4#32 r false 0#32
  | .writeMpuRbarA1Valid0 r a n => encodeRegister 0xE000EDA4#32 r true (rbarWordOf a false n)
  | .writeMpuRbarA1Valid1 r a n => encodeRegister 0xE000EDA4#32 r true (rbarWordOf a true n)
  | .readMpuRbarA2 r => encodeRegister 0xE000EDAC#32 r false 0#32
  | .writeMpuRbarA2Valid0 r a n => encodeRegister 0xE000EDAC#32 r true (rbarWordOf a false n)
  | .writeMpuRbarA2Valid1 r a n => encodeRegister 0xE000EDAC#32 r true (rbarWordOf a true n)
  | .readMpuRbarA3 r => encodeRegister 0xE000EDB4#32 r false 0#32
  | .writeMpuRbarA3Valid0 r a n => encodeRegister 0xE000EDB4#32 r true (rbarWordOf a false n)
  | .writeMpuRbarA3Valid1 r a n => encodeRegister 0xE000EDB4#32 r true (rbarWordOf a true n)
  | .readMpuRasr r => encodeRegister 0xE000EDA0#32 r false 0#32
  | .writeMpuRasr r v => encodeRegister 0xE000EDA0#32 r true v
  | .readMpuRasrA1 r => encodeRegister 0xE000EDA8#32 r false 0#32
  | .writeMpuRasrA1 r v => encodeRegister 0xE000EDA8#32 r true v
  | .readMpuRasrA2 r => encodeRegister 0xE000EDB0#32 r false 0#32
  | .writeMpuRasrA2 r v => encodeRegister 0xE000EDB0#32 r true v
  | .readMpuRasrA3 r => encodeRegister 0xE000EDB8#32 r false 0#32
  | .writeMpuRasrA3 r v => encodeRegister 0xE000EDB8#32 r true v
  | .reservedEDBC r op => encodeReserved 0xE000EDBC#32 r op
  | .reservedEDC0 r i op => encodeReserved (0xE000EDC0#32 ||| placed i 2) r op
  | .reservedEDE0 r i op => encodeReserved (0xE000EDE0#32 ||| placed i 2) r op
  | .validateAddress p range t w =>
    { address := range.first
      qualifier := encodeQualifier { iswrite := w, size := .word, acctype := t, proc := p, kind := 1#4 }
      data := range.more }
  | .ldrbt p a => encodeUnpriv 2#4 p a 0#32
  | .ldrht p a => encodeUnpriv 3#4 p a 0#32
  | .ldrsbt p a => encodeUnpriv 4#4 p a 0#32
  | .ldrsht p a => encodeUnpriv 5#4 p a 0#32
  | .ldrt p a => encodeUnpriv 6#4 p a 0#32
  | .strbt p a v => encodeUnpriv 7#4 p a v
  | .strht p a v => encodeUnpriv 8#4 p a v
  | .strt p a v => encodeUnpriv 9#4 p a v

/-- The packets of one multi-word store to the register block: word writes in ascending address order (R86, R212,
D17). STM is no row of the table; this is how one reaches the MPU. -/
def stmStream (r : RegAccess) : Word → List Word → List Packet
  | _, [] => []
  | a, v :: vs => encodeRegister a r true v :: stmStream r (a + 4#32) vs

/-- A packet as one number: the address is bits 31:0, the qualifier bits 63:32, the data bits 95:64. -/
def packetOfNat (w : Nat) : Packet where
  address := BitVec.ofNat 32 w
  qualifier := BitVec.ofNat 32 (w / 2 ^ 32)
  data := BitVec.ofNat 32 (w / 2 ^ 64)

/-- The operation the decoder reads from a table word of `nbits` bits, every bit above being 0. The table's word is the
address alone, so the direction, which is a separate input (R90), is that of a read; log 25. -/
def decodeTableWord (nbits w : Nat) : Option Instr :=
  match decode (packetOfNat (w % 2 ^ nbits)) with
  | .ok i => some i
  | .error _ => none

end Sys2Proof
end

