-- ==== Sys2Proof/Config.lean ====
section
/-! DEFINITION. What an implementation fixes (`00_scope.md` section 4) and the values the spec leaves free. The
parameters a run can depend on are one record of plain data that the state carries and no step changes; the
uninterpreted ones are constants without a body. -/

namespace Sys2Proof

/-- A cacheability policy of Normal memory (R160, R174). -/
inductive CachePolicy where
  | nonCacheable
  | writeBackWriteAllocate
  | writeThrough
  | writeBackNoWriteAllocate
  deriving DecidableEq, Repr, Inhabited

/-- A memory type (R160). The inner and outer policies are there only for Normal memory, where alone the spec gives
them a meaning. -/
inductive MemType where
  | stronglyOrdered
  | device
  | normal (inner outer : CachePolicy)
  deriving DecidableEq, Repr, Inhabited

/-- The memory attribute record (R160). -/
structure MemAttrs where
  type : MemType
  shareable : Bool
  deriving DecidableEq, Repr, Inhabited

/-- The parameter IMPDEF_ATTR (R8, R167, D15): the token `refuse`, or the record for S = 0 and the record for
S = 1. -/
inductive ImpdefAttr where
  | refuse
  | attrs (whenS0 whenS1 : MemAttrs)
  deriving DecidableEq, Repr

/-- The parameters of an implementation (R6 to R8, R69, D7, D25). -/
structure Config where
  /-- NREGIONS (R6): the number of regions, `UInt(MPU_TYPE.DREGION)`; 0 means there is no MPU (R2). -/
  nregions : Fin 256
  /-- For each region, MINLOG2(r) - 5 (R7): how many low bits of ADDR are fixed at zero (R37, R213). A region beyond
  the end of the list has none. -/
  minTrailing : List (Fin 28)
  /-- IMPDEF_ATTR (R8). -/
  impdefAttr : ImpdefAttr
  /-- RO_WRITE_IGNORED (D7, R194). -/
  roWriteIgnored : Bool
  /-- SIZE_CHECK_ONLY_WHEN_ENABLED (D25, R214). -/
  sizeCheckOnlyWhenEnabled : Bool
  /-- DATA_ENDIANNESS of the memory behind the MPU (R69, D8): true for big. -/
  dataBigEndian : Bool
  deriving DecidableEq, Repr

/-- How many low bits of `RBAR[r].ADDR` are fixed at zero: MINLOG2(r) - 5 (R37, R213). -/
def Config.trailing (c : Config) (r : Nat) : Nat := (c.minTrailing.getD r 0).val

/-- MINLOG2(r) (R7): the base-2 logarithm of the smallest size region `r` supports, 5 to 32. -/
def Config.minLog2 (c : Config) (r : Nat) : Nat := 5 + c.trailing r

/-- DEFAULT_MEMATTRS(address) (R9, D16): the attributes of the default system memory map. The table is not in the
sources, so the constant has no body: any total function. Log 4. -/
opaque Config.defaultMemAttrs : Word → MemAttrs

/-- The record `State.reset` takes for TEX:C:B = 00110 (R8, D15), by S: free, no body. Log 3. -/
opaque Config.freeImpdefAttr : Bool → MemAttrs

/-- The value drawn at the n-th read of bits whose value is not fixed (D5, D6: "a draw on every read"): free, no
body. Log 9. -/
opaque Config.freeValue : Nat → Word

/-- What a byte of memory that nothing has written reads as. DESIGN CHOICE, unsafe: log 27. -/
def Config.unlistedByte : Byte := 0#8

/-- The parameters `State.reset` is built with. NREGIONS and MINLOG2 are OPEN in the spec: DESIGN CHOICE, logs 1 and
2 (the values the spec's own test vectors assume); the two switches are at the spec's defaults (D7, D25); the byte
order is DESIGN CHOICE, log 29. -/
def Config.atReset : Config where
  nregions := 8
  minTrailing := [0, 0, 0, 0, 0, 0, 0, 0]
  impdefAttr := .attrs (Config.freeImpdefAttr false) (Config.freeImpdefAttr true)
  roWriteIgnored := false
  sizeCheckOnlyWhenEnabled := false
  dataBigEndian := false

end Sys2Proof
end

