-- ==== Sys2Proof/Machine/State.lean ====
section
/-! DEFINITION. The state of the MPU (R20, R48) with the memory behind it, its interface to the processor (R12, R13),
the reasons a step can stop, and the state after reset (R51 to R57). -/

namespace Sys2Proof.Machine

/-- The three stored bits of MPU_CTRL (R25). -/
structure Ctrl where
  /-- PRIVDEFENA, bit 2 (R26). -/
  privdefena : Bool
  /-- HFNMIENA, bit 1 (R27). -/
  hfnmiena : Bool
  /-- ENABLE, bit 0 (R28). -/
  enable : Bool
  deriving DecidableEq, Repr

/-- The stored fields of one region's MPU_RASR (R38 to R44). Reserved and unnamed bits are not stored: writes to them
are ignored and reads draw a value (R40, R42, D6). -/
structure Rasr where
  /-- Bit 28 (R185). -/
  xn : Bool
  /-- Bits 26:24. -/
  ap : BitVec 3
  /-- Bits 21:19. -/
  tex : BitVec 3
  /-- Bit 18 (R175). -/
  s : Bool
  /-- Bit 17. -/
  c : Bool
  /-- Bit 16. -/
  b : Bool
  /-- Bits 15:8 (R41). -/
  srd : BitVec 8
  /-- Bits 5:1 (R43). -/
  size : BitVec 5
  /-- Bit 0 (R44). -/
  enable : Bool
  deriving DecidableEq, Repr

/-- One region's register pair: `RBAR[r].ADDR`, bits 31:5 of its base address (R34), and `RASR[r]`. -/
structure Region where
  addr : BitVec 27
  rasr : Rasr
  deriving DecidableEq, Repr

/-- The bits of MMFSR the MPU writes (R48). -/
structure Mmfsr where
  iaccviol : Bool
  daccviol : Bool
  mmarvalid : Bool
  deriving DecidableEq, Repr

/-- The memory behind the MPU: (address, byte) pairs in the canonical form of `Memory.wf`. -/
abbrev Memory := List Host.Cell

/-- Access permissions of an address (R19). -/
structure Perms where
  ap : BitVec 3
  xn : Bool
  deriving DecidableEq, Repr

/-- Where the attributes of an access come from: the default memory map, or the TEX:C:B and S bits of the winning
region, decoded once the region loop is over (R176). -/
inductive AttrSource where
  | defaultMap
  | region (texcb : BitVec 5) (s : Bool)
  deriving DecidableEq, Repr

/-- The variables of ValidateAddress while it runs: `perms`, the source of `result.memattrs`, and `hit` (R122). -/
structure Walk where
  perms : Perms
  attr : AttrSource
  hit : Bool
  deriving DecidableEq, Repr

/-- What the MPU gives back for an allowed access (R13, R19). -/
structure AddressDescriptor where
  physicaladdress : Word
  memattrs : MemAttrs
  deriving DecidableEq, Repr

/-- The MPU's answer to a transaction (R13, R261). -/
inductive Reply where
  /-- No transaction has been answered since reset. -/
  | idle
  /-- `ok(result)`: the descriptor of every call of ValidateAddress that was made, and the value of a read. -/
  | ok (descriptors : List AddressDescriptor) (value : Option Word)
  /-- `fault MemManage`: ExceptionTaken(MemManage) is signalled and the syndrome has been written (R250). -/
  | memManage
  /-- `lockup`: the same at execution priority below 0 (R255). -/
  | lockup
  /-- `fault BusFault` (R253). -/
  | busFault
  deriving DecidableEq, Repr

/-- The reasons the machine stops with a fault. -/
inductive Fault where
  /-- Raised by `step` alone, in a locked-up machine: lockup is terminal (R255, D11). Safe: no behaviour is invented
  for a state the spec says ends the run. -/
  | lockup
  deriving DecidableEq, Repr

/-- The reasons a transaction is refused: the spec gives the case no outcome and says the model refuses it (D4 and the
decisions named). Nothing has been written. Every one is safe: a run that meets one proves nothing. -/
inductive Refusal where
  /-- Raised by `exec` for an instruction that has no meaning yet: none. Safe. -/
  | notModelled (mnemonic : String)
  /-- Raised by `step`: the packet stands for no operation. Safe. -/
  | undecodable (e : DecodeError)
  /-- Raised by ValidateAddress: HFNMIENA is 1 with ENABLE 0 (R127, U1). Safe. -/
  | unpredictableControl
  /-- Raised by ValidateAddress: an enabled region has SIZE below 4 (R132, U2). Safe. -/
  | unpredictableRegionSize
  /-- Raised by ValidateAddress: an enabled region below 256 bytes has a subregion disabled (R132, U3). Safe. -/
  | unpredictableSubregions
  /-- Raised by writes of the RASR windows: SIZE is below the region's minimum (R214, U4). Safe. -/
  | sizeBelowMinimum
  /-- Raised by writes of MPU_RNR: the region does not exist (R198, U5). Safe. -/
  | regionNumberOutOfRange
  /-- Raised by writes of the RBAR windows with VALID 1: the region does not exist (R201, U6). Safe. -/
  | rbarRegionOutOfRange
  /-- Raised by ValidateAddress: the access's AP is 100 (R181, U7). Safe. -/
  | reservedAccessPermission
  /-- Raised by ValidateAddress: the winning region's TEX:C:B is reserved (R166, R170 to R172, U8, D14). Safe. -/
  | reservedMemoryType
  /-- Raised by ValidateAddress: the winning region's TEX:C:B is 00110 and the parameter IMPDEF_ATTR is `refuse`
  (R167, D15). Safe. -/
  | implementationDefinedMemoryType
  /-- Raised by register accesses: a size other than a word (R191, U10, D24). Safe. -/
  | registerAccessWidth
  /-- Raised by register accesses: a word access at an address that is not a multiple of 4 (R191, D24). Safe. -/
  | registerAccessUnaligned
  /-- Raised by the reserved addresses (R210, U11, D19). Safe. -/
  | reservedAddress
  /-- Raised with no MPU by a write of a value other than 0 to an absent register (R211, U12, D19). Safe. -/
  | absentRegisterWrite
  /-- Raised by writes of MPU_TYPE unless RO_WRITE_IGNORED (R194, D7). Safe. -/
  | readOnlyWrite
  /-- Raised by reads of the RBAR windows, their writes with VALID 0, and the RASR windows, while RNR.REGION has not
  been written since reset (R52, D13). Safe. -/
  | regionNotSelected
  /-- Raised by the same operations when RNR.REGION names no region: no reachable state has that once it has been
  written. Safe. -/
  | regionAbsent
  deriving DecidableEq, Repr

/-- What a call of ValidateAddress, or a sequence of calls for one access, comes to: the descriptors, the failing
address, or a refusal (R261). -/
inductive Verdict where
  | ok (descriptors : List AddressDescriptor)
  | violation (address : Word)
  | refuse (r : Refusal)
  deriving DecidableEq, Repr

/-- The state of the machine. -/
structure State where
  /-- The implementation's parameters: no step changes them. -/
  cfg : Config
  /-- MPU_CTRL (R20). -/
  ctrl : Ctrl
  /-- RNR.REGION (R20, R31). -/
  rnr : BitVec 8
  /-- `RBAR[r]` and `RASR[r]`, region 0 first, one entry for each of the NREGIONS regions (R20). -/
  regions : List Region
  /-- MMFSR.IACCVIOL, DACCVIOL and MMARVALID (R48). -/
  mmfsr : Mmfsr
  /-- MMAR (R48). -/
  mmar : Word
  /-- The memory behind the MPU (R18, R67). -/
  mem : Memory
  /-- RNR.REGION has been written since reset: the device of R52 (D13). -/
  rnrWritten : Bool
  /-- MPU_CTRL has been written since reset, which decides what its reserved bits read as (R29, D6). -/
  ctrlWritten : Bool
  /-- The model's own: which free value the next read of unfixed bits shows (D6). -/
  draws : Nat
  /-- The processor has locked up (R255, D11). -/
  lockedUp : Bool
  /-- The answer to the last transaction (R13). -/
  reply : Reply
  /-- The transactions the processor has presented, oldest first (R12). -/
  queue : List Packet
  deriving DecidableEq, Repr

/-- The three outcomes of one operation. -/
abbrev Out := Host.Outcome State Fault Refusal

/-- The values reset leaves UNKNOWN (R52 to R54, R57, D5): one record for each draw. -/
structure ResetDraw where
  rnr : BitVec 8
  regions : List Region
  mmfsr : Mmfsr
  mmar : Word
  mem : Memory
  deriving DecidableEq, Repr

/-- The machine after reset, for given parameters and given values of everything reset leaves UNKNOWN (R51 to R57,
D26). -/
def State.resetWith (c : Config) (d : ResetDraw) : State where
  cfg := c
  ctrl := { privdefena := false, hfnmiena := false, enable := false }
  rnr := d.rnr
  regions := d.regions
  mmfsr := d.mmfsr
  mmar := d.mmar
  mem := d.mem
  rnrWritten := false
  ctrlWritten := false
  draws := 0
  lockedUp := false
  reply := .idle
  queue := []

/-- A region whose registers hold zero in every field. -/
def Region.zero : Region where
  addr := 0#27
  rasr := { xn := false, ap := 0#3, tex := 0#3, s := false, c := false, b := false, srd := 0#8, size := 0#5,
            enable := false }

/-- The values the model names for what reset leaves UNKNOWN: zero. DESIGN CHOICE, unsafe: logs 5 to 8. -/
def ResetDraw.zero (c : Config) : ResetDraw where
  rnr := 0#8
  regions := List.replicate c.nregions.val Region.zero
  mmfsr := { iaccviol := false, daccviol := false, mmarvalid := false }
  mmar := 0#32
  mem := []

/-- The machine right after reset. -/
def State.reset : State := State.resetWith Config.atReset (ResetDraw.zero Config.atReset)

end Sys2Proof.Machine
end

