-- ==== Sys2Proof/Machine/Flags.lean ====
section
/-! DEFINITION. The status bits. The MPU has no condition flags (R50); the status it computes is the fault syndrome it
leaves in MMFSR and MMAR (R251, R252), the same for a no-hit and for a permission failure (R256, D10). -/

namespace Sys2Proof.Machine

/-- MMFSR after a MemManage: an instruction fetch sets IACCVIOL and clears MMARVALID (R251), any other access sets
DACCVIOL and MMARVALID (R252). The other violation bit is unchanged (R257). -/
def syndromeBits (f : Mmfsr) (acctype : AccType) : Mmfsr :=
  match acctype with
  | .ifetch => { f with iaccviol := true, mmarvalid := false }
  | .normal => { f with daccviol := true, mmarvalid := true }
  | .vectable => { f with daccviol := true, mmarvalid := true }
  | .unpriv => { f with daccviol := true, mmarvalid := true }

/-- MMAR after a MemManage: unchanged by an instruction fetch (R251), the failing address for any other access
(R252). -/
def syndromeAddress (mmar : Word) (acctype : AccType) (a : Word) : Word :=
  match acctype with
  | .ifetch => mmar
  | .normal => a
  | .vectable => a
  | .unpriv => a

end Sys2Proof.Machine
end

