-- ==== Sys2Proof/Machine/Operands.lean ====
section
/-! DEFINITION. Operand forms: the register formats as words (R93 to R97), the derived fields of a region (R98 to
R101), access sizes, and the privilege of an access (R121). The word returned by a read is built from the stored fields
and a drawn word for the bits whose value is not fixed. -/

namespace Sys2Proof.Machine

/-- Format CTRL of a written word (R94, R196); bits 31:3 are ignored. -/
def ctrlOfWord (v : Word) : Ctrl where
  privdefena := v.getLsbD 2
  hfnmiena := v.getLsbD 1
  enable := v.getLsbD 0

/-- Format RNR of a written word (R95, R198); bits 31:8 are ignored. -/
def rnrOfWord (v : Word) : BitVec 8 := v.extractLsb' 0 8

/-- Format RASR of a written word (R97, R203); bits 31:29, 27, 23:22 and 7:6 are ignored. -/
def rasrOfWord (v : Word) : Rasr where
  xn := v.getLsbD 28
  ap := v.extractLsb' 24 3
  tex := v.extractLsb' 19 3
  s := v.getLsbD 18
  c := v.getLsbD 17
  b := v.getLsbD 16
  srd := v.extractLsb' 8 8
  size := v.extractLsb' 1 5
  enable := v.getLsbD 0

/-- MPU_TYPE as read (R93, R193): DREGION is NREGIONS, IREGION and SEPARATE are 0, bits 31:24 and 7:1 are the drawn
word's (R24). -/
def typeWord (c : Config) (free : Word) : Word := (free &&& 0xFF0000FE#32) ||| placed (BitVec.ofNat 8 c.nregions.val) 8

/-- MPU_CTRL as read (R94, R195), bits 31:3 being those of `free` (R29). -/
def ctrlWord (c : Ctrl) (free : Word) : Word :=
  (free &&& 0xFFFFFFF8#32) ||| placed (BitVec.ofBool c.privdefena) 2 ||| placed (BitVec.ofBool c.hfnmiena) 1
    ||| placed (BitVec.ofBool c.enable) 0

/-- MPU_RNR as read (R95, R197), bits 31:8 being the drawn word's (R32). -/
def rnrWord (rnr : BitVec 8) (free : Word) : Word := (free &&& 0xFFFFFF00#32) ||| placed rnr 0

/-- An RBAR window as read (R96, R199): VALID reads as zero, REGION shows the low four bits of RNR. -/
def rbarWord (addr : BitVec 27) (rnr : BitVec 8) : Word := placed addr 5 ||| placed (rnr.extractLsb' 0 4) 0

/-- A RASR window as read (R97, R202), bits 31:29, 27, 23:22 and 7:6 being the drawn word's (R40, R42). -/
def rasrWord (x : Rasr) (free : Word) : Word :=
  (free &&& 0xE8C000C0#32) ||| placed (BitVec.ofBool x.xn) 28 ||| placed x.ap 24 ||| placed x.tex 19
    ||| placed (BitVec.ofBool x.s) 18 ||| placed (BitVec.ofBool x.c) 17 ||| placed (BitVec.ofBool x.b) 16
    ||| placed x.srd 8 ||| placed x.size 1 ||| placed (BitVec.ofBool x.enable) 0

/-- The ADDR a region stores when `addr` is written: the bits below its minimum size are forced to 0 (R37). -/
def storedAddr (c : Config) (r : Nat) (addr : BitVec 27) : BitVec 27 := (addr >>> c.trailing r) <<< c.trailing r

/-- The region size exponent: the region is `2 ^ lsbit` bytes (R98). -/
def Rasr.lsbit (x : Rasr) : Nat := x.size.toNat + 1

/-- The attribute selector TEX:C:B (R101). -/
def Rasr.texcb (x : Rasr) : BitVec 5 := x.tex ++ BitVec.ofBool x.c ++ BitVec.ofBool x.b

/-- The permissions a region gives (R135). -/
def Rasr.perms (x : Rasr) : Perms := { ap := x.ap, xn := x.xn }

/-- The 32-bit base address a region's ADDR stands for (R99). -/
def Region.base (g : Region) : Word := placed g.addr 5

/-- The address match (R133): only bits at or above `lsbit` are compared, and none when it is 32. -/
def Region.addressMatches (g : Region) (a : Word) : Bool :=
  g.rasr.lsbit == 32 || a >>> g.rasr.lsbit == g.base >>> g.rasr.lsbit

/-- The subregion an address lies in: the three bits below `lsbit` (R100). -/
def Region.subregion (g : Region) (a : Word) : BitVec 3 := a.extractLsb' (g.rasr.lsbit - 3) 3

/-- The subregion the address lies in is enabled (R134). -/
def Region.subregionEnabled (g : Region) (a : Word) : Bool := !g.rasr.srd.getLsbD (g.subregion a).toNat

/-- The region gives its attributes to the address: enabled, matching, subregion enabled (R135). -/
def Region.covers (g : Region) (a : Word) : Bool :=
  g.rasr.enable && g.addressMatches a && g.subregionEnabled a

/-- Why an enabled region makes an access UNPREDICTABLE, if it does (R132). A disabled region never does (R131). -/
def Region.illegal (g : Region) : Option Refusal :=
  if !g.rasr.enable then none
  else if g.rasr.lsbit < 5 then some .unpredictableRegionSize
  else if g.rasr.lsbit < 8 && g.rasr.srd != 0#8 then some .unpredictableSubregions
  else none

/-- The bytes an access of a size touches. -/
def bytesOf : AccSize → Nat
  | .byte => 1
  | .half => 2
  | .word => 4
  | .double => 8

/-- The number of bytes of an access presented with the number after its first. -/
def bytesWith (more : Word) : Nat := more.toNat + 1

/-- An access that no boundary of the MPU can cut (R74): 1, 2, 4, 8, 16 or 32 bytes at a multiple of its size. -/
def naturallyAligned (a : Word) (n : Nat) : Bool :=
  (n == 1 || n == 2 || n == 4 || n == 8 || n == 16 || n == 32) && a.toNat % n == 0

/-- `ispriv` (R121). -/
def ispriv (p : ProcInputs) (acctype : AccType) : Bool := acctype != .unpriv && p.findPriv

/-- `ispriv` of an access to the register block (R71, R121). -/
def regIsPriv (r : RegAccess) : Bool := ispriv r.proc (if r.unpriv then .unpriv else .normal)

/-- What a load of `n` bytes gives the processor: the bytes, extended with copies of the top bit or with zeros to a
word. PRESUMED: log 28. -/
def extendLoad (size : AccSize) (signed : Bool) (v : Word) : Word :=
  match size with
  | .byte => if signed then (v.extractLsb' 0 8).signExtend 32 else (v.extractLsb' 0 8).zeroExtend 32
  | .half => if signed then (v.extractLsb' 0 16).signExtend 32 else (v.extractLsb' 0 16).zeroExtend 32
  | .word => v
  | .double => v

end Sys2Proof.Machine
end

