-- ==== Sys2Proof/Machine/Validate.lean ====
section
/-! DEFINITION. `ValidateAddress()` and the functions it calls (`40_mpu_operation.md`,
`41_attributes_permissions.md`): which map checks an access, the region loop, the decode of the winning region's
attributes, the permission check, and the checks of an access of several bytes (R74). They read the state and change
nothing; `Ops.lean` writes the syndrome. -/

namespace Sys2Proof.Machine

/-- `DefaultPermissions(address)` (R123): full access everywhere, execute-never by address[31:29]. -/
def defaultPermissions (a : Word) : Perms :=
  let top := a.extractLsb' 29 3
  { ap := 0b011#3
    xn := if top = 0b000#3 then false
          else if top = 0b001#3 then false
          else if top = 0b010#3 then true
          else if top = 0b011#3 then false
          else if top = 0b100#3 then false
          else true }

/-- `isPPBaccess` (R124): 0xE0000000 to 0xE00FFFFF. -/
def isPPB (a : Word) : Bool := a.extractLsb' 20 12 == 0b111000000000#12

/-- System space, 0xE0000000 and higher (R64, R136). -/
def isSystemSpace (a : Word) : Bool := a.extractLsb' 29 3 == 0b111#3

/-- The descriptor of an access the default map answers (R122). -/
def defaultDescriptor (a : Word) : AddressDescriptor where
  physicaladdress := a
  memattrs := Config.defaultMemAttrs a

/-- The cache policy a two-bit subfield selects (R174). -/
def cachePolicy (b : BitVec 2) : CachePolicy :=
  if b = 0b00#2 then .nonCacheable
  else if b = 0b01#2 then .writeBackWriteAllocate
  else if b = 0b10#2 then .writeThrough
  else .writeBackNoWriteAllocate

/-- `DefaultTEXDecode(texcb, S)` (R161 to R176): Table B3-13, one line a row. -/
def texDecode (c : Config) (texcb : BitVec 5) (s : Bool) : Except Refusal MemAttrs :=
  if texcb.getLsbD 4 then
    .ok { type := .normal (cachePolicy (texcb.extractLsb' 0 2)) (cachePolicy (texcb.extractLsb' 2 2)), shareable := s }
  else if texcb = 0b00000#5 then .ok { type := .stronglyOrdered, shareable := true }
  else if texcb = 0b00001#5 then .ok { type := .device, shareable := true }
  else if texcb = 0b00010#5 then .ok { type := .normal .writeThrough .writeThrough, shareable := s }
  else if texcb = 0b00011#5 then
    .ok { type := .normal .writeBackNoWriteAllocate .writeBackNoWriteAllocate, shareable := s }
  else if texcb = 0b00100#5 then .ok { type := .normal .nonCacheable .nonCacheable, shareable := s }
  else if texcb = 0b00110#5 then
    match c.impdefAttr with
    | .refuse => .error .implementationDefinedMemoryType
    | .attrs whenS0 whenS1 => .ok (if s then whenS1 else whenS0)
  else if texcb = 0b00111#5 then
    .ok { type := .normal .writeBackWriteAllocate .writeBackWriteAllocate, shareable := s }
  else if texcb = 0b01000#5 then .ok { type := .device, shareable := false }
  else .error .reservedMemoryType

/-- Table B3-15 (R177 to R184, R186): whether AP allows the access; none is UNPREDICTABLE. -/
def permits (ap : BitVec 3) (priv iswrite : Bool) : Option Bool :=
  if ap = 0b000#3 then some false
  else if ap = 0b001#3 then some priv
  else if ap = 0b010#3 then some (priv || !iswrite)
  else if ap = 0b011#3 then some true
  else if ap = 0b100#3 then none
  else if ap = 0b101#3 then some (priv && !iswrite)
  else some (!iswrite)

/-- `CheckPermission` without what it records (R186): a fetch also needs XN to be 0 (R185). -/
def checkPermission (perms : Perms) (priv : Bool) (acctype : AccType) (iswrite : Bool) : Option Bool :=
  match permits perms.ap priv iswrite with
  | none => none
  | some allowed => some (allowed && !(acctype == .ifetch && perms.xn))

/-- The region loop (R130 to R135): the regions from the first given on, in ascending order, each covering region
overwriting what the ones before it left; an illegal enabled region ends it, whether it covers the address or not. -/
def regionLoop : List Region → Word → Walk → Except Refusal Walk
  | [], _, w => .ok w
  | g :: rest, a, w =>
    match g.illegal with
    | some r => .error r
    | none =>
      regionLoop rest a
        (if g.covers a then
          { perms := g.rasr.perms, attr := .region g.rasr.texcb g.rasr.s, hit := true }
         else w)

/-- The four arms of ValidateAddress (R125 to R130): where the permissions and attributes come from, and `hit`. -/
def acquire (s : State) (p : ProcInputs) (a : Word) (acctype : AccType) : Except Refusal Walk :=
  let dflt (hit : Bool) : Walk := { perms := defaultPermissions a, attr := .defaultMap, hit }
  if acctype == .vectable || isPPB a then .ok (dflt true)
  else if !s.ctrl.enable then
    if s.ctrl.hfnmiena then .error .unpredictableControl else .ok (dflt true)
  else if !s.ctrl.hfnmiena && p.prioBelowZero then .ok (dflt true)
  else regionLoop s.regions a (dflt (s.ctrl.privdefena && ispriv p acctype))

/-- The attributes an access gets (R81, R135): the default map's, or the decode of the winning region's bits. -/
def attributesOf (c : Config) (a : Word) : AttrSource → Except Refusal MemAttrs
  | .defaultMap => .ok (Config.defaultMemAttrs a)
  | .region texcb s => texDecode c texcb s

/-- System space is execute-never whatever gave the permissions (R136). -/
def systemSpaceXN (perms : Perms) (a : Word) : Perms :=
  if isSystemSpace a then { perms with xn := true } else perms

/-- `ValidateAddress(address, acctype, iswrite)` (R120 to R141). A reserved attribute encoding refuses the access
before its permissions are looked at (R166, D14). -/
def validateAddress (s : State) (p : ProcInputs) (a : Word) (acctype : AccType) (iswrite : Bool) : Verdict :=
  match acquire s p a acctype with
  | .error r => .refuse r
  | .ok w =>
    if w.hit then
      match attributesOf s.cfg a w.attr with
      | .error r => .refuse r
      | .ok m =>
        match checkPermission (systemSpaceXN w.perms a) (ispriv p acctype) acctype iswrite with
        | none => .refuse .reservedAccessPermission
        | some true => .ok [{ physicaladdress := a, memattrs := m }]
        | some false => .violation a
    else .violation a

/-- ValidateAddress for every address of a list, in order, up to the first that does not pass (R74, D9). -/
def validateEach (s : State) (p : ProcInputs) (acctype : AccType) (iswrite : Bool) : List Word → Verdict
  | [] => .ok []
  | a :: rest =>
    match validateAddress s p a acctype iswrite with
    | .ok ds =>
      match validateEach s p acctype iswrite rest with
      | .ok more => .ok (ds ++ more)
      | .violation b => .violation b
      | .refuse r => .refuse r
    | .violation b => .violation b
    | .refuse r => .refuse r

/-- The byte addresses an access of `n` bytes touches, ascending; the address after 0xFFFFFFFF is 0 (log 31). -/
def spanOf (a : Word) (n : Nat) : List Word := (List.range n).map (fun k => a + BitVec.ofNat 32 k)

/-- The checks of one access of `n` bytes (R74, D9): one call at its lowest byte when it is naturally aligned and of at
most 32 bytes, else one call for every byte. -/
def validateAccess (s : State) (p : ProcInputs) (a : Word) (n : Nat) (acctype : AccType) (iswrite : Bool) : Verdict :=
  if naturallyAligned a n then validateAddress s p a acctype iswrite
  else validateEach s p acctype iswrite (spanOf a n)

end Sys2Proof.Machine
end

