-- ==== Sys2Proof/Machine/Ops.lean ====
section
/-! DEFINITION. The named operations: the updates of State, the memory behind the MPU, taking a fault, the checks every
register access makes, the window operations the primaries and the aliases share, and the unprivileged accesses. -/

namespace Sys2Proof.Machine

/-! ### Updates of the state -/

/-- The MPU answers the transaction. -/
def State.answer (s : State) (r : Reply) : State := { s with reply := r }

/-- A value for unfixed bits has been drawn (D6). -/
def State.drew (s : State) : State := { s with draws := s.draws + 1 }

/-- MPU_CTRL is written. -/
def State.setCtrl (s : State) (c : Ctrl) : State := { s with ctrl := c, ctrlWritten := true }

/-- RNR.REGION is written (R31). -/
def State.select (s : State) (n : BitVec 8) : State := { s with rnr := n, rnrWritten := true }

/-- `RBAR[r].ADDR` is written. -/
def State.setAddr (s : State) (r : Nat) (addr : BitVec 27) : State :=
  { s with regions := s.regions.modify r (fun g => { g with addr := addr }) }

/-- `RASR[r]` is written. -/
def State.setRasr (s : State) (r : Nat) (x : Rasr) : State :=
  { s with regions := s.regions.modify r (fun g => { g with rasr := x }) }

/-- MMFSR and MMAR are written. -/
def State.setSyndrome (s : State) (f : Mmfsr) (a : Word) : State := { s with mmfsr := f, mmar := a }

/-- The memory behind the MPU changes. -/
def State.setMem (s : State) (m : Memory) : State := { s with mem := m }

/-- The processor locks up (R255). -/
def State.lockUp (s : State) : State := { s with lockedUp := true }

/-- The transactions still to come. -/
def State.setQueue (s : State) (q : List Packet) : State := { s with queue := q }

/-! ### The memory behind the MPU -/

/-- The byte at an address. -/
def Memory.read : Memory → Nat → Byte
  | [], _ => Config.unlistedByte
  | (k, b) :: rest, a => if k = a then b else Memory.read rest a

/-- Write one byte, keeping the canonical form: writing what an unlisted address reads as removes the entry. -/
def Memory.write : Memory → Nat → Byte → Memory
  | [], a, b => if b = Config.unlistedByte then [] else [(a, b)]
  | (k, c) :: rest, a, b =>
    if a < k then (if b = Config.unlistedByte then (k, c) :: rest else (a, b) :: (k, c) :: rest)
    else if a = k then (if b = Config.unlistedByte then rest else (a, b) :: rest)
    else (k, c) :: Memory.write rest a b

/-- The canonical form: addresses strictly rising and inside the 4GB space, no entry equal to what an unlisted address
reads as. -/
abbrev Memory.wf (m : Memory) : Prop :=
  m.Pairwise (fun x y => x.1 < y.1) ∧ ∀ c ∈ m, c.1 < 2 ^ 32 ∧ c.2 ≠ Config.unlistedByte

/-- Which byte of an `n`-byte value, counted from the least significant, lies at offset `k` (R69). -/
def byteIndex (big : Bool) (n k : Nat) : Nat := if big then n - 1 - k else k

/-- The byte a read of the memory system gives at offset `k` of an access: the listed byte, or on the PPB, whose
devices the sources do not describe, a byte of the drawn word (log 30). -/
def loadByte (s : State) (a : Word) (k : Nat) : Byte :=
  let x := a + BitVec.ofNat 32 k
  if isPPB x then (Config.freeValue s.draws).extractLsb' (8 * k) 8 else s.mem.read x.toNat

/-- The value an access of `n` bytes reads, in the byte order of the memory (R69). -/
def loadValue (s : State) (a : Word) (n : Nat) : Word :=
  (List.range n).foldl
    (fun v k => v ||| ((loadByte s a k).zeroExtend 32 <<< (8 * byteIndex s.cfg.dataBigEndian n k))) 0#32

/-- Store the bytes of a value, in the byte order of the memory; a byte on the PPB reaches a device the sources do not
describe and changes no memory (log 30). -/
def storeValue (s : State) (a : Word) (n : Nat) (v : Word) : Memory :=
  (List.range n).foldl
    (fun m k =>
      let x := a + BitVec.ofNat 32 k
      if isPPB x then m else m.write x.toNat (v.extractLsb' (8 * byteIndex s.cfg.dataBigEndian n k) 8))
    s.mem

/-! ### Taking a fault -/

/-- Take a MemManage (R250 to R252, R255, R256, R261): write the syndrome and signal ExceptionTaken(MemManage); at
execution priority below 0 the processor locks up instead. What the processor does on the exception is not in the
sources (X4, log 39), and neither is a return from one (R263). -/
def takeMemManage (s : State) (p : ProcInputs) (acctype : AccType) (a : Word) : State :=
  let t := s.setSyndrome (syndromeBits s.mmfsr acctype) (syndromeAddress s.mmar acctype a)
  if p.prioBelowZero then (t.lockUp).answer .lockup else t.answer .memManage

/-- Take a BusFault (R190, R253): the access does not complete and nothing else is written. -/
def takeBusFault (s : State) : State := s.answer .busFault

/-- What a verdict makes of a transaction (R261). -/
def settle (s : State) (p : ProcInputs) (acctype : AccType) (v : Verdict)
    (done : List AddressDescriptor → State) : Out :=
  match v with
  | .ok ds => .next (done ds)
  | .violation a => .next (takeMemManage s p acctype a)
  | .refuse r => .refused r

/-! ### Register accesses -/

/-- The checks every access to the register block makes, privilege before anything else (R190, R191, D24). -/
def regGate (s : State) (r : RegAccess) (op : Out) : Out :=
  if !regIsPriv r then .next (takeBusFault s)
  else if r.size != .word then .refused .registerAccessWidth
  else if r.lane != 0#2 then .refused .registerAccessUnaligned
  else op

/-- There is no MPU (R2). -/
def noMpu (s : State) : Bool := s.cfg.nregions.val == 0

/-- A register read answers with its value; the MPU's own check of the register's address gave the default map's
descriptor (R192). -/
def answerRead (s : State) (a v : Word) : State := s.answer (.ok [defaultDescriptor a] (some v))

/-- A register write is done. -/
def answerWrite (s : State) (a : Word) : State := s.answer (.ok [defaultDescriptor a] none)

/-- A read of a register an absent MPU does not have gives any value (R211, K4). -/
def absentRead (s : State) (a : Word) : Out := .next (answerRead s.drew a (Config.freeValue s.draws))

/-- A write to one: zero is ignored, any other value refused (R211, D19). -/
def absentWrite (s : State) (a v : Word) : Out :=
  if v = 0#32 then .next (answerWrite s a) else .refused .absentRegisterWrite

/-- Run an operation on the selected region, `UInt(RNR.REGION)` (R45), once one has been selected (R52). -/
def withSelected (s : State) (op : Nat → Region → Out) : Out :=
  if !s.rnrWritten then .refused .regionNotSelected
  else
    match s.regions[s.rnr.toNat]? with
    | none => .refused .regionAbsent
    | some g => op s.rnr.toNat g

/-- READ of MPU_RBAR (R199) at the window's address `a`. -/
def readRbarWindow (s : State) (a : Word) : Out :=
  if noMpu s then absentRead s a
  else withSelected s fun _ g => .next (answerRead s a (rbarWord g.addr s.rnr))

/-- WRITE of MPU_RBAR with VALID = 0 (R200): the selected region's ADDR; the REGION field is ignored. -/
def writeRbarValid0 (s : State) (a : Word) (addr : BitVec 27) (region : BitVec 4) : Out :=
  if noMpu s then absentWrite s a (rbarWordOf addr false region)
  else withSelected s fun r _ => .next (answerWrite (s.setAddr r (storedAddr s.cfg r addr)) a)

/-- WRITE of MPU_RBAR with VALID = 1 (R201): RNR.REGION becomes REGION zero-extended, and that region's ADDR is
written. -/
def writeRbarValid1 (s : State) (a : Word) (addr : BitVec 27) (region : BitVec 4) : Out :=
  if noMpu s then absentWrite s a (rbarWordOf addr true region)
  else if s.cfg.nregions.val < 16 && decide (s.cfg.nregions.val ≤ region.toNat) then .refused .rbarRegionOutOfRange
  else
    .next (answerWrite
      ((s.select (region.zeroExtend 8)).setAddr region.toNat (storedAddr s.cfg region.toNat addr)) a)

/-- READ of MPU_RASR (R202). -/
def readRasrWindow (s : State) (a : Word) : Out :=
  if noMpu s then absentRead s a
  else withSelected s fun _ g => .next (answerRead s.drew a (rasrWord g.rasr (Config.freeValue s.draws)))

/-- A write of this RASR value to region `r` is UNPREDICTABLE (R214, D25). -/
def sizeTooSmall (c : Config) (r : Nat) (x : Rasr) : Bool :=
  decide (x.lsbit < c.minLog2 r) && (x.enable || !c.sizeCheckOnlyWhenEnabled)

/-- WRITE of MPU_RASR (R203, R214). -/
def writeRasrWindow (s : State) (a v : Word) : Out :=
  if noMpu s then absentWrite s a v
  else withSelected s fun r _ =>
    if sizeTooSmall s.cfg r (rasrOfWord v) then .refused .sizeBelowMinimum
    else .next (answerWrite (s.setRasr r (rasrOfWord v)) a)

/-- An access to a reserved address: refused with an MPU (R210), as an absent register without one (R211, D19). -/
def reservedAccess (s : State) (a : Word) (op : RegOp) : Out :=
  if noMpu s then
    match op with
    | .read => absentRead s a
    | .write v => absentWrite s a v
  else .refused .reservedAddress

/-! ### Unprivileged loads and stores -/

/-- The access touches the register block, 0xE000ED90 to 0xE000EDEF (R91, D19). -/
def inRegisterBlock (a : Word) : Bool := decide (0xE000ED90#32 ≤ a) && decide (a ≤ 0xE000EDEF#32)

/-- Some byte of the access lies in the register block (log 32). -/
def touchesRegisterBlock (a : Word) (n : Nat) : Bool := (spanOf a n).any inRegisterBlock

/-- Some byte of the access lies on the PPB. -/
def touchesPPB (a : Word) (n : Nat) : Bool := (spanOf a n).any isPPB

/-- An unprivileged load (R230 to R236): BusFault on the register block, else what the checks with AccType_UNPRIV
make of it; the value loaded is the answer's. -/
def unprivLoad (s : State) (p : ProcInputs) (a : Word) (size : AccSize) (signed : Bool) : Out :=
  let n := bytesOf size
  if touchesRegisterBlock a n then .next (takeBusFault s)
  else
    settle s p .unpriv (validateAccess s p a n .unpriv false) fun ds =>
      (if touchesPPB a n then s.drew else s).answer (.ok ds (some (extendLoad size signed (loadValue s a n))))

/-- An unprivileged store (R237 to R239). -/
def unprivStore (s : State) (p : ProcInputs) (a : Word) (size : AccSize) (v : Word) : Out :=
  let n := bytesOf size
  if touchesRegisterBlock a n then .next (takeBusFault s)
  else
    settle s p .unpriv (validateAccess s p a n .unpriv true) fun ds =>
      (s.setMem (storeValue s a n v)).answer (.ok ds none)

end Sys2Proof.Machine
end

