-- ==== Sys2Proof/Machine/Check.lean ====
section
/-! DEFINITION. The transaction CHK: the check of one access of the processor, of any number of bytes, by ValidateAddress
(R74, R107, R120, R148), with what a failed check writes (R138 to R140, R187). -/

namespace Sys2Proof.Machine

/-- The calls of ValidateAddress for one access (R74): `ok(result)`, MemManage at the failing call's
address, lockup or a refusal (R261). It writes no MPU register. DESIGN CHOICE, log 43: an allowed ordinary write carries
no data here and leaves the memory behind the MPU as it is. -/
def execValidateAddress (p : ProcInputs) (address : ByteRange) (acctype : AccType) (iswrite : Bool) (s : State) : Out :=
  settle s p acctype (validateAccess s p address.first (bytesWith address.more) acctype iswrite) fun ds =>
    s.answer (.ok ds none)

end Sys2Proof.Machine
end

