-- ==== Sys2Proof/Machine/RasrWindow.lean ====
section
/-! DEFINITION. READ and WRITE of MPU_RASR and its aliases (R202, R203, R205, R207, R209, R214): four addresses of one
window (R45, R46). -/

namespace Sys2Proof.Machine

/-- READ MPU_RASR (R202). -/
def execReadMpuRasr (r : RegAccess) (s : State) : Out :=
  regGate s r (readRasrWindow s 0xE000EDA0#32)

/-- WRITE MPU_RASR (R203). -/
def execWriteMpuRasr (r : RegAccess) (v : Word) (s : State) : Out :=
  regGate s r (writeRasrWindow s 0xE000EDA0#32 v)

/-- READ MPU_RASR_A1 (R205). -/
def execReadMpuRasrA1 (r : RegAccess) (s : State) : Out :=
  regGate s r (readRasrWindow s 0xE000EDA8#32)

/-- WRITE MPU_RASR_A1 (R205). -/
def execWriteMpuRasrA1 (r : RegAccess) (v : Word) (s : State) : Out :=
  regGate s r (writeRasrWindow s 0xE000EDA8#32 v)

/-- READ MPU_RASR_A2 (R207). -/
def execReadMpuRasrA2 (r : RegAccess) (s : State) : Out :=
  regGate s r (readRasrWindow s 0xE000EDB0#32)

/-- WRITE MPU_RASR_A2 (R207). -/
def execWriteMpuRasrA2 (r : RegAccess) (v : Word) (s : State) : Out :=
  regGate s r (writeRasrWindow s 0xE000EDB0#32 v)

/-- READ MPU_RASR_A3 (R209). -/
def execReadMpuRasrA3 (r : RegAccess) (s : State) : Out :=
  regGate s r (readRasrWindow s 0xE000EDB8#32)

/-- WRITE MPU_RASR_A3 (R209). -/
def execWriteMpuRasrA3 (r : RegAccess) (v : Word) (s : State) : Out :=
  regGate s r (writeRasrWindow s 0xE000EDB8#32 v)

end Sys2Proof.Machine
end

