-- ==== Sys2Proof/Machine/RbarWindow.lean ====
section
/-! DEFINITION. READ and WRITE of MPU_RBAR and its aliases (R199 to R201, R204, R206, R208): four addresses of one
window (R45, R46). -/

namespace Sys2Proof.Machine

/-- READ MPU_RBAR (R199). -/
def execReadMpuRbar (r : RegAccess) (s : State) : Out :=
  regGate s r (readRbarWindow s 0xE000ED9C#32)

/-- WRITE MPU_RBAR with VALID = 0 (R200). -/
def execWriteMpuRbarValid0 (r : RegAccess) (addr : BitVec 27) (region : BitVec 4) (s : State) : Out :=
  regGate s r (writeRbarValid0 s 0xE000ED9C#32 addr region)

/-- WRITE MPU_RBAR with VALID = 1 (R201). -/
def execWriteMpuRbarValid1 (r : RegAccess) (addr : BitVec 27) (region : BitVec 4) (s : State) : Out :=
  regGate s r (writeRbarValid1 s 0xE000ED9C#32 addr region)

/-- READ MPU_RBAR_A1 (R204). -/
def execReadMpuRbarA1 (r : RegAccess) (s : State) : Out :=
  regGate s r (readRbarWindow s 0xE000EDA4#32)

/-- WRITE MPU_RBAR_A1 with VALID = 0 (R204). -/
def execWriteMpuRbarA1Valid0 (r : RegAccess) (addr : BitVec 27) (region : BitVec 4) (s : State) : Out :=
  regGate s r (writeRbarValid0 s 0xE000EDA4#32 addr region)

/-- WRITE MPU_RBAR_A1 with VALID = 1 (R204). -/
def execWriteMpuRbarA1Valid1 (r : RegAccess) (addr : BitVec 27) (region : BitVec 4) (s : State) : Out :=
  regGate s r (writeRbarValid1 s 0xE000EDA4#32 addr region)

/-- READ MPU_RBAR_A2 (R206). -/
def execReadMpuRbarA2 (r : RegAccess) (s : State) : Out :=
  regGate s r (readRbarWindow s 0xE000EDAC#32)

/-- WRITE MPU_RBAR_A2 with VALID = 0 (R206). -/
def execWriteMpuRbarA2Valid0 (r : RegAccess) (addr : BitVec 27) (region : BitVec 4) (s : State) : Out :=
  regGate s r (writeRbarValid0 s 0xE000EDAC#32 addr region)

/-- WRITE MPU_RBAR_A2 with VALID = 1 (R206). -/
def execWriteMpuRbarA2Valid1 (r : RegAccess) (addr : BitVec 27) (region : BitVec 4) (s : State) : Out :=
  regGate s r (writeRbarValid1 s 0xE000EDAC#32 addr region)

/-- READ MPU_RBAR_A3 (R208). -/
def execReadMpuRbarA3 (r : RegAccess) (s : State) : Out :=
  regGate s r (readRbarWindow s 0xE000EDB4#32)

/-- WRITE MPU_RBAR_A3 with VALID = 0 (R208). -/
def execWriteMpuRbarA3Valid0 (r : RegAccess) (addr : BitVec 27) (region : BitVec 4) (s : State) : Out :=
  regGate s r (writeRbarValid0 s 0xE000EDB4#32 addr region)

/-- WRITE MPU_RBAR_A3 with VALID = 1 (R208). -/
def execWriteMpuRbarA3Valid1 (r : RegAccess) (addr : BitVec 27) (region : BitVec 4) (s : State) : Out :=
  regGate s r (writeRbarValid1 s 0xE000EDB4#32 addr region)

end Sys2Proof.Machine
end

