-- ==== Sys2Proof/Machine/Registers.lean ====
section
/-! DEFINITION. READ and WRITE of MPU_TYPE, MPU_CTRL and MPU_RNR (R193 to R198, R211). -/

namespace Sys2Proof.Machine

/-- READ MPU_TYPE (R193): also without an MPU, DREGION then being 0. -/
def execReadMpuType (r : RegAccess) (s : State) : Out :=
  regGate s r (.next (answerRead s.drew 0xE000ED90#32 (typeWord s.cfg (Config.freeValue s.draws))))

/-- WRITE MPU_TYPE (R194, D7): ignored when RO_WRITE_IGNORED is set, refused otherwise. -/
def execWriteMpuType (r : RegAccess) (_v : Word) (s : State) : Out :=
  regGate s r
    (if s.cfg.roWriteIgnored then .next (answerWrite s 0xE000ED90#32) else .refused .readOnlyWrite)

/-- READ MPU_CTRL (R195, R211): the reserved bits are 0 before the first write since reset and drawn after it (R29);
without an MPU the register reads as zero (R30). -/
def execReadMpuCtrl (r : RegAccess) (s : State) : Out :=
  regGate s r
    (if noMpu s then .next (answerRead s 0xE000ED94#32 0#32)
     else if s.ctrlWritten then
      .next (answerRead s.drew 0xE000ED94#32 (ctrlWord s.ctrl (Config.freeValue s.draws)))
     else .next (answerRead s 0xE000ED94#32 (ctrlWord s.ctrl 0#32)))

/-- WRITE MPU_CTRL (R196): every value of the three bits is stored; without an MPU the write is ignored (R30). -/
def execWriteMpuCtrl (r : RegAccess) (v : Word) (s : State) : Out :=
  regGate s r
    (if noMpu s then .next (answerWrite s 0xE000ED94#32)
     else .next (answerWrite (s.setCtrl (ctrlOfWord v)) 0xE000ED94#32))

/-- READ MPU_RNR (R197). -/
def execReadMpuRnr (r : RegAccess) (s : State) : Out :=
  regGate s r
    (if noMpu s then absentRead s 0xE000ED98#32
     else .next (answerRead s.drew 0xE000ED98#32 (rnrWord s.rnr (Config.freeValue s.draws))))

/-- WRITE MPU_RNR (R198): a region that does not exist is UNPREDICTABLE. -/
def execWriteMpuRnr (r : RegAccess) (v : Word) (s : State) : Out :=
  regGate s r
    (if noMpu s then absentWrite s 0xE000ED98#32 v
     else if s.cfg.nregions.val ≤ (rnrOfWord v).toNat then .refused .regionNumberOutOfRange
     else .next (answerWrite (s.select (rnrOfWord v)) 0xE000ED98#32))

end Sys2Proof.Machine
end

