-- ==== Sys2Proof/Machine/Reserved.lean ====
section
/-! DEFINITION. Accesses to the reserved addresses 0xE000EDBC to 0xE000EDEF, the table's three rows (R210, R211). -/

namespace Sys2Proof.Machine

/-- RESERVED 0xE000EDBC to 0xE000EDBF. -/
def execReservedEDBC (r : RegAccess) (op : RegOp) (s : State) : Out :=
  regGate s r (reservedAccess s 0xE000EDBC#32 op)

/-- RESERVED 0xE000EDC0 to 0xE000EDDF, the `index`-th word. -/
def execReservedEDC0 (r : RegAccess) (index : BitVec 3) (op : RegOp) (s : State) : Out :=
  regGate s r (reservedAccess s (0xE000EDC0#32 ||| placed index 2) op)

/-- RESERVED 0xE000EDE0 to 0xE000EDEF, the `index`-th word. -/
def execReservedEDE0 (r : RegAccess) (index : BitVec 2) (op : RegOp) (s : State) : Out :=
  regGate s r (reservedAccess s (0xE000EDE0#32 ||| placed index 2) op)

end Sys2Proof.Machine
end

