-- ==== Sys2Proof/Machine/Unprivileged.lean ====
section
/-! DEFINITION. The eight unprivileged load and store instructions (R230 to R239): each presents its address with
AccType_UNPRIV. The widths and signedness are PRESUMED from the mnemonics (G8), log 28. -/

namespace Sys2Proof.Machine

/-- LDRBT (R232): a byte, zero-extended. -/
def execLdrbt (p : ProcInputs) (address : Word) (s : State) : Out :=
  unprivLoad s p address .byte false

/-- LDRHT (R233): a halfword, zero-extended. -/
def execLdrht (p : ProcInputs) (address : Word) (s : State) : Out :=
  unprivLoad s p address .half false

/-- LDRSBT (R234): a byte, sign-extended. -/
def execLdrsbt (p : ProcInputs) (address : Word) (s : State) : Out :=
  unprivLoad s p address .byte true

/-- LDRSHT (R235): a halfword, sign-extended. -/
def execLdrsht (p : ProcInputs) (address : Word) (s : State) : Out :=
  unprivLoad s p address .half true

/-- LDRT (R236): a word. -/
def execLdrt (p : ProcInputs) (address : Word) (s : State) : Out :=
  unprivLoad s p address .word false

/-- STRBT (R237): a byte. -/
def execStrbt (p : ProcInputs) (address value : Word) (s : State) : Out :=
  unprivStore s p address .byte value

/-- STRHT (R238): a halfword. -/
def execStrht (p : ProcInputs) (address value : Word) (s : State) : Out :=
  unprivStore s p address .half value

/-- STRT (R239): a word. -/
def execStrt (p : ProcInputs) (address value : Word) (s : State) : Out :=
  unprivStore s p address .word value

end Sys2Proof.Machine
end

