-- ==== Sys2Proof/Machine/Dispatch.lean ====
section
/-! DEFINITION. One arm per operation of the table. -/

namespace Sys2Proof.Machine

def exec (i : Instr) (s : State) : Host.Outcome State Fault Refusal :=
  match i with
  | .readMpuType r => Sys2Proof.Machine.execReadMpuType r s
  | .writeMpuType r v => Sys2Proof.Machine.execWriteMpuType r v s
  | .readMpuCtrl r => Sys2Proof.Machine.execReadMpuCtrl r s
  | .writeMpuCtrl r v => Sys2Proof.Machine.execWriteMpuCtrl r v s
  | .readMpuRnr r => Sys2Proof.Machine.execReadMpuRnr r s
  | .writeMpuRnr r v => Sys2Proof.Machine.execWriteMpuRnr r v s
  | .readMpuRbar r => Sys2Proof.Machine.execReadMpuRbar r s
  | .writeMpuRbarValid0 r addr region => Sys2Proof.Machine.execWriteMpuRbarValid0 r addr region s
  | .writeMpuRbarValid1 r addr region => Sys2Proof.Machine.execWriteMpuRbarValid1 r addr region s
  | .readMpuRbarA1 r => Sys2Proof.Machine.execReadMpuRbarA1 r s
  | .writeMpuRbarA1Valid0 r addr region => Sys2Proof.Machine.execWriteMpuRbarA1Valid0 r addr region s
  | .writeMpuRbarA1Valid1 r addr region => Sys2Proof.Machine.execWriteMpuRbarA1Valid1 r addr region s
  | .readMpuRbarA2 r => Sys2Proof.Machine.execReadMpuRbarA2 r s
  | .writeMpuRbarA2Valid0 r addr region => Sys2Proof.Machine.execWriteMpuRbarA2Valid0 r addr region s
  | .writeMpuRbarA2Valid1 r addr region => Sys2Proof.Machine.execWriteMpuRbarA2Valid1 r addr region s
  | .readMpuRbarA3 r => Sys2Proof.Machine.execReadMpuRbarA3 r s
  | .writeMpuRbarA3Valid0 r addr region => Sys2Proof.Machine.execWriteMpuRbarA3Valid0 r addr region s
  | .writeMpuRbarA3Valid1 r addr region => Sys2Proof.Machine.execWriteMpuRbarA3Valid1 r addr region s
  | .readMpuRasr r => Sys2Proof.Machine.execReadMpuRasr r s
  | .writeMpuRasr r v => Sys2Proof.Machine.execWriteMpuRasr r v s
  | .readMpuRasrA1 r => Sys2Proof.Machine.execReadMpuRasrA1 r s
  | .writeMpuRasrA1 r v => Sys2Proof.Machine.execWriteMpuRasrA1 r v s
  | .readMpuRasrA2 r => Sys2Proof.Machine.execReadMpuRasrA2 r s
  | .writeMpuRasrA2 r v => Sys2Proof.Machine.execWriteMpuRasrA2 r v s
  | .readMpuRasrA3 r => Sys2Proof.Machine.execReadMpuRasrA3 r s
  | .writeMpuRasrA3 r v => Sys2Proof.Machine.execWriteMpuRasrA3 r v s
  | .reservedEDBC r op => Sys2Proof.Machine.execReservedEDBC r op s
  | .reservedEDC0 r index op => Sys2Proof.Machine.execReservedEDC0 r index op s
  | .reservedEDE0 r index op => Sys2Proof.Machine.execReservedEDE0 r index op s
  | .validateAddress p address acctype iswrite => Sys2Proof.Machine.execValidateAddress p address acctype iswrite s
  | .ldrbt p address => Sys2Proof.Machine.execLdrbt p address s
  | .ldrht p address => Sys2Proof.Machine.execLdrht p address s
  | .ldrsbt p address => Sys2Proof.Machine.execLdrsbt p address s
  | .ldrsht p address => Sys2Proof.Machine.execLdrsht p address s
  | .ldrt p address => Sys2Proof.Machine.execLdrt p address s
  | .strbt p address value => Sys2Proof.Machine.execStrbt p address value s
  | .strht p address value => Sys2Proof.Machine.execStrht p address value s
  | .strt p address value => Sys2Proof.Machine.execStrt p address value s

end Sys2Proof.Machine
end

