-- ==== Sys2Proof/Machine/Step.lean ====
section
/-! DEFINITION. One step: the oldest transaction the processor has presented is decoded and performed. The MPU has no
program counter (R50); the processor's transactions are its program, so `queue` is what a fetch reads (log 26). -/

namespace Sys2Proof.Machine

/-- One step. A locked-up machine makes none (R255, D11). With no transaction presented nothing happens: the MPU has no
step of its own (`00_scope.md` section 5). A packet that stands for no operation is refused by name. -/
def step (s : State) : Host.Outcome State Fault Refusal :=
  if s.lockedUp then .fault .lockup
  else
    match s.queue with
    | [] => .next s
    | packet :: rest =>
      match Sys2Proof.decode packet with
      | .error e => .refused (.undecodable e)
      | .ok i => exec i (s.setQueue rest)

/-- The processor presents the transaction whose words are `w` (the first word, the address, in bits 31:0; every bit
above `nbits` is 0) next: it stands at the head of the queue, before whatever was there. -/
def State.withFetchWord (s : State) (nbits w : Nat) : State :=
  s.setQueue (Sys2Proof.packetOfNat (w % 2 ^ nbits) :: s.queue)

end Sys2Proof.Machine
end

