-- ==== Sys2Proof/Safety.lean ====
section
/-! DEFINITION. The terms claims are stated in: the invariant of the machine, which accesses the default map or the
regions answer, the decision table of R148 written without the region loop, and the windows by alias number. Nothing
here is used by the machine. -/

namespace Sys2Proof.Machine

/-! ### Register accesses -/

/-- A defined access to the register block: privileged, one word, aligned (R190, R191). -/
def Proper (r : RegAccess) : Prop :=
  r.unpriv = false ∧ r.proc.findPriv = true ∧ r.size = .word ∧ r.lane = 0#2

/-- An unprivileged access: by an unprivileged load or store instruction, or by unprivileged software (R71). -/
def Unprivileged (r : RegAccess) : Prop := r.unpriv = true ∨ r.proc.findPriv = false

/-- The address of RBAR window `k`: 0 is MPU_RBAR, 1 to 3 its aliases (R91, R92). -/
def rbarAddress (k : Fin 4) : Word := 0xE000ED9C#32 + 8#32 * BitVec.ofNat 32 k.val

/-- The address of RASR window `k` (R91, R92). -/
def rasrAddress (k : Fin 4) : Word := 0xE000EDA0#32 + 8#32 * BitVec.ofNat 32 k.val

/-- READ of RBAR window `k`. -/
def rbarRead (k : Fin 4) (r : RegAccess) : Instr :=
  match k with
  | 0 => .readMpuRbar r
  | 1 => .readMpuRbarA1 r
  | 2 => .readMpuRbarA2 r
  | 3 => .readMpuRbarA3 r

/-- WRITE of RBAR window `k` with VALID = 0. -/
def rbarWriteValid0 (k : Fin 4) (r : RegAccess) (addr : BitVec 27) (region : BitVec 4) : Instr :=
  match k with
  | 0 => .writeMpuRbarValid0 r addr region
  | 1 => .writeMpuRbarA1Valid0 r addr region
  | 2 => .writeMpuRbarA2Valid0 r addr region
  | 3 => .writeMpuRbarA3Valid0 r addr region

/-- WRITE of RBAR window `k` with VALID = 1. -/
def rbarWriteValid1 (k : Fin 4) (r : RegAccess) (addr : BitVec 27) (region : BitVec 4) : Instr :=
  match k with
  | 0 => .writeMpuRbarValid1 r addr region
  | 1 => .writeMpuRbarA1Valid1 r addr region
  | 2 => .writeMpuRbarA2Valid1 r addr region
  | 3 => .writeMpuRbarA3Valid1 r addr region

/-- READ of RASR window `k`. -/
def rasrRead (k : Fin 4) (r : RegAccess) : Instr :=
  match k with
  | 0 => .readMpuRasr r
  | 1 => .readMpuRasrA1 r
  | 2 => .readMpuRasrA2 r
  | 3 => .readMpuRasrA3 r

/-- WRITE of RASR window `k`. -/
def rasrWrite (k : Fin 4) (r : RegAccess) (v : Word) : Instr :=
  match k with
  | 0 => .writeMpuRasr r v
  | 1 => .writeMpuRasrA1 r v
  | 2 => .writeMpuRasrA2 r v
  | 3 => .writeMpuRasrA3 r v

/-- The access of an operation that reads or writes the register block, with whether it is a write. -/
def regAccessOf : Instr → Option (RegAccess × Bool)
  | .readMpuType r => some (r, false)
  | .writeMpuType r _ => some (r, true)
  | .readMpuCtrl r => some (r, false)
  | .writeMpuCtrl r _ => some (r, true)
  | .readMpuRnr r => some (r, false)
  | .writeMpuRnr r _ => some (r, true)
  | .readMpuRbar r => some (r, false)
  | .writeMpuRbarValid0 r _ _ => some (r, true)
  | .writeMpuRbarValid1 r _ _ => some (r, true)
  | .readMpuRbarA1 r => some (r, false)
  | .writeMpuRbarA1Valid0 r _ _ => some (r, true)
  | .writeMpuRbarA1Valid1 r _ _ => some (r, true)
  | .readMpuRbarA2 r => some (r, false)
  | .writeMpuRbarA2Valid0 r _ _ => some (r, true)
  | .writeMpuRbarA2Valid1 r _ _ => some (r, true)
  | .readMpuRbarA3 r => some (r, false)
  | .writeMpuRbarA3Valid0 r _ _ => some (r, true)
  | .writeMpuRbarA3Valid1 r _ _ => some (r, true)
  | .readMpuRasr r => some (r, false)
  | .writeMpuRasr r _ => some (r, true)
  | .readMpuRasrA1 r => some (r, false)
  | .writeMpuRasrA1 r _ => some (r, true)
  | .readMpuRasrA2 r => some (r, false)
  | .writeMpuRasrA2 r _ => some (r, true)
  | .readMpuRasrA3 r => some (r, false)
  | .writeMpuRasrA3 r _ => some (r, true)
  | .reservedEDBC r .read => some (r, false)
  | .reservedEDBC r (.write _) => some (r, true)
  | .reservedEDC0 r _ .read => some (r, false)
  | .reservedEDC0 r _ (.write _) => some (r, true)
  | .reservedEDE0 r _ .read => some (r, false)
  | .reservedEDE0 r _ (.write _) => some (r, true)
  | .validateAddress _ _ _ _ => none
  | .ldrbt _ _ => none
  | .ldrht _ _ => none
  | .ldrsbt _ _ => none
  | .ldrsht _ _ => none
  | .ldrt _ _ => none
  | .strbt _ _ _ => none
  | .strht _ _ _ => none
  | .strt _ _ _ => none

/-- An unprivileged load or store instruction: its inputs, address, size, and whether it is a store. -/
def unprivAccessOf : Instr → Option (ProcInputs × Word × AccSize × Bool)
  | .ldrbt p a => some (p, a, .byte, false)
  | .ldrht p a => some (p, a, .half, false)
  | .ldrsbt p a => some (p, a, .byte, false)
  | .ldrsht p a => some (p, a, .half, false)
  | .ldrt p a => some (p, a, .word, false)
  | .strbt p a _ => some (p, a, .byte, true)
  | .strht p a _ => some (p, a, .half, true)
  | .strt p a _ => some (p, a, .word, true)
  | .readMpuType _ => none
  | .writeMpuType _ _ => none
  | .readMpuCtrl _ => none
  | .writeMpuCtrl _ _ => none
  | .readMpuRnr _ => none
  | .writeMpuRnr _ _ => none
  | .readMpuRbar _ => none
  | .writeMpuRbarValid0 _ _ _ => none
  | .writeMpuRbarValid1 _ _ _ => none
  | .readMpuRbarA1 _ => none
  | .writeMpuRbarA1Valid0 _ _ _ => none
  | .writeMpuRbarA1Valid1 _ _ _ => none
  | .readMpuRbarA2 _ => none
  | .writeMpuRbarA2Valid0 _ _ _ => none
  | .writeMpuRbarA2Valid1 _ _ _ => none
  | .readMpuRbarA3 _ => none
  | .writeMpuRbarA3Valid0 _ _ _ => none
  | .writeMpuRbarA3Valid1 _ _ _ => none
  | .readMpuRasr _ => none
  | .writeMpuRasr _ _ => none
  | .readMpuRasrA1 _ => none
  | .writeMpuRasrA1 _ _ => none
  | .readMpuRasrA2 _ => none
  | .writeMpuRasrA2 _ _ => none
  | .readMpuRasrA3 _ => none
  | .writeMpuRasrA3 _ _ => none
  | .reservedEDBC _ _ => none
  | .reservedEDC0 _ _ _ => none
  | .reservedEDE0 _ _ _ => none
  | .validateAddress _ _ _ _ => none

/-- The state after an answered read or write of the register at `a`: nothing but the answer has changed. -/
def State.answered (s : State) (a : Word) (value : Option Word) : State :=
  { s with reply := .ok [{ physicaladdress := a, memattrs := Config.defaultMemAttrs a }] value }

/-! ### The invariant -/

/-- What every step keeps: one register pair for each region (R20), a written RNR.REGION names a region (R31), ADDR
bits below a region's minimum size are 0 (R37), without an MPU the control bits are 0 (R30), and the memory is in its
canonical form. -/
structure State.Inv (s : State) : Prop where
  oneEntryPerRegion : s.regions.length = s.cfg.nregions.val
  selectedRegionExists : s.rnrWritten = true → s.rnr.toNat < s.cfg.nregions.val
  lowAddrBitsZero : ∀ (r : Nat) (g : Region), s.regions[r]? = some g → ∀ k, k < s.cfg.trailing r → g.addr.getLsbD k = false
  noMpuNoControl : s.cfg.nregions.val = 0 →
    s.ctrl.enable = false ∧ s.ctrl.hfnmiena = false ∧ s.ctrl.privdefena = false
  memoryCanonical : s.mem.wf

/-- Every enabled region has a SIZE its base register supports (R214). -/
def State.EnabledSizesSupported (s : State) : Prop :=
  ∀ (r : Nat) (g : Region), s.regions[r]? = some g → g.rasr.enable = true → s.cfg.minLog2 r ≤ g.rasr.size.toNat + 1

/-! ### Which map answers an access -/

/-- On the Private Peripheral Bus (R63, R124). -/
def OnPPB (a : Word) : Prop := 0xE0000000 ≤ a.toNat ∧ a.toNat ≤ 0xE00FFFFF

/-- The MPU is off for the access whatever its address: disabled, or in a handler below priority 0 with HFNMIENA 0
(R126, R128). -/
def State.MpuOff (s : State) (p : ProcInputs) : Prop :=
  s.ctrl.hfnmiena = false ∧ (s.ctrl.enable = false ∨ p.prioBelowZero = true)

/-- The regions answer accesses (R129): the MPU is enabled, and the execution priority is not below 0 or HFNMIENA is
1. -/
def State.MpuOn (s : State) (p : ProcInputs) : Prop :=
  s.ctrl.enable = true ∧ (s.ctrl.hfnmiena = true ∨ p.prioBelowZero = false)

/-- The execute-never ranges of the default map (R123). -/
def DefaultExecuteNever (a : Word) : Prop :=
  (0x40000000 ≤ a.toNat ∧ a.toNat ≤ 0x5FFFFFFF) ∨ 0xA0000000 ≤ a.toNat

/-- The verdict of the default map: only a fetch from an execute-never range fails (R142 to R144). -/
def ByDefaultMap (a : Word) (acctype : AccType) (v : Verdict) : Prop :=
  (acctype = .ifetch ∧ DefaultExecuteNever a → v = .violation a) ∧
  (¬ (acctype = .ifetch ∧ DefaultExecuteNever a) →
    v = .ok [{ physicaladdress := a, memattrs := Config.defaultMemAttrs a }])

/-! ### The decision table of R148, rows 4a to 4d -/

/-- An enabled region with SIZE below 4, or with SIZE below 7 and a subregion disabled (R132). -/
def IllegalRegion (g : Region) : Prop :=
  g.rasr.enable = true ∧ (g.rasr.size.toNat < 4 ∨ (g.rasr.size.toNat < 7 ∧ g.rasr.srd ≠ 0#8))

/-- The first address of a region: its written base rounded down to its size (R73, R133). -/
def Region.start (g : Region) : Nat :=
  32 * g.addr.toNat / 2 ^ (g.rasr.size.toNat + 1) * 2 ^ (g.rasr.size.toNat + 1)

/-- The address lies in the aligned block the region stands for (R133). -/
def InRegion (g : Region) (a : Word) : Prop :=
  g.start ≤ a.toNat ∧ a.toNat < g.start + 2 ^ (g.rasr.size.toNat + 1)

/-- The number of the eighth of the region the address lies in (R100). -/
def Region.eighth (g : Region) (a : Word) : Nat := (a.toNat - g.start) / (2 ^ (g.rasr.size.toNat + 1) / 8)

/-- An enabled region with an enabled subregion contains the address (R131, R133, R134). A region of 32, 64 or 128
bytes has no subregions. -/
def Contains (g : Region) (a : Word) : Prop :=
  g.rasr.enable = true ∧ InRegion g a ∧
    (7 ≤ g.rasr.size.toNat → g.rasr.srd.getLsbD (g.eighth a) = false)

/-- `g` is the highest-numbered region that contains the address (R130). -/
def State.Winner (s : State) (a : Word) (g : Region) : Prop :=
  ∃ r : Nat, s.regions[r]? = some g ∧ Contains g a ∧ ∀ (q : Nat) (h : Region), r < q → s.regions[q]? = some h → ¬ Contains h a

/-- No region contains the address. -/
def State.Unmapped (s : State) (a : Word) : Prop := ∀ g ∈ s.regions, ¬ Contains g a

/-- No enabled region is illegal. -/
def State.RegionsLegal (s : State) : Prop := ∀ g ∈ s.regions, ¬ IllegalRegion g

/-- Table B3-15 (R177 to R180, R182 to R184) for an AP that is not 100. -/
def AllowedBy (ap : BitVec 3) (priv iswrite : Bool) : Prop :=
  (ap.toNat = 1 ∧ priv = true) ∨
  (ap.toNat = 2 ∧ (priv = true ∨ iswrite = false)) ∨
  ap.toNat = 3 ∨
  (ap.toNat = 5 ∧ priv = true ∧ iswrite = false) ∨
  ((ap.toNat = 6 ∨ ap.toNat = 7) ∧ iswrite = false)

/-- A region's permissions allow the access: by AP, and for a fetch only where XN is 0 outside System space
(R136, R185, R186). -/
def RegionAllows (g : Region) (a : Word) (priv : Bool) (acctype : AccType) (iswrite : Bool) : Prop :=
  AllowedBy g.rasr.ap priv iswrite ∧ (acctype = .ifetch → g.rasr.xn = false ∧ a.toNat < 0xE0000000)

/-- An access is privileged: the processor is, and it is not an unprivileged load or store instruction's (R121). -/
def PrivilegedAccess (p : ProcInputs) (acctype : AccType) : Prop := p.findPriv = true ∧ acctype ≠ .unpriv

/-- What the regions make of one access with AccType_UNPRIV (R230, R231): no background region, and the unprivileged
column of Table B3-15. -/
structure UnprivilegedByRegions (s : State) (a : Word) (iswrite : Bool) (v : Verdict) : Prop where
  unmapped : s.Unmapped a → v = .violation a
  allowed : ∀ g m, s.Winner a g → texDecode s.cfg g.rasr.texcb g.rasr.s = .ok m → g.rasr.ap ≠ 4#3 →
    AllowedBy g.rasr.ap false iswrite → v = .ok [{ physicaladdress := a, memattrs := m }]
  forbidden : ∀ g m, s.Winner a g → texDecode s.cfg g.rasr.texcb g.rasr.s = .ok m → g.rasr.ap ≠ 4#3 →
    ¬ AllowedBy g.rasr.ap false iswrite → v = .violation a

/-! ### Accesses of several bytes, and failed accesses -/

/-- An access of `n` bytes that no boundary of the MPU can cut (R74): naturally aligned, of 1, 2, 4, 8, 16 or 32
bytes. -/
def NaturallyAligned (a : Word) (n : Nat) : Prop := (∃ j, j ≤ 5 ∧ n = 2 ^ j) ∧ a.toNat % n = 0

/-- The state after an access that fails at address `b`: the syndrome (R251, R252), the answer MemManage, or below
priority 0 lockup (R255), and nothing else. -/
def State.afterViolation (s : State) (p : ProcInputs) (k : AccType) (b : Word) : State :=
  { s with
    mmfsr := if k = .ifetch then { s.mmfsr with iaccviol := true, mmarvalid := false }
             else { s.mmfsr with daccviol := true, mmarvalid := true }
    mmar := if k = .ifetch then s.mmar else b
    lockedUp := s.lockedUp || p.prioBelowZero
    reply := if p.prioBelowZero then .lockup else .memManage }

/-! ### Unprivileged loads and stores -/

/-- Byte `k` of an access at `a`. -/
def byteAddr (a : Word) (k : Nat) : Word := a + BitVec.ofNat 32 k

/-- Some byte of the access lies in the register block, 0xE000ED90 to 0xE000EDEF. -/
def TouchesBlock (a : Word) (n : Nat) : Prop :=
  ∃ k, k < n ∧ 0xE000ED90 ≤ (byteAddr a k).toNat ∧ (byteAddr a k).toNat ≤ 0xE000EDEF

/-- Some byte of the access lies on the PPB. -/
def TouchesPPB (a : Word) (n : Nat) : Prop := ∃ k, k < n ∧ OnPPB (byteAddr a k)

/-- The default map answers every byte of the access: the MPU is off for it, or all of it lies on the PPB. -/
def State.DefaultMapAnswers (s : State) (p : ProcInputs) (a : Word) (n : Nat) : Prop :=
  s.MpuOff p ∨ ∀ k, k < n → OnPPB (byteAddr a k)

/-- The byte of memory at offset `k` of an access. -/
def State.byteAt (s : State) (a : Word) (k : Nat) : Byte := s.mem.read (byteAddr a k).toNat

/-- The halfword of memory at an address, in the memory's byte order (R69). -/
def State.halfAt (s : State) (a : Word) : BitVec 16 :=
  if s.cfg.dataBigEndian then s.byteAt a 0 ++ s.byteAt a 1 else s.byteAt a 1 ++ s.byteAt a 0

/-- The word of memory at an address, in the memory's byte order (R69). -/
def State.wordAt (s : State) (a : Word) : BitVec 32 :=
  if s.cfg.dataBigEndian then s.byteAt a 0 ++ s.byteAt a 1 ++ s.byteAt a 2 ++ s.byteAt a 3
  else s.byteAt a 3 ++ s.byteAt a 2 ++ s.byteAt a 1 ++ s.byteAt a 0

/-- The region that wins the address lets unprivileged software make the access, and gives it these attributes. -/
def State.UnprivilegedIn (s : State) (a : Word) (iswrite : Bool) (m : MemAttrs) : Prop :=
  ∃ g, s.Winner a g ∧ texDecode s.cfg g.rasr.texcb g.rasr.s = .ok m ∧ g.rasr.ap ≠ 4#3 ∧ AllowedBy g.rasr.ap false iswrite

/-- What each unprivileged load gives when the memory answers it (log 28); the other operations load nothing. -/
def State.loaded (s : State) : Instr → Word
  | .ldrbt _ a => (s.byteAt a 0).zeroExtend 32
  | .ldrht _ a => (s.halfAt a).zeroExtend 32
  | .ldrsbt _ a => (s.byteAt a 0).signExtend 32
  | .ldrsht _ a => (s.halfAt a).signExtend 32
  | .ldrt _ a => s.wordAt a
  | .strbt _ _ _ => 0#32
  | .strht _ _ _ => 0#32
  | .strt _ _ _ => 0#32
  | .readMpuType _ => 0#32
  | .writeMpuType _ _ => 0#32
  | .readMpuCtrl _ => 0#32
  | .writeMpuCtrl _ _ => 0#32
  | .readMpuRnr _ => 0#32
  | .writeMpuRnr _ _ => 0#32
  | .readMpuRbar _ => 0#32
  | .writeMpuRbarValid0 _ _ _ => 0#32
  | .writeMpuRbarValid1 _ _ _ => 0#32
  | .readMpuRbarA1 _ => 0#32
  | .writeMpuRbarA1Valid0 _ _ _ => 0#32
  | .writeMpuRbarA1Valid1 _ _ _ => 0#32
  | .readMpuRbarA2 _ => 0#32
  | .writeMpuRbarA2Valid0 _ _ _ => 0#32
  | .writeMpuRbarA2Valid1 _ _ _ => 0#32
  | .readMpuRbarA3 _ => 0#32
  | .writeMpuRbarA3Valid0 _ _ _ => 0#32
  | .writeMpuRbarA3Valid1 _ _ _ => 0#32
  | .readMpuRasr _ => 0#32
  | .writeMpuRasr _ _ => 0#32
  | .readMpuRasrA1 _ => 0#32
  | .writeMpuRasrA1 _ _ => 0#32
  | .readMpuRasrA2 _ => 0#32
  | .writeMpuRasrA2 _ _ => 0#32
  | .readMpuRasrA3 _ => 0#32
  | .writeMpuRasrA3 _ _ => 0#32
  | .reservedEDBC _ _ => 0#32
  | .reservedEDC0 _ _ _ => 0#32
  | .reservedEDE0 _ _ _ => 0#32
  | .validateAddress _ _ _ _ => 0#32

/-- The value each unprivileged store carries; the other operations store nothing. -/
def storedValue : Instr → Word
  | .strbt _ _ v => v
  | .strht _ _ v => v
  | .strt _ _ v => v
  | .ldrbt _ _ => 0#32
  | .ldrht _ _ => 0#32
  | .ldrsbt _ _ => 0#32
  | .ldrsht _ _ => 0#32
  | .ldrt _ _ => 0#32
  | .readMpuType _ => 0#32
  | .writeMpuType _ _ => 0#32
  | .readMpuCtrl _ => 0#32
  | .writeMpuCtrl _ _ => 0#32
  | .readMpuRnr _ => 0#32
  | .writeMpuRnr _ _ => 0#32
  | .readMpuRbar _ => 0#32
  | .writeMpuRbarValid0 _ _ _ => 0#32
  | .writeMpuRbarValid1 _ _ _ => 0#32
  | .readMpuRbarA1 _ => 0#32
  | .writeMpuRbarA1Valid0 _ _ _ => 0#32
  | .writeMpuRbarA1Valid1 _ _ _ => 0#32
  | .readMpuRbarA2 _ => 0#32
  | .writeMpuRbarA2Valid0 _ _ _ => 0#32
  | .writeMpuRbarA2Valid1 _ _ _ => 0#32
  | .readMpuRbarA3 _ => 0#32
  | .writeMpuRbarA3Valid0 _ _ _ => 0#32
  | .writeMpuRbarA3Valid1 _ _ _ => 0#32
  | .readMpuRasr _ => 0#32
  | .writeMpuRasr _ _ => 0#32
  | .readMpuRasrA1 _ => 0#32
  | .writeMpuRasrA1 _ _ => 0#32
  | .readMpuRasrA2 _ => 0#32
  | .writeMpuRasrA2 _ _ => 0#32
  | .readMpuRasrA3 _ => 0#32
  | .writeMpuRasrA3 _ _ => 0#32
  | .reservedEDBC _ _ => 0#32
  | .reservedEDC0 _ _ _ => 0#32
  | .reservedEDE0 _ _ _ => 0#32
  | .validateAddress _ _ _ _ => 0#32

/-- The byte a store of an `n`-byte value puts at offset `k`, in the memory's byte order (R69): the low byte of the
value at the lowest address when it is little. -/
def State.storedByte (s : State) (n : Nat) (v : Word) (k : Nat) : Byte :=
  if s.cfg.dataBigEndian then v.extractLsb' (8 * (n - 1 - k)) 8 else v.extractLsb' (8 * k) 8

/-- `m` is the memory of `s` after a store of `n` bytes at `a`: every byte of the access that is not on the PPB is the
value's, and every other address reads as before. -/
def State.StoredAs (s : State) (a : Word) (n : Nat) (v : Word) (m : Memory) : Prop :=
  (∀ k, k < n → ¬ OnPPB (byteAddr a k) → m.read (byteAddr a k).toNat = s.storedByte n v k) ∧
  (∀ x, (∀ k, k < n → ¬ OnPPB (byteAddr a k) → x ≠ (byteAddr a k).toNat) → m.read x = s.mem.read x)

end Sys2Proof.Machine
end

