-- ==== Sys2Proof/Certificates/Slice0/Obligations.lean ====
section
/-! DEFINITION. The statements for the provers, each `def Obligations.<Name> : Prop`. The docstring of each names the
rule or section of the spec it formalises; where a clause rests on a decision of the spec or a choice of the model it
says so and names the log entry. -/

open Sys2Proof Sys2Proof.Machine

/-! ### Encoding and decoding -/

/-- Decoding the encoding of a well-formed operation gives it back, every operand at every value (R90 to R97; the
qualifier layout is the model's, log 25). -/
def Obligations.DecodeOfEncodeIsTheOperation : Prop :=
  ∀ i : Instr, i.wf = true → decode (encode i) = .ok i

/-- Whatever packet decodes gives a well-formed operation: no fetch or vector read is a write (R186; log 25). -/
def Obligations.DecodedOperationsAreWellFormed : Prop :=
  ∀ (packet : Packet) (i : Instr), decode packet = .ok i → i.wf = true

/-- Packets written out from the address map (R91, R92) and the formats (R96) decode to the operations they stand
for. -/
def Obligations.WrittenOutPacketsDecodeRight : Prop :=
  let r : RegAccess := { proc := { findPriv := true, prioBelowZero := false }, unpriv := false, size := .word, lane := 0#2 }
  decode { address := 0xE000ED90#32, qualifier := 0#32, data := 0#32 } = .ok (.readMpuType r) ∧
  decode { address := 0xE000ED94#32, qualifier := 1#32, data := 5#32 } = .ok (.writeMpuCtrl r 5#32) ∧
  decode { address := 0xE000ED9C#32, qualifier := 1#32, data := 0x20000013#32 } =
    .ok (.writeMpuRbarValid1 r 0x1000000#27 3#4) ∧
  decode { address := 0xE000EDB4#32, qualifier := 1#32, data := 0x20020000#32 } =
    .ok (.writeMpuRbarA3Valid0 r 0x1001000#27 0#4) ∧
  decode { address := 0xE000EDA8#32, qualifier := 1#32, data := 0x0300001F#32 } = .ok (.writeMpuRasrA1 r 0x0300001F#32) ∧
  decode { address := 0xE000EDBC#32, qualifier := 0#32, data := 0#32 } = .ok (.reservedEDBC r .read) ∧
  decode { address := 0x20000000#32, qualifier := 0x99#32, data := 0#32 } =
    .ok (.validateAddress r.proc ⟨0x20000000#32, 0#32⟩ .unpriv true) ∧
  decode { address := 0x20000002#32, qualifier := 0x80#32, data := 3#32 } =
    .ok (.validateAddress r.proc ⟨0x20000002#32, 3#32⟩ .normal false) ∧
  decode { address := 0x20000010#32, qualifier := 0x300#32, data := 0#32 } = .ok (.ldrt r.proc 0x20000010#32)

/-! ### Reset -/

/-- After reset, whatever the parameters and whatever values the UNKNOWN registers hold, MPU_CTRL is 0x00000000, a read
of it gives that, and every access is answered by the default memory map (R51). -/
def Obligations.ResetLeavesTheMpuDisabled : Prop :=
  ∀ (c : Config) (d : ResetDraw),
    (State.resetWith c d).ctrl = { privdefena := false, hfnmiena := false, enable := false } ∧
    (∀ r, Proper r → exec (.readMpuCtrl r) (State.resetWith c d) =
      .next ((State.resetWith c d).answered 0xE000ED94#32 (some 0#32))) ∧
    (∀ p a t w, ByDefaultMap a t (validateAddress (State.resetWith c d) p a t w))

/-- The model's choice: the reset state with the values the model names for what the spec leaves UNKNOWN (logs 1, 2 and
5 to 8) meets the invariant, and no enabled region has an unsupported SIZE. -/
def Obligations.ResetMeetsTheInvariant : Prop :=
  State.reset.Inv ∧ State.reset.EnabledSizesSupported

/-! ### Steps -/

/-- A step performs the oldest transaction presented, is idle when there is none, and refuses by name a packet that
stands for no operation (the model's interface: log 26). -/
def Obligations.StepPerformsTheOldestTransaction : Prop :=
  ∀ s : State, s.lockedUp = false →
    (∀ packet rest i, s.queue = packet :: rest → decode packet = .ok i → step s = exec i { s with queue := rest }) ∧
    (∀ packet rest e, s.queue = packet :: rest → decode packet = .error e → step s = .refused (.undecodable e)) ∧
    (s.queue = [] → step s = .next s)

/-- Lockup is terminal (the spec's decision D11 on R255, log 16): an operation that locks the processor up answers
`lockup`, nothing else does, and no step follows it. -/
def Obligations.LockupIsTerminal : Prop :=
  (∀ s : State, s.lockedUp = true → step s = .fault .lockup) ∧
  (∀ (i : Instr) (s t : State), s.lockedUp = false → exec i s = .next t →
    (t.lockedUp = true ↔ t.reply = .lockup))

/-- Every step keeps the invariant: one register pair for each region (R20), a written RNR.REGION names a region
(R31), the fixed low bits of ADDR stay 0 (R37), without an MPU the control bits stay 0 (R30), the memory stays in its
canonical form; and no step changes the parameters. -/
def Obligations.StepKeepsTheInvariant : Prop :=
  ∀ s t : State, s.Inv → step s = .next t → t.Inv ∧ t.cfg = s.cfg

/-- No step gives an enabled region a SIZE below its minimum, so a reserved SIZE is met only in a value left from reset
(derived in R214 from the refusal of such writes, log 14). -/
def Obligations.StepKeepsEnabledSizesSupported : Prop :=
  ∀ s t : State, s.EnabledSizesSupported → step s = .next t → t.EnabledSizesSupported

/-- Once set, MMFSR.IACCVIOL and MMFSR.DACCVIOL stay set through every step (R257, the spec's decision D23, log 23). -/
def Obligations.ViolationBitsStaySet : Prop :=
  ∀ s t : State, step s = .next t →
    (s.mmfsr.iaccviol = true → t.mmfsr.iaccviol = true) ∧ (s.mmfsr.daccviol = true → t.mmfsr.daccviol = true)

/-- Only a privileged aligned word write to the register block changes MPU_CTRL, RNR.REGION or a region: no read (R76),
no check (R120), no unprivileged access (R190). -/
def Obligations.OnlyProperWritesChangeTheMpu : Prop :=
  ∀ (i : Instr) (s t : State), exec i s = .next t →
    (t.ctrl ≠ s.ctrl ∨ t.rnr ≠ s.rnr ∨ t.regions ≠ s.regions) → ∃ r, regAccessOf i = some (r, true) ∧ Proper r

/-- Memory changes only at the bytes of an unprivileged store: no check, load, register access or failed access changes
a byte (R76, R250; the memory behind the MPU is the model's, log 27, a check of an ordinary write among what leaves it
alone, log 43; a store that runs over 0xFFFFFFFF writes on at 0, log 31). -/
def Obligations.OnlyStoresChangeMemory : Prop :=
  ∀ (i : Instr) (s t : State), s.mem.wf → exec i s = .next t → ∀ x, t.mem.read x ≠ s.mem.read x →
    ∃ p a size, unprivAccessOf i = some (p, a, size, true) ∧ ∃ k, k < bytesOf size ∧ x = (byteAddr a k).toNat

/-! ### Register accesses: what every one of them checks -/

/-- An unprivileged access to an MPU register raises BusFault and changes nothing: a read gives no value and a write
changes no register; and a call of ValidateAddress never raises it (R253). -/
def Obligations.UnprivilegedRegisterAccessRaisesBusFault : Prop :=
  (∀ (s : State) (r : RegAccess) (v : Word) (addr : BitVec 27) (region : BitVec 4) (k : Fin 4), Unprivileged r →
    exec (.readMpuType r) s = .next { s with reply := .busFault } ∧
    exec (.writeMpuType r v) s = .next { s with reply := .busFault } ∧
    exec (.readMpuCtrl r) s = .next { s with reply := .busFault } ∧
    exec (.writeMpuCtrl r v) s = .next { s with reply := .busFault } ∧
    exec (.readMpuRnr r) s = .next { s with reply := .busFault } ∧
    exec (.writeMpuRnr r v) s = .next { s with reply := .busFault } ∧
    exec (rbarRead k r) s = .next { s with reply := .busFault } ∧
    exec (rbarWriteValid0 k r addr region) s = .next { s with reply := .busFault } ∧
    exec (rbarWriteValid1 k r addr region) s = .next { s with reply := .busFault } ∧
    exec (rasrRead k r) s = .next { s with reply := .busFault } ∧
    exec (rasrWrite k r v) s = .next { s with reply := .busFault }) ∧
  (∀ (s t : State) (p : ProcInputs) (a : Word) (k : AccType) (w : Bool) (more : Word),
    exec (.validateAddress p ⟨a, more⟩ k w) s = .next t → t.reply ≠ .busFault)

/-- An unprivileged load or store instruction that touches the register block raises BusFault, whoever executes it, and
changes nothing; nothing else raises it but an unprivileged register access (derived in R230). That the reserved range
0xE000EDBC to 0xE000EDEF counts is the spec's decision D19 (R190, log 20), and that a partial overlap counts is the
model's choice, log 32. -/
def Obligations.UnprivilegedInstructionOnTheBlockRaisesBusFault : Prop :=
  (∀ (i : Instr) (s : State) (p : ProcInputs) (a : Word) (size : AccSize) (w : Bool),
    unprivAccessOf i = some (p, a, size, w) → TouchesBlock a (bytesOf size) →
    exec i s = .next { s with reply := .busFault }) ∧
  (∀ (i : Instr) (s t : State), exec i s = .next t → t.reply = .busFault →
    (∃ r w, regAccessOf i = some (r, w) ∧ Unprivileged r) ∨
    (∃ p a size w, unprivAccessOf i = some (p, a, size, w) ∧ TouchesBlock a (bytesOf size)))

/-- A privileged access to the block that is not one aligned word is refused by name, and privilege comes first (R191;
the refusal is the spec's decision D4 and D24, log 24). -/
def Obligations.MisshapenRegisterAccessIsRefused : Prop :=
  ∀ (i : Instr) (s : State) (r : RegAccess) (w : Bool), regAccessOf i = some (r, w) → ¬ Unprivileged r →
    (r.size ≠ .word → exec i s = .refused .registerAccessWidth) ∧
    (r.size = .word → r.lane ≠ 0#2 → exec i s = .refused .registerAccessUnaligned)

/-! ### MPU_TYPE, MPU_CTRL, MPU_RNR -/

/-- READ MPU_TYPE gives NREGIONS in DREGION and zero in IREGION and SEPARATE, with or without an MPU, and changes
nothing the spec names (`draws`, the model's own counter of free values, advances: log 9); unprivileged it raises
BusFault (R193). -/
def Obligations.ReadMpuTypeGivesTheRegionCount : Prop :=
  ∀ (s : State) (r : RegAccess),
    (Unprivileged r → exec (.readMpuType r) s = .next { s with reply := .busFault }) ∧
    (Proper r → ∃ v : Word,
      exec (.readMpuType r) s = .next (({ s with draws := s.draws + 1 } : State).answered 0xE000ED90#32 (some v)) ∧
      v.extractLsb' 16 8 = 0#8 ∧ (v.extractLsb' 8 8).toNat = s.cfg.nregions.val ∧ v.getLsbD 0 = false)

/-- WRITE MPU_TYPE changes no register: it is ignored when the parameter RO_WRITE_IGNORED is set and refused otherwise
(the spec's decision D7, log 13). -/
def Obligations.WriteMpuTypeIsIgnoredOrRefused : Prop :=
  ∀ (s : State) (r : RegAccess) (v : Word), Proper r →
    (s.cfg.roWriteIgnored = true → exec (.writeMpuType r v) s = .next (s.answered 0xE000ED90#32 none)) ∧
    (s.cfg.roWriteIgnored = false → exec (.writeMpuType r v) s = .refused .readOnlyWrite)

/-- READ MPU_CTRL gives the three control bits and changes nothing; the reserved bits read 0 before the first write
since reset and are a free value after it (the spec's decision D6, logs 9 and 38); without an MPU it reads zero. -/
def Obligations.ReadMpuCtrlGivesTheControlBits : Prop :=
  ∀ (s : State) (r : RegAccess), Proper r →
    (s.cfg.nregions.val = 0 → exec (.readMpuCtrl r) s = .next (s.answered 0xE000ED94#32 (some 0#32))) ∧
    (s.cfg.nregions.val ≠ 0 → ∃ (v : Word) (d : Nat),
      exec (.readMpuCtrl r) s = .next (({ s with draws := d } : State).answered 0xE000ED94#32 (some v)) ∧
      v.getLsbD 2 = s.ctrl.privdefena ∧ v.getLsbD 1 = s.ctrl.hfnmiena ∧ v.getLsbD 0 = s.ctrl.enable ∧
      (s.ctrlWritten = false → v.extractLsb' 3 29 = 0#29 ∧ d = s.draws) ∧
      (s.ctrlWritten = true → d = s.draws + 1))

/-- WRITE MPU_CTRL stores bits 2, 1 and 0, every combination of them, and ignores the rest; unprivileged it raises
BusFault (R196). `ctrlWritten` is the model's record of R29's "before any write", log 38. -/
def Obligations.WriteMpuCtrlStoresTheControlBits : Prop :=
  ∀ (s : State) (r : RegAccess) (v : Word),
    (Unprivileged r → exec (.writeMpuCtrl r v) s = .next { s with reply := .busFault }) ∧
    (Proper r → s.cfg.nregions.val ≠ 0 →
      exec (.writeMpuCtrl r v) s =
        .next (({ s with
          ctrl := { privdefena := v.getLsbD 2, hfnmiena := v.getLsbD 1, enable := v.getLsbD 0 }
          ctrlWritten := true } : State).answered 0xE000ED94#32 none))

/-- READ MPU_RNR gives RNR.REGION in bits 7:0 and changes nothing the spec names (`draws`, the model's own counter of
free values, advances: log 9); unprivileged it raises BusFault (R197). -/
def Obligations.ReadMpuRnrGivesTheRegionNumber : Prop :=
  ∀ (s : State) (r : RegAccess),
    (Unprivileged r → exec (.readMpuRnr r) s = .next { s with reply := .busFault }) ∧
    (Proper r → s.cfg.nregions.val ≠ 0 → ∃ v : Word,
      exec (.readMpuRnr r) s = .next (({ s with draws := s.draws + 1 } : State).answered 0xE000ED98#32 (some v)) ∧
      v.extractLsb' 0 8 = s.rnr)

/-- WRITE MPU_RNR selects the region of bits 7:0 and ignores the rest; a region that does not exist is refused (the
spec's decision D4, log 11); unprivileged it raises BusFault (R198). -/
def Obligations.WriteMpuRnrSelectsARegion : Prop :=
  ∀ (s : State) (r : RegAccess) (v : Word),
    (Unprivileged r → exec (.writeMpuRnr r v) s = .next { s with reply := .busFault }) ∧
    (Proper r → s.cfg.nregions.val ≠ 0 → s.cfg.nregions.val ≤ (v.extractLsb' 0 8).toNat →
      exec (.writeMpuRnr r v) s = .refused .regionNumberOutOfRange) ∧
    (Proper r → (v.extractLsb' 0 8).toNat < s.cfg.nregions.val →
      exec (.writeMpuRnr r v) s =
        .next (({ s with rnr := v.extractLsb' 0 8, rnrWritten := true } : State).answered 0xE000ED98#32 none))

/-! ### The RBAR and RASR windows -/

/-- READ of MPU_RBAR, _A1, _A2 and _A3 gives the selected region's ADDR in bits 31:5, with the bits below its minimum
size 0, VALID as zero, and the low four bits of RNR.REGION (`42_register_interface.md` sections 5 and 7). -/
def Obligations.ReadRbarWindowsGiveTheBaseAddress : Prop :=
  ∀ (s : State) (r : RegAccess) (k : Fin 4) (g : Region), Proper r → s.cfg.nregions.val ≠ 0 →
    s.rnrWritten = true → s.regions[s.rnr.toNat]? = some g → ∃ v : Word,
      exec (rbarRead k r) s = .next (s.answered (rbarAddress k) (some v)) ∧
      v.extractLsb' 5 27 = g.addr ∧ v.getLsbD 4 = false ∧ v.extractLsb' 0 4 = s.rnr.extractLsb' 0 4 ∧
      (s.Inv → ∀ j, j < s.cfg.trailing s.rnr.toNat → v.getLsbD (5 + j) = false)

/-- WRITE of MPU_RBAR, _A1, _A2 and _A3 with VALID = 0 sets the selected region's ADDR, the bits below its minimum size
forced to 0, ignores REGION and leaves RNR and everything else (`42_register_interface.md` sections 5 and 7). -/
def Obligations.WriteRbarWindowsValid0SetTheSelectedBase : Prop :=
  ∀ (s : State) (r : RegAccess) (k : Fin 4) (addr : BitVec 27) (region : BitVec 4) (g : Region), Proper r →
    s.cfg.nregions.val ≠ 0 → s.rnrWritten = true → s.regions[s.rnr.toNat]? = some g → ∃ stored : BitVec 27,
      (∀ j, stored.getLsbD j = (decide (s.cfg.trailing s.rnr.toNat ≤ j) && addr.getLsbD j)) ∧
      exec (rbarWriteValid0 k r addr region) s =
        .next (({ s with regions := s.regions.set s.rnr.toNat { g with addr := stored } } : State).answered
          (rbarAddress k) none)

/-- WRITE of MPU_RBAR, _A1, _A2 and _A3 with VALID = 1 sets RNR.REGION to REGION zero-extended and that region's ADDR,
the bits below its minimum size forced to 0, whatever RNR held; a region that does not exist is refused (the spec's
decision D4, log 11); unprivileged it raises BusFault (R201, and R204, R206, R208 for the aliases). -/
def Obligations.WriteRbarWindowsValid1SelectAndSetTheBase : Prop :=
  ∀ (s : State) (r : RegAccess) (k : Fin 4) (addr : BitVec 27) (region : BitVec 4),
    (Unprivileged r → exec (rbarWriteValid1 k r addr region) s = .next { s with reply := .busFault }) ∧
    (Proper r → s.cfg.nregions.val ≠ 0 → s.cfg.nregions.val < 16 → s.cfg.nregions.val ≤ region.toNat →
      exec (rbarWriteValid1 k r addr region) s = .refused .rbarRegionOutOfRange) ∧
    (∀ g, Proper r → region.toNat < s.cfg.nregions.val → s.regions[region.toNat]? = some g → ∃ stored : BitVec 27,
      (∀ j, stored.getLsbD j = (decide (s.cfg.trailing region.toNat ≤ j) && addr.getLsbD j)) ∧
      exec (rbarWriteValid1 k r addr region) s =
        .next (({ s with
          rnr := region.zeroExtend 8
          rnrWritten := true
          regions := s.regions.set region.toNat { g with addr := stored } } : State).answered (rbarAddress k) none))

/-- READ of MPU_RASR, _A1, _A2 and _A3 gives the selected region's fields at their places and changes nothing; the
reserved and unnamed bits are a free value (`42_register_interface.md` sections 6 and 7; the spec's decision D6,
log 9). -/
def Obligations.ReadRasrWindowsGiveTheAttributes : Prop :=
  ∀ (s : State) (r : RegAccess) (k : Fin 4) (g : Region), Proper r → s.cfg.nregions.val ≠ 0 →
    s.rnrWritten = true → s.regions[s.rnr.toNat]? = some g → ∃ v : Word,
      exec (rasrRead k r) s = .next (({ s with draws := s.draws + 1 } : State).answered (rasrAddress k) (some v)) ∧
      v.getLsbD 28 = g.rasr.xn ∧ v.extractLsb' 24 3 = g.rasr.ap ∧ v.extractLsb' 19 3 = g.rasr.tex ∧
      v.getLsbD 18 = g.rasr.s ∧ v.getLsbD 17 = g.rasr.c ∧ v.getLsbD 16 = g.rasr.b ∧
      v.extractLsb' 8 8 = g.rasr.srd ∧ v.extractLsb' 1 5 = g.rasr.size ∧ v.getLsbD 0 = g.rasr.enable

/-- WRITE of MPU_RASR, _A1, _A2 and _A3 stores the nine fields of the selected region, reserved values of them too,
unless SIZE is below the region's minimum, which is refused (`42_register_interface.md` sections 6, 7 and 9; the
spec's decisions D4 and D25, log 14). -/
def Obligations.WriteRasrWindowsSetTheAttributes : Prop :=
  ∀ (s : State) (r : RegAccess) (k : Fin 4) (v : Word) (g : Region), Proper r → s.cfg.nregions.val ≠ 0 →
    s.rnrWritten = true → s.regions[s.rnr.toNat]? = some g →
      ((v.extractLsb' 1 5).toNat + 1 < s.cfg.minLog2 s.rnr.toNat →
        (v.getLsbD 0 = true ∨ s.cfg.sizeCheckOnlyWhenEnabled = false) →
        exec (rasrWrite k r v) s = .refused .sizeBelowMinimum) ∧
      ((s.cfg.minLog2 s.rnr.toNat ≤ (v.extractLsb' 1 5).toNat + 1 ∨
          (v.getLsbD 0 = false ∧ s.cfg.sizeCheckOnlyWhenEnabled = true)) →
        exec (rasrWrite k r v) s =
          .next (({ s with
            regions := s.regions.set s.rnr.toNat { g with
              rasr := { xn := v.getLsbD 28, ap := v.extractLsb' 24 3, tex := v.extractLsb' 19 3, s := v.getLsbD 18
                        c := v.getLsbD 17, b := v.getLsbD 16, srd := v.extractLsb' 8 8, size := v.extractLsb' 1 5
                        enable := v.getLsbD 0 } } } : State).answered (rasrAddress k) none))

/-- While RNR.REGION has not been written since reset, a read of an RBAR window, its write with VALID = 0 and every
access to a RASR window are refused (R52, the spec's decision D13, log 12). -/
def Obligations.WindowsAreRefusedBeforeASelection : Prop :=
  ∀ (s : State) (r : RegAccess) (k : Fin 4) (addr : BitVec 27) (region : BitVec 4) (v : Word), Proper r →
    s.cfg.nregions.val ≠ 0 → s.rnrWritten = false →
      exec (rbarRead k r) s = .refused .regionNotSelected ∧
      exec (rbarWriteValid0 k r addr region) s = .refused .regionNotSelected ∧
      exec (rasrRead k r) s = .refused .regionNotSelected ∧
      exec (rasrWrite k r v) s = .refused .regionNotSelected

/-- One pair of a stream of word writes (R86, R212): a word with VALID = 1 and REGION = n to RBAR window k and the word
after it to RASR window k set both registers of region n and leave the other regions, and RNR.REGION is then n; the
ascending order is the spec's decision D17 (log 33), a word taking effect before the next is D12 (log 17), and the two
steps over the queue of packets are the model's interface (logs 25 and 26). -/
def Obligations.StreamOfTwoWordsSetsOneRegion : Prop :=
  ∀ (s : State) (r : RegAccess) (k : Fin 4) (addr : BitVec 27) (n : BitVec 4) (v : Word) (rest : List Packet)
    (g : Region), s.lockedUp = false → Proper r → n.toNat < s.cfg.nregions.val → s.regions[n.toNat]? = some g →
    s.cfg.minLog2 n.toNat ≤ (v.extractLsb' 1 5).toNat + 1 →
    s.queue = stmStream r (rbarAddress k) [rbarWordOf addr true n, v] ++ rest →
    ∃ t : State, Host.Core.run Sys2Proof.core 2 s = .next t ∧ t.queue = rest ∧ t.rnr = n.zeroExtend 8 ∧
      t.rnrWritten = true ∧ t.ctrl = s.ctrl ∧
      (∀ q : Nat, q ≠ n.toNat → t.regions[q]? = s.regions[q]?) ∧
      ∃ h, t.regions[n.toNat]? = some h ∧ h.rasr = rasrOfWord v ∧
        ∀ j, h.addr.getLsbD j = (decide (s.cfg.trailing n.toNat ≤ j) && addr.getLsbD j)

/-- Finding the smallest region size (derived in R213): writing all ones to ADDR with VALID = 0 and reading back gives
a field whose trailing zeros count MINLOG2 - 5. -/
def Obligations.ProbeFindsTheMinimumSize : Prop :=
  ∀ (s : State) (r : RegAccess) (k j : Fin 4) (region : BitVec 4) (g : Region), Proper r →
    s.cfg.nregions.val ≠ 0 → s.rnrWritten = true → s.regions[s.rnr.toNat]? = some g →
    ∃ (u t : State) (v : Word), exec (rbarWriteValid0 k r (BitVec.allOnes 27) region) s = .next u ∧
      exec (rbarRead j r) u = .next t ∧ t = u.answered (rbarAddress j) (some v) ∧
      ∀ b, b < 27 → v.getLsbD (5 + b) = decide (s.cfg.minLog2 s.rnr.toNat - 5 ≤ b)

/-! ### Reserved addresses and the machine without an MPU -/

/-- With an MPU a privileged access to a reserved address is refused; without one a read gives a free value, a write of
zero is ignored and any other is refused; unprivileged it raises BusFault (the spec's decision D19, log 20). -/
def Obligations.ReservedAddressesFollowTheDecision : Prop :=
  ∀ (s : State) (r : RegAccess) (i3 : BitVec 3) (i2 : BitVec 2) (op : RegOp) (v : Word),
    (Unprivileged r →
      exec (.reservedEDBC r op) s = .next { s with reply := .busFault } ∧
      exec (.reservedEDC0 r i3 op) s = .next { s with reply := .busFault } ∧
      exec (.reservedEDE0 r i2 op) s = .next { s with reply := .busFault }) ∧
    (Proper r → s.cfg.nregions.val ≠ 0 →
      exec (.reservedEDBC r op) s = .refused .reservedAddress ∧
      exec (.reservedEDC0 r i3 op) s = .refused .reservedAddress ∧
      exec (.reservedEDE0 r i2 op) s = .refused .reservedAddress) ∧
    (Proper r → s.cfg.nregions.val = 0 →
      (∃ x, exec (.reservedEDBC r .read) s =
        .next (({ s with draws := s.draws + 1 } : State).answered 0xE000EDBC#32 (some x))) ∧
      (∃ x, exec (.reservedEDC0 r i3 .read) s =
        .next (({ s with draws := s.draws + 1 } : State).answered (0xE000EDC0#32 + 4#32 * i3.zeroExtend 32) (some x))) ∧
      (∃ x, exec (.reservedEDE0 r i2 .read) s =
        .next (({ s with draws := s.draws + 1 } : State).answered (0xE000EDE0#32 + 4#32 * i2.zeroExtend 32) (some x))) ∧
      exec (.reservedEDBC r (.write 0#32)) s = .next (s.answered 0xE000EDBC#32 none) ∧
      exec (.reservedEDC0 r i3 (.write 0#32)) s = .next (s.answered (0xE000EDC0#32 + 4#32 * i3.zeroExtend 32) none) ∧
      exec (.reservedEDE0 r i2 (.write 0#32)) s = .next (s.answered (0xE000EDE0#32 + 4#32 * i2.zeroExtend 32) none) ∧
      (v ≠ 0#32 →
        exec (.reservedEDBC r (.write v)) s = .refused .absentRegisterWrite ∧
        exec (.reservedEDC0 r i3 (.write v)) s = .refused .absentRegisterWrite ∧
        exec (.reservedEDE0 r i2 (.write v)) s = .refused .absentRegisterWrite))

/-- Without an MPU, MPU_CTRL ignores writes, a read of MPU_RNR or of a window gives a free value, and a write to one is
ignored when the word is zero and refused otherwise (R30, R211; the spec's decision D19, log 20). -/
def Obligations.AbsentMpuRegistersReadAnythingAndIgnoreZero : Prop :=
  ∀ (s : State) (r : RegAccess) (k : Fin 4) (v : Word) (addr : BitVec 27) (region : BitVec 4), Proper r →
    s.cfg.nregions.val = 0 →
      exec (.writeMpuCtrl r v) s = .next (s.answered 0xE000ED94#32 none) ∧
      (∃ x, exec (.readMpuRnr r) s =
        .next (({ s with draws := s.draws + 1 } : State).answered 0xE000ED98#32 (some x))) ∧
      (∃ x, exec (rbarRead k r) s =
        .next (({ s with draws := s.draws + 1 } : State).answered (rbarAddress k) (some x))) ∧
      (∃ x, exec (rasrRead k r) s =
        .next (({ s with draws := s.draws + 1 } : State).answered (rasrAddress k) (some x))) ∧
      exec (.writeMpuRnr r 0#32) s = .next (s.answered 0xE000ED98#32 none) ∧
      exec (rbarWriteValid0 k r 0#27 0#4) s = .next (s.answered (rbarAddress k) none) ∧
      exec (rasrWrite k r 0#32) s = .next (s.answered (rasrAddress k) none) ∧
      (v ≠ 0#32 → exec (.writeMpuRnr r v) s = .refused .absentRegisterWrite ∧
        exec (rasrWrite k r v) s = .refused .absentRegisterWrite) ∧
      (addr ≠ 0#27 ∨ region ≠ 0#4 → exec (rbarWriteValid0 k r addr region) s = .refused .absentRegisterWrite) ∧
      exec (rbarWriteValid1 k r addr region) s = .refused .absentRegisterWrite

/-! ### ValidateAddress: which map answers -/

/-- Vector reads and PPB accesses are checked against the default map alone, whatever MPU_CTRL and the regions hold
(R125). -/
def Obligations.VectorReadsAndPpbUseTheDefaultMap : Prop :=
  ∀ (s : State) (p : ProcInputs) (a : Word) (t : AccType) (w : Bool), (t = .vectable ∨ OnPPB a) →
    ByDefaultMap a t (validateAddress s p a t w)

/-- With ENABLE = 0 and HFNMIENA = 0, or without an MPU, every access uses the default map: a fetch faults exactly in
the execute-never ranges, no other access faults, and PRIVDEFENA and the regions are not read (R126, R142, R143). -/
def Obligations.DisabledMpuUsesTheDefaultMap : Prop :=
  ∀ (s : State) (p : ProcInputs) (a : Word) (t : AccType) (w : Bool),
    (s.ctrl.enable = false → s.ctrl.hfnmiena = false → ByDefaultMap a t (validateAddress s p a t w)) ∧
    (s.Inv → s.cfg.nregions.val = 0 → ByDefaultMap a t (validateAddress s p a t w))

/-- With ENABLE = 0 and HFNMIENA = 1 every access that starts off the PPB and is no vector read is refused, of any
number of bytes (R127, the spec's decisions D4 and D20, logs 11 and 21; that one failing first byte ends an access
checked byte by byte is D9, log 18). -/
def Obligations.UnpredictableControlIsRefused : Prop :=
  ∀ (s : State) (p : ProcInputs) (a : Word) (t : AccType) (w : Bool) (more : Word), s.ctrl.enable = false →
    s.ctrl.hfnmiena = true → t ≠ .vectable → ¬ OnPPB a →
    exec (.validateAddress p ⟨a, more⟩ t w) s = .refused .unpredictableControl

/-- With the MPU enabled, at execution priority below 0: the default map when HFNMIENA = 0; when it is 1 the access is
checked like any other, the priority making no difference (R128). -/
def Obligations.HandlersBelowPriorityZero : Prop :=
  ∀ (s : State) (p : ProcInputs) (a : Word) (t : AccType) (w : Bool), s.ctrl.enable = true →
    (s.ctrl.hfnmiena = false → p.prioBelowZero = true → ByDefaultMap a t (validateAddress s p a t w)) ∧
    (s.ctrl.hfnmiena = true → ∀ b,
      validateAddress s { p with prioBelowZero := b } a t w = validateAddress s p a t w)

/-- The decision table of `40_mpu_operation.md` section 5, rows 4a to 4d (derived there, R148): the loop over the
regions comes to the highest-numbered region that contains the address, else the background for privileged accesses,
else a violation. That an illegal enabled region refuses every access, and AP 100 the access it wins, is the spec's
decision D4 (log 11); that a reserved TEX:C:B refuses the access it wins is D14 (log 19). -/
def Obligations.RegionLoopMeetsTheDecisionTable : Prop :=
  ∀ (s : State) (p : ProcInputs) (a : Word) (t : AccType) (w : Bool), s.MpuOn p → t ≠ .vectable → ¬ OnPPB a →
    (¬ s.RegionsLegal → ∃ e, validateAddress s p a t w = .refuse e) ∧
    (s.RegionsLegal →
      (∀ g e, s.Winner a g → texDecode s.cfg g.rasr.texcb g.rasr.s = .error e →
        validateAddress s p a t w = .refuse e) ∧
      (∀ g m, s.Winner a g → texDecode s.cfg g.rasr.texcb g.rasr.s = .ok m →
        (g.rasr.ap = 4#3 → validateAddress s p a t w = .refuse .reservedAccessPermission) ∧
        (g.rasr.ap ≠ 4#3 → RegionAllows g a (ispriv p t) t w →
          validateAddress s p a t w = .ok [{ physicaladdress := a, memattrs := m }]) ∧
        (g.rasr.ap ≠ 4#3 → ¬ RegionAllows g a (ispriv p t) t w → validateAddress s p a t w = .violation a)) ∧
      (s.Unmapped a → s.ctrl.privdefena = true → PrivilegedAccess p t →
        ByDefaultMap a t (validateAddress s p a t w)) ∧
      (s.Unmapped a → ¬ (s.ctrl.privdefena = true ∧ PrivilegedAccess p t) →
        validateAddress s p a t w = .violation a))

/-- Every verdict of the regions comes from one row of the table (derived in R148): allowed by the winning region or on
the background, a violation by the winning region's permissions, by the absence of any row, or by a fetch from an
execute-never range of the background, and refused for an illegal region or for the winning region's AP or TEX:C:B (the
spec's decisions D4 and D14, logs 11 and 19). -/
def Obligations.EveryVerdictHasItsRow : Prop :=
  ∀ (s : State) (p : ProcInputs) (a : Word) (t : AccType) (w : Bool), s.MpuOn p → t ≠ .vectable → ¬ OnPPB a →
    (∀ ds, validateAddress s p a t w = .ok ds → s.RegionsLegal ∧
      ((∃ g m, s.Winner a g ∧ texDecode s.cfg g.rasr.texcb g.rasr.s = .ok m ∧ RegionAllows g a (ispriv p t) t w ∧
          ds = [{ physicaladdress := a, memattrs := m }]) ∨
        (s.Unmapped a ∧ s.ctrl.privdefena = true ∧ PrivilegedAccess p t ∧ ¬ (t = .ifetch ∧ DefaultExecuteNever a) ∧
          ds = [{ physicaladdress := a, memattrs := Config.defaultMemAttrs a }]))) ∧
    (∀ b, validateAddress s p a t w = .violation b → b = a ∧ s.RegionsLegal ∧
      ((∃ g, s.Winner a g ∧ g.rasr.ap ≠ 4#3 ∧ ¬ RegionAllows g a (ispriv p t) t w) ∨
        (s.Unmapped a ∧ (¬ (s.ctrl.privdefena = true ∧ PrivilegedAccess p t) ∨ (t = .ifetch ∧ DefaultExecuteNever a))))) ∧
    (∀ e, validateAddress s p a t w = .refuse e → ¬ s.RegionsLegal ∨
      ∃ g, s.Winner a g ∧ (g.rasr.ap = 4#3 ∨ texDecode s.cfg g.rasr.texcb g.rasr.s = .error e))

/-- Where a region contains the address, no lower-numbered legal region makes a difference, whatever its attributes
(derived in R137 from R130); that a reserved TEX:C:B in a region that loses does no harm is the spec's decision D14
(R176, log 19). -/
def Obligations.LowerRegionsMakeNoDifference : Prop :=
  ∀ (s : State) (p : ProcInputs) (a : Word) (t : AccType) (w : Bool) (q r : Nat) (old new g : Region), q < r →
    s.regions[q]? = some old → s.regions[r]? = some g → Contains g a → ¬ IllegalRegion old → ¬ IllegalRegion new →
    ¬ IllegalRegion g →
    validateAddress { s with regions := s.regions.set q new } p a t w = validateAddress s p a t w

/-- With the MPU enabled, PRIVDEFENA set and no region enabled, only privileged code can execute from the system address
map (R146), where the regions answer: below priority 0 with HFNMIENA 0 the default map does (R128). -/
def Obligations.OnlyPrivilegedCodeExecutesFromTheBackground : Prop :=
  ∀ (s : State) (p : ProcInputs) (a : Word), (∀ g ∈ s.regions, g.rasr.enable = false) → s.ctrl.privdefena = true →
    s.MpuOn p → ¬ OnPPB a →
    (p.findPriv = true → ByDefaultMap a .ifetch (validateAddress s p a .ifetch false)) ∧
    (p.findPriv = false → validateAddress s p a .ifetch false = .violation a)

/-- No fetch from System space is ever allowed, whatever the registers hold (R136). -/
def Obligations.SystemSpaceIsExecuteNever : Prop :=
  ∀ (s : State) (p : ProcInputs) (a : Word) (w : Bool), 0xE0000000 ≤ a.toNat →
    ∀ ds, validateAddress s p a .ifetch w ≠ .ok ds

/-- An allowed access reaches the address it presents: the MPU does not translate (R3). -/
def Obligations.AllowedAccessIsNotTranslated : Prop :=
  ∀ (s : State) (p : ProcInputs) (a : Word) (t : AccType) (w : Bool) (ds : List AddressDescriptor),
    validateAddress s p a t w = .ok ds → ∃ m, ds = [{ physicaladdress := a, memattrs := m }]

/-- Table B3-12 for the unprivileged load and store instructions, its three defined rows, away from the PPB (R240, R241,
R243). -/
def Obligations.TableOfUnprivilegedInstructions : Prop :=
  ∀ (s : State) (p : ProcInputs) (a : Word) (w : Bool), ¬ OnPPB a →
    (s.ctrl.hfnmiena = false → s.ctrl.enable = false → ByDefaultMap a .unpriv (validateAddress s p a .unpriv w)) ∧
    (s.ctrl.hfnmiena = false → s.ctrl.enable = true → p.prioBelowZero = true →
      ByDefaultMap a .unpriv (validateAddress s p a .unpriv w)) ∧
    (s.ctrl.hfnmiena = false → s.ctrl.enable = true → p.prioBelowZero = false → s.RegionsLegal →
      UnprivilegedByRegions s a w (validateAddress s p a .unpriv w)) ∧
    (s.ctrl.hfnmiena = true → s.ctrl.enable = true → s.RegionsLegal →
      UnprivilegedByRegions s a w (validateAddress s p a .unpriv w))

/-! ### Attributes and permissions -/

/-- Table B3-13, every row with a memory type (R161 to R165, R168, R169, R173) and Table B3-14 (R174). -/
def Obligations.TexDecodeRows : Prop :=
  ∀ (c : Config) (s : Bool),
    texDecode c 0b00000#5 s = .ok { type := .stronglyOrdered, shareable := true } ∧
    texDecode c 0b00001#5 s = .ok { type := .device, shareable := true } ∧
    texDecode c 0b00010#5 s = .ok { type := .normal .writeThrough .writeThrough, shareable := s } ∧
    texDecode c 0b00011#5 s =
      .ok { type := .normal .writeBackNoWriteAllocate .writeBackNoWriteAllocate, shareable := s } ∧
    texDecode c 0b00100#5 s = .ok { type := .normal .nonCacheable .nonCacheable, shareable := s } ∧
    texDecode c 0b00111#5 s =
      .ok { type := .normal .writeBackWriteAllocate .writeBackWriteAllocate, shareable := s } ∧
    texDecode c 0b01000#5 s = .ok { type := .device, shareable := false } ∧
    (∀ bb aa : BitVec 2, texDecode c (1#1 ++ bb ++ aa) s =
      .ok { type := .normal (cachePolicy aa) (cachePolicy bb), shareable := s }) ∧
    cachePolicy 0b00#2 = .nonCacheable ∧ cachePolicy 0b01#2 = .writeBackWriteAllocate ∧
    cachePolicy 0b10#2 = .writeThrough ∧ cachePolicy 0b11#2 = .writeBackNoWriteAllocate

/-- The reserved rows of Table B3-13 are refused, and the IMPLEMENTATION DEFINED row gives the parameter IMPDEF_ATTR
(the spec's decisions D14 and D15, logs 3 and 19). -/
def Obligations.ReservedTexRowsAreRefused : Prop :=
  ∀ (c : Config) (s : Bool),
    texDecode c 0b00101#5 s = .error .reservedMemoryType ∧ texDecode c 0b01001#5 s = .error .reservedMemoryType ∧
    (∀ b : BitVec 1, texDecode c (0b0101#4 ++ b) s = .error .reservedMemoryType) ∧
    (∀ cb : BitVec 2, texDecode c (0b011#3 ++ cb) s = .error .reservedMemoryType) ∧
    (c.impdefAttr = .refuse → texDecode c 0b00110#5 s = .error .implementationDefinedMemoryType) ∧
    (∀ m0 m1, c.impdefAttr = .attrs m0 m1 → texDecode c 0b00110#5 s = .ok (if s then m1 else m0))

/-- Table B3-15 for every AP but 100 (R177 to R180, R182 to R184). -/
def Obligations.AccessPermissionRows : Prop :=
  ∀ priv w : Bool,
    permits 0b000#3 priv w = some false ∧
    permits 0b001#3 priv w = some priv ∧
    permits 0b010#3 true w = some true ∧ permits 0b010#3 false w = some (!w) ∧
    permits 0b011#3 priv w = some true ∧
    permits 0b101#3 true w = some (!w) ∧ permits 0b101#3 false w = some false ∧
    permits 0b110#3 priv w = some (!w) ∧
    permits 0b111#3 priv w = some (!w)

/-! ### One access of several bytes -/

/-- Every boundary the MPU can draw is a multiple of 32, so one verdict holds for every byte of an aligned 32-byte block
(derived in R74). -/
def Obligations.OneVerdictInAnAlignedBlock : Prop :=
  ∀ (s : State) (p : ProcInputs) (a b : Word) (t : AccType) (w : Bool), a.toNat / 32 = b.toNat / 32 →
    ((∃ ds, validateAddress s p a t w = .ok ds) ↔ (∃ ds, validateAddress s p b t w = .ok ds)) ∧
    (validateAddress s p a t w = .violation a ↔ validateAddress s p b t w = .violation b) ∧
    (∀ e, validateAddress s p a t w = .refuse e ↔ validateAddress s p b t w = .refuse e)

/-- An access of `n` bytes (R74, the spec's decision D9, log 18): naturally aligned and of 1, 2, 4, 8, 16 or 32 bytes it
is one call at its lowest byte, as an access of an unprivileged load or store instruction is at a multiple of its size;
any other is checked byte by byte from the first on, passes when every byte does, and ends at the first byte that does
not. The byte after 0xFFFFFFFF is that at 0: the model's choice, log 31. -/
def Obligations.OneCheckWhenAlignedElseEveryByte : Prop :=
  ∀ (s : State) (p : ProcInputs) (a : Word) (n : Nat) (t : AccType) (w : Bool),
    (NaturallyAligned a n → validateAccess s p a n t w = validateAddress s p a t w) ∧
    (∀ size : AccSize, n = bytesOf size → a.toNat % n = 0 →
      validateAccess s p a n t w = validateAddress s p a t w) ∧
    (¬ NaturallyAligned a n →
      ((∀ k, k < n → ∃ ds, validateAddress s p (byteAddr a k) t w = .ok ds) →
        ∃ ds, validateAccess s p a n t w = .ok ds ∧ ds.map (·.physicaladdress) = (List.range n).map (byteAddr a)) ∧
      (∀ k, k < n → (∀ j, j < k → ∃ ds, validateAddress s p (byteAddr a j) t w = .ok ds) →
        (validateAddress s p (byteAddr a k) t w = .violation (byteAddr a k) →
          validateAccess s p a n t w = .violation (byteAddr a k)) ∧
        (∀ e, validateAddress s p (byteAddr a k) t w = .refuse e → validateAccess s p a n t w = .refuse e)))

/-! ### The transaction ValidateAddress -/

/-- A check of a naturally aligned access completes and changes nothing but the answer: under the default map unless it
is a fetch from an execute-never range, on the background for a privileged access, and in the region that wins where
its permissions allow (`40_mpu_operation.md` section 5, `20_memory.md` section 3). -/
def Obligations.AllowedCheckOnlyAnswers : Prop :=
  ∀ (s : State) (p : ProcInputs) (a : Word) (t : AccType) (w : Bool) (more : Word),
    NaturallyAligned a (bytesWith more) →
    ((t = .vectable ∨ OnPPB a ∨ s.MpuOff p) → ¬ (t = .ifetch ∧ DefaultExecuteNever a) →
      exec (.validateAddress p ⟨a, more⟩ t w) s =
        .next { s with reply := .ok [{ physicaladdress := a, memattrs := Config.defaultMemAttrs a }] none }) ∧
    (s.MpuOn p → s.RegionsLegal → s.Unmapped a → s.ctrl.privdefena = true → PrivilegedAccess p t →
      ¬ (t = .ifetch ∧ DefaultExecuteNever a) →
      exec (.validateAddress p ⟨a, more⟩ t w) s =
        .next { s with reply := .ok [{ physicaladdress := a, memattrs := Config.defaultMemAttrs a }] none }) ∧
    (∀ g m, s.MpuOn p → t ≠ .vectable → ¬ OnPPB a → s.RegionsLegal → s.Winner a g →
      texDecode s.cfg g.rasr.texcb g.rasr.s = .ok m → g.rasr.ap ≠ 4#3 → RegionAllows g a (ispriv p t) t w →
      exec (.validateAddress p ⟨a, more⟩ t w) s =
        .next { s with reply := .ok [{ physicaladdress := a, memattrs := m }] none })

/-- A check of an access that is not naturally aligned, or of more than 32 bytes, answers for every byte (R74, the
spec's decision D9, log 18): it completes with one descriptor a byte and nothing else changed when every byte passes,
and otherwise is what its first failing byte makes of it, MemManage or lockup (D11, log 16) with that byte's address in
the syndrome, or a refusal. The byte after 0xFFFFFFFF is that at 0: the model's choice, log 31. -/
def Obligations.CheckOfManyBytesAnswersForEveryByte : Prop :=
  ∀ (s : State) (p : ProcInputs) (a : Word) (t : AccType) (w : Bool) (more : Word),
    ¬ NaturallyAligned a (bytesWith more) →
    ((∀ k, k < bytesWith more → ∃ ds, validateAddress s p (byteAddr a k) t w = .ok ds) →
      ∃ ds, exec (.validateAddress p ⟨a, more⟩ t w) s = .next { s with reply := .ok ds none } ∧
        ds.map (·.physicaladdress) = (List.range (bytesWith more)).map (byteAddr a)) ∧
    (∀ k, k < bytesWith more → (∀ j, j < k → ∃ ds, validateAddress s p (byteAddr a j) t w = .ok ds) →
      (validateAddress s p (byteAddr a k) t w = .violation (byteAddr a k) →
        exec (.validateAddress p ⟨a, more⟩ t w) s = .next (s.afterViolation p t (byteAddr a k))) ∧
      (∀ e, validateAddress s p (byteAddr a k) t w = .refuse e →
        exec (.validateAddress p ⟨a, more⟩ t w) s = .refused e))

/-- No hit on an instruction fetch: IACCVIOL is set, MMARVALID cleared, MMAR and DACCVIOL unchanged, at every priority,
and at priority 0 or above MemManage is taken with nothing else changed (R138, R251). That a fetch which is not naturally
aligned, or of more than 32 bytes, ends at its first byte when that fails is the spec's decision D9 (R74, log 18). -/
def Obligations.NoHitFetchSyndrome : Prop :=
  ∀ (s : State) (p : ProcInputs) (a : Word) (w : Bool) (more : Word), s.MpuOn p → ¬ OnPPB a → s.RegionsLegal →
    s.Unmapped a → ¬ (s.ctrl.privdefena = true ∧ p.findPriv = true) →
    ∃ t : State, exec (.validateAddress p ⟨a, more⟩ .ifetch w) s = .next t ∧
      t.mmfsr = { iaccviol := true, daccviol := s.mmfsr.daccviol, mmarvalid := false } ∧ t.mmar = s.mmar ∧
      (p.prioBelowZero = false → t = { s with mmfsr := t.mmfsr, reply := .memManage })

/-- No hit on a read, a write or an unprivileged instruction's access: DACCVIOL and MMARVALID are set, MMAR holds the
address, IACCVIOL is unchanged, at every priority, and at priority 0 or above MemManage is taken with nothing else
changed (R139, R252). That an access which is not naturally aligned, or of more than 32 bytes, ends at its first byte
when that fails, so that MMAR holds its address, is the spec's decision D9 (R74, log 18). -/
def Obligations.NoHitDataSyndrome : Prop :=
  ∀ (s : State) (p : ProcInputs) (a : Word) (k : AccType) (w : Bool) (more : Word), k ≠ .ifetch → k ≠ .vectable →
    s.MpuOn p → ¬ OnPPB a → s.RegionsLegal → s.Unmapped a → ¬ (s.ctrl.privdefena = true ∧ PrivilegedAccess p k) →
    ∃ t : State, exec (.validateAddress p ⟨a, more⟩ k w) s = .next t ∧
      t.mmfsr = { iaccviol := s.mmfsr.iaccviol, daccviol := true, mmarvalid := true } ∧ t.mmar = a ∧
      (p.prioBelowZero = false → t = { s with mmfsr := t.mmfsr, mmar := a, reply := .memManage })

/-- A permission failure records what a no-hit records and takes MemManage (R187, R256, the spec's decision D10,
log 15): wherever the check of an access fails, of any number of bytes and for whatever reason, at the failing byte;
where the region that wins the first byte refuses it; and for a fetch from an execute-never range that the default map
answers, on the PPB, with the MPU off or on the background (R142). The failing byte of an access checked byte by byte is
its first (D9, log 18), the byte after 0xFFFFFFFF being that at 0 (the model's choice, log 31). -/
def Obligations.PermissionFailureSyndrome : Prop :=
  ∀ (s : State) (p : ProcInputs) (a : Word) (k : AccType) (w : Bool) (more : Word), p.prioBelowZero = false →
    (∀ b, validateAccess s p a (bytesWith more) k w = .violation b →
      (k = .ifetch → exec (.validateAddress p ⟨a, more⟩ k w) s =
        .next { s with
          mmfsr := { s.mmfsr with iaccviol := true, mmarvalid := false }
          reply := .memManage }) ∧
      (k ≠ .ifetch → exec (.validateAddress p ⟨a, more⟩ k w) s =
        .next { s with
          mmfsr := { s.mmfsr with daccviol := true, mmarvalid := true }
          mmar := b
          reply := .memManage })) ∧
    (validateAddress s p a k w = .violation a →
      exec (.validateAddress p ⟨a, more⟩ k w) s = .next (s.afterViolation p k a)) ∧
    (∀ g m, s.MpuOn p → k ≠ .vectable → ¬ OnPPB a → s.RegionsLegal → s.Winner a g →
      texDecode s.cfg g.rasr.texcb g.rasr.s = .ok m → g.rasr.ap ≠ 4#3 → ¬ RegionAllows g a (ispriv p k) k w →
      exec (.validateAddress p ⟨a, more⟩ k w) s = .next (s.afterViolation p k a)) ∧
    (k = .ifetch → DefaultExecuteNever a →
      (OnPPB a ∨ s.MpuOff p ∨
        (s.MpuOn p ∧ s.RegionsLegal ∧ s.Unmapped a ∧ s.ctrl.privdefena = true ∧ p.findPriv = true)) →
      exec (.validateAddress p ⟨a, more⟩ k w) s = .next (s.afterViolation p k a))

/-- A check that fails at execution priority below 0 writes the syndrome and locks the processor up, for every kind of
access, and no step follows (R255, the spec's decision D11, log 16); that a permission failure writes the syndrome of a
no-hit is D10 (log 15), and that an access checked byte by byte names its first failing byte is D9 (log 18), the byte
after 0xFFFFFFFF being that at 0 (the model's choice, log 31). -/
def Obligations.FailureBelowPriorityZeroLocksUp : Prop :=
  ∀ (s : State) (p : ProcInputs) (a : Word) (k : AccType) (w : Bool) (more b : Word), p.prioBelowZero = true →
    validateAccess s p a (bytesWith more) k w = .violation b →
    ∃ t : State, exec (.validateAddress p ⟨a, more⟩ k w) s = .next t ∧ t.reply = .lockup ∧ step t = .fault .lockup ∧
      (k = .ifetch → t.mmfsr = { s.mmfsr with iaccviol := true, mmarvalid := false } ∧ t.mmar = s.mmar) ∧
      (k ≠ .ifetch → t.mmfsr = { s.mmfsr with daccviol := true, mmarvalid := true } ∧ t.mmar = b) ∧
      t.ctrl = s.ctrl ∧ t.rnr = s.rnr ∧ t.regions = s.regions ∧ t.mem = s.mem

/-! ### The unprivileged loads and stores -/

/-- LDRBT, LDRHT, LDRSBT, LDRSHT, LDRT, STRBT, STRHT and STRT, and a check with AccType_UNPRIV, do the same whatever
FindPriv() returns (`43_unprivileged_loadstore.md` section 1). -/
def Obligations.UnprivilegedInstructionsIgnoreFindPriv : Prop :=
  ∀ (s : State) (b b' z : Bool) (a v more : Word) (w : Bool),
    exec (.ldrbt ⟨b, z⟩ a) s = exec (.ldrbt ⟨b', z⟩ a) s ∧
    exec (.ldrht ⟨b, z⟩ a) s = exec (.ldrht ⟨b', z⟩ a) s ∧
    exec (.ldrsbt ⟨b, z⟩ a) s = exec (.ldrsbt ⟨b', z⟩ a) s ∧
    exec (.ldrsht ⟨b, z⟩ a) s = exec (.ldrsht ⟨b', z⟩ a) s ∧
    exec (.ldrt ⟨b, z⟩ a) s = exec (.ldrt ⟨b', z⟩ a) s ∧
    exec (.strbt ⟨b, z⟩ a v) s = exec (.strbt ⟨b', z⟩ a v) s ∧
    exec (.strht ⟨b, z⟩ a v) s = exec (.strht ⟨b', z⟩ a v) s ∧
    exec (.strt ⟨b, z⟩ a v) s = exec (.strt ⟨b', z⟩ a v) s ∧
    exec (.validateAddress ⟨b, z⟩ ⟨a, more⟩ .unpriv w) s = exec (.validateAddress ⟨b', z⟩ ⟨a, more⟩ .unpriv w) s

/-- LDRBT, LDRHT, LDRSBT, LDRSHT and LDRT complete wherever the default map answers the access, at every alignment
outside the register block, and change nothing but the answer; away from the PPB the value is memory's
(`43_unprivileged_loadstore.md` section 1; widths and signs are presumed, log 28; the checks at an odd alignment are the
spec's decision D9, log 18; a load that runs over 0xFFFFFFFF reads on at 0, the model's choice, log 31; the value read
from the PPB is free, log 30). -/
def Obligations.LoadsCompleteUnderTheDefaultMap : Prop :=
  ∀ (i : Instr) (s : State) (p : ProcInputs) (a : Word) (size : AccSize), unprivAccessOf i = some (p, a, size, false) →
    ¬ TouchesBlock a (bytesOf size) → s.DefaultMapAnswers p a (bytesOf size) →
    ∃ (ds : List AddressDescriptor) (v : Word) (d : Nat),
      exec i s = .next { s with draws := d, reply := .ok ds (some v) } ∧
      (∀ x ∈ ds, x.memattrs = Config.defaultMemAttrs x.physicaladdress) ∧
      (a.toNat % bytesOf size = 0 → ds = [{ physicaladdress := a, memattrs := Config.defaultMemAttrs a }]) ∧
      (¬ TouchesPPB a (bytesOf size) → v = s.loaded i ∧ d = s.draws)

/-- STRBT, STRHT and STRT complete wherever the default map answers the access, at every alignment outside the register
block: the bytes of the access take the value's, in the memory's byte order, and every other byte and register is
unchanged (`43_unprivileged_loadstore.md` section 1; widths are presumed, log 28; the checks at an odd alignment
are the spec's decision D9, log 18; a store that runs over 0xFFFFFFFF writes on at 0, the model's choice, log 31; bytes
on the PPB change no memory, log 30). -/
def Obligations.StoresCompleteUnderTheDefaultMap : Prop :=
  ∀ (s : State) (p : ProcInputs) (a v : Word), s.mem.wf →
    (¬ TouchesBlock a 1 → s.DefaultMapAnswers p a 1 → ∃ ds m,
      exec (.strbt p a v) s = .next { s with mem := m, reply := .ok ds none } ∧ s.StoredAs a 1 v m) ∧
    (¬ TouchesBlock a 2 → s.DefaultMapAnswers p a 2 → ∃ ds m,
      exec (.strht p a v) s = .next { s with mem := m, reply := .ok ds none } ∧ s.StoredAs a 2 v m) ∧
    (¬ TouchesBlock a 4 → s.DefaultMapAnswers p a 4 → ∃ ds m,
      exec (.strt p a v) s = .next { s with mem := m, reply := .ok ds none } ∧ s.StoredAs a 4 v m)

/-- LDRBT, LDRHT, LDRSBT, LDRSHT and LDRT complete where the regions answer and let unprivileged software read: at a
naturally aligned address where the region that wins it does, at any other where the region that wins each byte does
(R236's example; widths and signs are presumed, log 28; the check of every byte is the spec's decision D9, log 18), and
at every alignment where every byte passes, one on the PPB among them (its value is free, log 30). A load that runs over
0xFFFFFFFF reads on at 0: the model's choice, log 31. -/
def Obligations.LoadsCompleteInAReadableRegion : Prop :=
  ∀ (i : Instr) (s : State) (p : ProcInputs) (a : Word) (size : AccSize),
    unprivAccessOf i = some (p, a, size, false) →
    (∀ m, a.toNat % bytesOf size = 0 → ¬ OnPPB a → s.MpuOn p → s.RegionsLegal → s.UnprivilegedIn a false m →
      exec i s = .next { s with reply := .ok [{ physicaladdress := a, memattrs := m }] (some (s.loaded i)) }) ∧
    (∀ m : Nat → MemAttrs, a.toNat % bytesOf size ≠ 0 → ¬ TouchesPPB a (bytesOf size) → s.MpuOn p → s.RegionsLegal →
      (∀ k, k < bytesOf size → s.UnprivilegedIn (byteAddr a k) false (m k)) →
      exec i s = .next { s with reply := .ok ((List.range (bytesOf size)).map fun k =>
        { physicaladdress := byteAddr a k, memattrs := m k }) (some (s.loaded i)) }) ∧
    (¬ TouchesBlock a (bytesOf size) →
      (∀ k, k < bytesOf size → ∃ ds, validateAddress s p (byteAddr a k) .unpriv false = .ok ds) →
      ∃ (ds : List AddressDescriptor) (v : Word) (d : Nat),
        exec i s = .next { s with draws := d, reply := .ok ds (some v) } ∧
        (¬ TouchesPPB a (bytesOf size) → v = s.loaded i ∧ d = s.draws))

/-- STRBT, STRHT and STRT complete where the regions answer and let unprivileged software write: at a naturally aligned
address where the region that wins it does, at any other where the region that wins each byte does (widths are
presumed, log 28; the check of every byte is the spec's decision D9, log 18), and at every alignment where every byte
passes, one on the PPB among them (it changes no memory, log 30). A store that runs over 0xFFFFFFFF writes on at 0: the
model's choice, log 31. -/
def Obligations.StoresCompleteInAWritableRegion : Prop :=
  ∀ (i : Instr) (s : State) (p : ProcInputs) (a : Word) (size : AccSize),
    unprivAccessOf i = some (p, a, size, true) → s.mem.wf →
    (∀ m, a.toNat % bytesOf size = 0 → ¬ OnPPB a → s.MpuOn p → s.RegionsLegal → s.UnprivilegedIn a true m → ∃ mem,
      exec i s = .next { s with mem := mem, reply := .ok [{ physicaladdress := a, memattrs := m }] none } ∧
      s.StoredAs a (bytesOf size) (storedValue i) mem) ∧
    (∀ m : Nat → MemAttrs, a.toNat % bytesOf size ≠ 0 → ¬ TouchesPPB a (bytesOf size) → s.MpuOn p → s.RegionsLegal →
      (∀ k, k < bytesOf size → s.UnprivilegedIn (byteAddr a k) true (m k)) → ∃ mem,
      exec i s = .next { s with
        mem := mem
        reply := .ok ((List.range (bytesOf size)).map fun k =>
          { physicaladdress := byteAddr a k, memattrs := m k }) none } ∧
      s.StoredAs a (bytesOf size) (storedValue i) mem) ∧
    (¬ TouchesBlock a (bytesOf size) →
      (∀ k, k < bytesOf size → ∃ ds, validateAddress s p (byteAddr a k) .unpriv true = .ok ds) → ∃ ds mem,
      exec i s = .next { s with mem := mem, reply := .ok ds none } ∧
      s.StoredAs a (bytesOf size) (storedValue i) mem)

/-- An unprivileged load or store whose check fails is not performed: the syndrome names the failing byte, memory and
the MPU's registers are unchanged, and MemManage is taken, or lockup below priority 0 (R244, R250; the spec's decision
D11, log 16). That a permission failure writes the syndrome of a no-hit is D10 (log 15), and that an access that is not
naturally aligned names its first failing byte and performs no part is D9 (log 18), the byte after 0xFFFFFFFF being that
at 0 (the model's choice, log 31). Where the regions refuse a
naturally aligned access, or the first byte of any other, that byte is its address. -/
def Obligations.FailedUnprivilegedAccessIsNotPerformed : Prop :=
  ∀ (i : Instr) (s : State) (p : ProcInputs) (a : Word) (size : AccSize) (w : Bool),
    unprivAccessOf i = some (p, a, size, w) → ¬ TouchesBlock a (bytesOf size) →
    (∀ b, validateAccess s p a (bytesOf size) .unpriv w = .violation b →
      exec i s = .next { s with
        mmfsr := { s.mmfsr with daccviol := true, mmarvalid := true }
        mmar := b
        lockedUp := s.lockedUp || p.prioBelowZero
        reply := if p.prioBelowZero then .lockup else .memManage }) ∧
    (¬ OnPPB a → s.MpuOn p → s.RegionsLegal →
      (s.Unmapped a ∨ ∃ g m, s.Winner a g ∧ texDecode s.cfg g.rasr.texcb g.rasr.s = .ok m ∧ g.rasr.ap ≠ 4#3 ∧
        ¬ AllowedBy g.rasr.ap false w) →
      exec i s = .next (s.afterViolation p .unpriv a))
end

