-- ==== Sys2Proof/Laws/Memory.lean ====
section
/-! SUPPORT. The laws of the memory behind the MPU: a byte reads as what was last written there, a write leaves every
other address, and every operation keeps the canonical form. -/

namespace Sys2Proof.Machine

@[simp] theorem Memory.read_nil (a : Nat) : Memory.read [] a = Config.unlistedByte := rfl

theorem Memory.read_cons (k : Nat) (c : Byte) (m : Memory) (a : Nat) :
    Memory.read ((k, c) :: m) a = if k = a then c else m.read a := rfl

theorem Memory.wf_nil : Memory.wf [] := by simp [Memory.wf]

/-- The canonical form of a list is that of its head and its tail. -/
theorem Memory.wf_cons {k : Nat} {c : Byte} {m : Memory} :
    Memory.wf ((k, c) :: m) ↔
      (∀ e ∈ m, k < e.1) ∧ k < 2 ^ 32 ∧ c ≠ Config.unlistedByte ∧ m.wf := by
  simp only [Memory.wf, List.pairwise_cons, List.mem_cons, forall_eq_or_imp]
  tauto

/-- An address below every listed one reads as unlisted. -/
theorem Memory.read_of_lt {m : Memory} {a : Nat} (h : ∀ e ∈ m, a < e.1) : m.read a = Config.unlistedByte := by
  induction m with
  | nil => rfl
  | cons e rest ih =>
    obtain ⟨k, c⟩ := e
    have hk := h (k, c) (by simp)
    rw [Memory.read_cons, if_neg (by simp at hk; omega)]
    exact ih fun e he => h e (by simp [he])

/-- A write lists no address but the one written and those that were listed. -/
theorem Memory.mem_write {m : Memory} {a : Nat} {b : Byte} {e : Host.Cell} (h : e ∈ m.write a b) :
    e = (a, b) ∧ b ≠ Config.unlistedByte ∨ e ∈ m := by
  induction m with
  | nil =>
    simp only [Memory.write] at h
    split at h
    · simp at h
    · left; simp at h; exact ⟨h, by assumption⟩
  | cons c rest ih =>
    obtain ⟨k, c⟩ := c
    simp only [Memory.write] at h
    split at h
    · split at h
      · exact .inr h
      · rcases List.mem_cons.mp h with h | h
        · exact .inl ⟨h, by assumption⟩
        · exact .inr h
    · split at h
      · split at h
        · exact .inr (List.mem_cons_of_mem _ h)
        · rcases List.mem_cons.mp h with h | h
          · exact .inl ⟨h, by assumption⟩
          · exact .inr (List.mem_cons_of_mem _ h)
      · rcases List.mem_cons.mp h with h | h
        · exact .inr (by simp [h])
        · rcases ih h with h | h
          · exact .inl h
          · exact .inr (List.mem_cons_of_mem _ h)

/-- A write keeps the canonical form. -/
theorem Memory.wf_write {m : Memory} {a : Nat} {b : Byte} (hm : m.wf) (ha : a < 2 ^ 32) : (m.write a b).wf := by
  induction m with
  | nil =>
    simp only [Memory.write]
    split
    · exact Memory.wf_nil
    · exact Memory.wf_cons.mpr ⟨by simp, ha, by assumption, Memory.wf_nil⟩
  | cons e rest ih =>
    obtain ⟨k, c⟩ := e
    obtain ⟨hlt, hk, hc, hrest⟩ := Memory.wf_cons.mp hm
    simp only [Memory.write]
    split
    · split
      · exact hm
      · refine Memory.wf_cons.mpr ⟨?_, ha, by assumption, hm⟩
        intro e he
        rcases List.mem_cons.mp he with rfl | he
        · assumption
        · have := hlt e he; omega
    · split
      · rename_i h; subst h
        split
        · exact hrest
        · exact Memory.wf_cons.mpr ⟨hlt, ha, by assumption, hrest⟩
      · refine Memory.wf_cons.mpr ⟨?_, hk, hc, ih hrest⟩
        intro e he
        rcases Memory.mem_write he with ⟨rfl, -⟩ | he
        · dsimp only; omega
        · exact hlt e he

/-- Reading the address written gives the byte written. -/
theorem Memory.read_write_same {m : Memory} (a : Nat) (b : Byte) (hm : m.wf) : (m.write a b).read a = b := by
  induction m with
  | nil =>
    simp only [Memory.write]
    split
    · simp_all
    · simp [Memory.read_cons]
  | cons e rest ih =>
    obtain ⟨k, c⟩ := e
    obtain ⟨hlt, -, -, hrest⟩ := Memory.wf_cons.mp hm
    simp only [Memory.write]
    split
    · split
      · rename_i h hb
        rw [Memory.read_cons, if_neg (by omega), hb]
        exact Memory.read_of_lt fun e he => by have := hlt e he; omega
      · simp [Memory.read_cons]
    · split
      · rename_i h; subst h
        split
        · rename_i hb; rw [hb]; exact Memory.read_of_lt hlt
        · simp [Memory.read_cons]
      · rw [Memory.read_cons, if_neg (by omega)]; exact ih hrest

/-- A write leaves every other address. -/
theorem Memory.read_write_other (m : Memory) {a x : Nat} (b : Byte) (hx : x ≠ a) : (m.write a b).read x = m.read x := by
  induction m with
  | nil =>
    simp only [Memory.write]
    split
    · rfl
    · rw [Memory.read_cons, if_neg (by omega)]
  | cons e rest ih =>
    obtain ⟨k, c⟩ := e
    simp only [Memory.write]
    split
    · split
      · rfl
      · rw [Memory.read_cons, if_neg (by omega)]
    · split
      · rename_i h; subst h
        split
        · rw [Memory.read_cons, if_neg (by omega)]
        · simp only [Memory.read_cons]; rw [if_neg (by omega), if_neg (by omega)]
      · simp only [Memory.read_cons, ih]

/-- Storing a value keeps the canonical form. -/
theorem storeValue_wf (s : State) (a : Word) (n : Nat) (v : Word) (h : s.mem.wf) : (storeValue s a n v).wf := by
  unfold storeValue
  generalize List.range n = ks
  generalize s.mem = m at h
  induction ks generalizing m with
  | nil => exact h
  | cons k ks ih =>
    simp only [List.foldl_cons]
    apply ih
    split
    · exact h
    · exact Memory.wf_write h (BitVec.isLt _)

/-- The memory of the reset state is in canonical form. -/
theorem State.reset_mem_wf : State.reset.mem.wf := Memory.wf_nil

end Sys2Proof.Machine
end

