-- ==== Sys2Proof/Laws/Words.lean ====
section
/-! SUPPORT. The fields of the words a read returns: each field of each format is where the spec puts it (R93 to R97),
and a word in format RBAR gives back the fields it was built from (R96, R102). -/

namespace Sys2Proof

/-- Bit `i` of a word that holds a field at bit `k`. -/
theorem getLsbD_placed {w : Nat} (x : BitVec w) (k i : Nat) :
    (placed x k).getLsbD i = (decide (i < 32) && (decide (k ≤ i) && x.getLsbD (i - k))) := by
  simp only [placed, BitVec.getLsbD_shiftLeft, BitVec.getLsbD_setWidth]
  by_cases h : i < 32
  · by_cases h2 : i < k
    · simp [h, h2]
    · simp [h, h2, show k ≤ i by omega, show i - k < 32 by omega]
  · simp [h]

end Sys2Proof

namespace Sys2Proof.Machine

/-! ### MPU_TYPE (R93) -/

theorem typeWord_iregion (c : Config) (f : Word) : (typeWord c f).extractLsb' 16 8 = 0#8 := by
  ext i hi
  simp only [BitVec.getElem_extractLsb', typeWord, BitVec.getLsbD_or, BitVec.getLsbD_and, getLsbD_placed]
  interval_cases i <;> simp

theorem typeWord_dregion (c : Config) (f : Word) :
    (typeWord c f).extractLsb' 8 8 = BitVec.ofNat 8 c.nregions.val := by
  ext i hi
  simp only [BitVec.getElem_extractLsb', typeWord, BitVec.getLsbD_or, BitVec.getLsbD_and, getLsbD_placed]
  interval_cases i <;> simp

theorem typeWord_separate (c : Config) (f : Word) : (typeWord c f).getLsbD 0 = false := by
  simp only [typeWord, BitVec.getLsbD_or, BitVec.getLsbD_and, getLsbD_placed]
  simp

/-! ### MPU_CTRL (R94) -/

theorem ctrlWord_privdefena (c : Ctrl) (f : Word) : (ctrlWord c f).getLsbD 2 = c.privdefena := by
  simp only [ctrlWord, BitVec.getLsbD_or, BitVec.getLsbD_and, getLsbD_placed]
  simp

theorem ctrlWord_hfnmiena (c : Ctrl) (f : Word) : (ctrlWord c f).getLsbD 1 = c.hfnmiena := by
  simp only [ctrlWord, BitVec.getLsbD_or, BitVec.getLsbD_and, getLsbD_placed]
  simp

theorem ctrlWord_enable (c : Ctrl) (f : Word) : (ctrlWord c f).getLsbD 0 = c.enable := by
  simp only [ctrlWord, BitVec.getLsbD_or, BitVec.getLsbD_and, getLsbD_placed]
  simp

theorem ctrlWord_reserved (c : Ctrl) (f : Word) : (ctrlWord c f).extractLsb' 3 29 = f.extractLsb' 3 29 := by
  ext i hi
  simp only [BitVec.getElem_extractLsb', ctrlWord, BitVec.getLsbD_or, BitVec.getLsbD_and, getLsbD_placed]
  interval_cases i <;> simp

/-! ### MPU_RNR (R95) -/

theorem rnrWord_region (rnr : BitVec 8) (f : Word) : (rnrWord rnr f).extractLsb' 0 8 = rnr := by
  ext i hi
  simp only [BitVec.getElem_extractLsb', rnrWord, BitVec.getLsbD_or, BitVec.getLsbD_and, getLsbD_placed]
  interval_cases i <;> simp

/-! ### MPU_RBAR (R96) -/

theorem rbarWord_addr (addr : BitVec 27) (rnr : BitVec 8) : (rbarWord addr rnr).extractLsb' 5 27 = addr := by
  ext i hi
  simp only [BitVec.getElem_extractLsb', rbarWord, BitVec.getLsbD_or, getLsbD_placed]
  simp [show 5 + i < 32 by omega, show ¬ 5 + i < 4 by omega, BitVec.getLsbD_eq_getElem hi]

theorem rbarWord_valid (addr : BitVec 27) (rnr : BitVec 8) : (rbarWord addr rnr).getLsbD 4 = false := by
  simp only [rbarWord, BitVec.getLsbD_or, getLsbD_placed]
  simp

theorem rbarWord_region (addr : BitVec 27) (rnr : BitVec 8) :
    (rbarWord addr rnr).extractLsb' 0 4 = rnr.extractLsb' 0 4 := by
  ext i hi
  simp only [BitVec.getElem_extractLsb', rbarWord, BitVec.getLsbD_or, getLsbD_placed]
  interval_cases i <;> simp

theorem rbarAddrField_rbarWordOf (addr : BitVec 27) (b : Bool) (n : BitVec 4) :
    rbarAddrField (rbarWordOf addr b n) = addr := by
  ext i hi
  simp only [rbarAddrField, BitVec.getElem_extractLsb', rbarWordOf, BitVec.getLsbD_or, getLsbD_placed]
  simp [show 5 + i < 32 by omega, show ¬ 5 + i - 4 = 0 by omega, BitVec.getLsbD_of_ge n (5 + i) (by omega),
    BitVec.getLsbD_eq_getElem hi]

theorem rbarValidField_rbarWordOf (addr : BitVec 27) (b : Bool) (n : BitVec 4) :
    rbarValidField (rbarWordOf addr b n) = b := by
  simp only [rbarValidField, rbarWordOf, BitVec.getLsbD_or, getLsbD_placed]
  simp

theorem rbarRegionField_rbarWordOf (addr : BitVec 27) (b : Bool) (n : BitVec 4) :
    rbarRegionField (rbarWordOf addr b n) = n := by
  ext i hi
  simp only [rbarRegionField, BitVec.getElem_extractLsb', rbarWordOf, BitVec.getLsbD_or, getLsbD_placed]
  interval_cases i <;> simp

/-! ### MPU_RASR (R97) -/

theorem rasrWord_xn (x : Rasr) (f : Word) : (rasrWord x f).getLsbD 28 = x.xn := by
  simp only [rasrWord, BitVec.getLsbD_or, BitVec.getLsbD_and, getLsbD_placed]
  simp

theorem rasrWord_ap (x : Rasr) (f : Word) : (rasrWord x f).extractLsb' 24 3 = x.ap := by
  ext i hi
  simp only [BitVec.getElem_extractLsb', rasrWord, BitVec.getLsbD_or, BitVec.getLsbD_and, getLsbD_placed]
  interval_cases i <;> simp

theorem rasrWord_tex (x : Rasr) (f : Word) : (rasrWord x f).extractLsb' 19 3 = x.tex := by
  ext i hi
  simp only [BitVec.getElem_extractLsb', rasrWord, BitVec.getLsbD_or, BitVec.getLsbD_and, getLsbD_placed]
  interval_cases i <;> simp

theorem rasrWord_s (x : Rasr) (f : Word) : (rasrWord x f).getLsbD 18 = x.s := by
  simp only [rasrWord, BitVec.getLsbD_or, BitVec.getLsbD_and, getLsbD_placed]
  simp

theorem rasrWord_c (x : Rasr) (f : Word) : (rasrWord x f).getLsbD 17 = x.c := by
  simp only [rasrWord, BitVec.getLsbD_or, BitVec.getLsbD_and, getLsbD_placed]
  simp

theorem rasrWord_b (x : Rasr) (f : Word) : (rasrWord x f).getLsbD 16 = x.b := by
  simp only [rasrWord, BitVec.getLsbD_or, BitVec.getLsbD_and, getLsbD_placed]
  simp

theorem rasrWord_srd (x : Rasr) (f : Word) : (rasrWord x f).extractLsb' 8 8 = x.srd := by
  ext i hi
  simp only [BitVec.getElem_extractLsb', rasrWord, BitVec.getLsbD_or, BitVec.getLsbD_and, getLsbD_placed]
  interval_cases i <;> simp

theorem rasrWord_size (x : Rasr) (f : Word) : (rasrWord x f).extractLsb' 1 5 = x.size := by
  ext i hi
  simp only [BitVec.getElem_extractLsb', rasrWord, BitVec.getLsbD_or, BitVec.getLsbD_and, getLsbD_placed]
  interval_cases i <;> simp

theorem rasrWord_enable (x : Rasr) (f : Word) : (rasrWord x f).getLsbD 0 = x.enable := by
  simp only [rasrWord, BitVec.getLsbD_or, BitVec.getLsbD_and, getLsbD_placed]
  simp

/-! ### The stored ADDR (R37) -/

/-- The ADDR stored is the ADDR written with the bits below the region's minimum size at 0. -/
theorem getLsbD_storedAddr (c : Config) (r : Nat) (addr : BitVec 27) (j : Nat) :
    (storedAddr c r addr).getLsbD j = (decide (c.trailing r ≤ j) && addr.getLsbD j) := by
  by_cases hj : j < 27
  · by_cases h : j < c.trailing r
    · simp [storedAddr, h]
    · simp [storedAddr, hj, h, show c.trailing r ≤ j by omega, show c.trailing r + (j - c.trailing r) = j by omega]
  · rw [BitVec.getLsbD_of_ge _ _ (by omega), BitVec.getLsbD_of_ge addr _ (by omega), Bool.and_false]

end Sys2Proof.Machine
end

