-- ==== Sys2Proof/Laws/Ops.lean ====
section
/-! SUPPORT. For each shared operation, once, everything it can do: what a register access checks first, what each
window operation answers, what a verdict makes of a transaction, and what an unprivileged load or store does. -/

namespace Sys2Proof.Machine

/-! ### Outcomes -/

theorem next_inj {s t : State} : (Host.Outcome.next s : Out) = .next t ↔ s = t := by simp

/-! ### The checks of a register access -/

theorem regIsPriv_eq_false {r : RegAccess} : regIsPriv r = false ↔ Unprivileged r := by
  obtain ⟨⟨f, z⟩, u, sz, l⟩ := r
  cases u <;> cases f <;> simp [regIsPriv, ispriv, Unprivileged]

theorem regIsPriv_eq_true {r : RegAccess} : regIsPriv r = true ↔ ¬ Unprivileged r := by
  rw [← regIsPriv_eq_false]; simp

/-- An unprivileged access takes a BusFault, whatever the operation. -/
theorem regGate_of_unprivileged {r : RegAccess} (h : Unprivileged r) (s : State) (op : Out) :
    regGate s r op = .next (takeBusFault s) := by
  simp [regGate, regIsPriv_eq_false.mpr h]

/-- A defined access performs the operation. -/
theorem regGate_of_proper {r : RegAccess} (h : Proper r) (s : State) (op : Out) : regGate s r op = op := by
  obtain ⟨hu, hp, hs, hl⟩ := h
  simp [regGate, regIsPriv, ispriv, hu, hp, hs, hl]

/-- Everything the checks let through: an unprivileged access with its BusFault, or the operation of a defined one. -/
theorem regGate_next {r : RegAccess} {s t : State} {op : Out} (h : regGate s r op = .next t) :
    (Unprivileged r ∧ t = takeBusFault s) ∨ (Proper r ∧ op = .next t) := by
  unfold regGate at h
  split at h
  · rename_i hp
    refine .inl ⟨regIsPriv_eq_false.mp (by simpa using hp), ?_⟩
    simpa using h.symm
  · rename_i hp
    split at h
    · simp at h
    · rename_i hs
      split at h
      · simp at h
      · rename_i hl
        have hn : ¬ Unprivileged r := regIsPriv_eq_true.mp (by simpa using hp)
        simp only [Unprivileged, not_or, Bool.not_eq_true, Bool.not_eq_false] at hn
        exact .inr ⟨⟨hn.1, hn.2, by simpa using hs, by simpa using hl⟩, h⟩

theorem regGate_of_width {r : RegAccess} (h : ¬ Unprivileged r) (hs : r.size ≠ .word) (s : State) (op : Out) :
    regGate s r op = .refused .registerAccessWidth := by
  simp [regGate, regIsPriv_eq_true.mpr h, hs]

theorem regGate_of_lane {r : RegAccess} (h : ¬ Unprivileged r) (hs : r.size = .word) (hl : r.lane ≠ 0#2) (s : State)
    (op : Out) : regGate s r op = .refused .registerAccessUnaligned := by
  simp [regGate, regIsPriv_eq_true.mpr h, hs, hl]

/-! ### The windows by alias number -/

theorem exec_rbarRead (k : Fin 4) (r : RegAccess) (s : State) :
    exec (rbarRead k r) s = regGate s r (readRbarWindow s (rbarAddress k)) := by
  fin_cases k <;> rfl

theorem exec_rbarWriteValid0 (k : Fin 4) (r : RegAccess) (addr : BitVec 27) (n : BitVec 4) (s : State) :
    exec (rbarWriteValid0 k r addr n) s = regGate s r (writeRbarValid0 s (rbarAddress k) addr n) := by
  fin_cases k <;> rfl

theorem exec_rbarWriteValid1 (k : Fin 4) (r : RegAccess) (addr : BitVec 27) (n : BitVec 4) (s : State) :
    exec (rbarWriteValid1 k r addr n) s = regGate s r (writeRbarValid1 s (rbarAddress k) addr n) := by
  fin_cases k <;> rfl

theorem exec_rasrRead (k : Fin 4) (r : RegAccess) (s : State) :
    exec (rasrRead k r) s = regGate s r (readRasrWindow s (rasrAddress k)) := by
  fin_cases k <;> rfl

theorem exec_rasrWrite (k : Fin 4) (r : RegAccess) (v : Word) (s : State) :
    exec (rasrWrite k r v) s = regGate s r (writeRasrWindow s (rasrAddress k) v) := by
  fin_cases k <;> rfl

/-- The answers of register accesses are the claims' `answered`. -/
theorem answerRead_eq (s : State) (a v : Word) : answerRead s a v = s.answered a (some v) := rfl

theorem answerWrite_eq (s : State) (a : Word) : answerWrite s a = s.answered a none := rfl

theorem noMpu_eq_true {s : State} : noMpu s = true ↔ s.cfg.nregions.val = 0 := by simp [noMpu]

theorem noMpu_eq_false {s : State} : noMpu s = false ↔ s.cfg.nregions.val ≠ 0 := by simp [noMpu]

/-! ### Writes of one region -/

/-- Changing entry `r` of a list that has one is setting it. -/
theorem modify_eq_set {l : List Region} {r : Nat} {g : Region} (h : l[r]? = some g) (f : Region → Region) :
    l.modify r f = l.set r (f g) := by
  apply List.ext_getElem?
  intro i
  simp only [List.getElem?_modify, List.getElem?_set]
  split
  · rename_i e; subst e
    obtain ⟨hlt, hget⟩ := List.getElem?_eq_some_iff.mp h
    simp [hlt, hget]
  · simp

theorem State.setAddr_eq {s : State} {r : Nat} {g : Region} (h : s.regions[r]? = some g) (x : BitVec 27) :
    s.setAddr r x = { s with regions := s.regions.set r { g with addr := x } } := by
  simp [State.setAddr, modify_eq_set h]

theorem State.setRasr_eq {s : State} {r : Nat} {g : Region} (h : s.regions[r]? = some g) (x : Rasr) :
    s.setRasr r x = { s with regions := s.regions.set r { g with rasr := x } } := by
  simp [State.setRasr, modify_eq_set h]

/-- The region read after a write of one ADDR. -/
theorem State.setAddr_getElem? (s : State) (r : Nat) (x : BitVec 27) (q : Nat) :
    (s.setAddr r x).regions[q]? =
      if r = q then (s.regions[q]?).map (fun g => { g with addr := x }) else s.regions[q]? := by
  simp only [State.setAddr, List.getElem?_modify]
  split <;> simp

/-- The region read after a write of one RASR. -/
theorem State.setRasr_getElem? (s : State) (r : Nat) (x : Rasr) (q : Nat) :
    (s.setRasr r x).regions[q]? =
      if r = q then (s.regions[q]?).map (fun g => { g with rasr := x }) else s.regions[q]? := by
  simp only [State.setRasr, List.getElem?_modify]
  split <;> simp

/-! ### What register operations can do -/

/-- Everything a register operation that completes can do to the state, the answer apart: draw a value, or write
MPU_CTRL, RNR.REGION or one region. `w` says whether it is a write. -/
inductive RegEffect (s : State) : Bool → State → Prop where
  | nothing (w : Bool) : RegEffect s w s
  | draw : RegEffect s false s.drew
  | ctrl (c : Ctrl) (h : s.cfg.nregions.val ≠ 0) : RegEffect s true (s.setCtrl c)
  | select (n : BitVec 8) (h : n.toNat < s.cfg.nregions.val) : RegEffect s true (s.select n)
  | addr (addr : BitVec 27) (h : s.cfg.nregions.val ≠ 0) :
      RegEffect s true (s.setAddr s.rnr.toNat (storedAddr s.cfg s.rnr.toNat addr))
  | selectAddr (n : BitVec 4) (addr : BitVec 27) (h : n.toNat < s.cfg.nregions.val) :
      RegEffect s true ((s.select (n.zeroExtend 8)).setAddr n.toNat (storedAddr s.cfg n.toNat addr))
  | rasr (x : Rasr) (h : s.cfg.nregions.val ≠ 0) (hs : sizeTooSmall s.cfg s.rnr.toNat x = false) :
      RegEffect s true (s.setRasr s.rnr.toNat x)

/-- A defined register operation that completes: one effect, then its answer. -/
def RegNext (s : State) (w : Bool) (t : State) : Prop :=
  ∃ u a v, RegEffect s w u ∧ t = u.answer (.ok [defaultDescriptor a] v)

theorem absentRead_next {s t : State} {a : Word} (h : absentRead s a = .next t) : RegNext s false t := by
  simp only [absentRead, next_inj] at h
  exact ⟨_, a, _, .draw, h.symm⟩

theorem absentWrite_next {s t : State} {a v : Word} (h : absentWrite s a v = .next t) : RegNext s true t := by
  unfold absentWrite at h
  split at h
  · rw [next_inj] at h; exact ⟨_, a, _, .nothing true, h.symm⟩
  · simp at h

/-- An operation on the selected region runs on the region RNR.REGION names, once it has been written. -/
theorem withSelected_next {s t : State} {op : Nat → Region → Out} (h : withSelected s op = .next t) :
    s.rnrWritten = true ∧ ∃ g, s.regions[s.rnr.toNat]? = some g ∧ op s.rnr.toNat g = .next t := by
  unfold withSelected at h
  split at h
  · simp at h
  · rename_i hw
    split at h
    · simp at h
    · rename_i g hg
      exact ⟨by simpa using hw, g, hg, h⟩

theorem withSelected_of_some {s : State} {g : Region} (hw : s.rnrWritten = true)
    (hg : s.regions[s.rnr.toNat]? = some g) (op : Nat → Region → Out) : withSelected s op = op s.rnr.toNat g := by
  simp [withSelected, hw, hg]

theorem withSelected_of_unwritten {s : State} (hw : s.rnrWritten = false) (op : Nat → Region → Out) :
    withSelected s op = .refused .regionNotSelected := by
  simp [withSelected, hw]

theorem readRbarWindow_next {s t : State} {a : Word} (h : readRbarWindow s a = .next t) : RegNext s false t := by
  unfold readRbarWindow at h
  split at h
  · exact absentRead_next h
  · obtain ⟨-, g, -, h⟩ := withSelected_next h
    rw [next_inj] at h; exact ⟨_, a, _, .nothing false, h.symm⟩

theorem writeRbarValid0_next {s t : State} {a : Word} {addr : BitVec 27} {n : BitVec 4}
    (h : writeRbarValid0 s a addr n = .next t) : RegNext s true t := by
  unfold writeRbarValid0 at h
  split at h
  · exact absentWrite_next h
  · rename_i hm
    obtain ⟨-, g, -, h⟩ := withSelected_next h
    rw [next_inj] at h
    exact ⟨_, a, _, .addr addr (noMpu_eq_false.mp (by simpa using hm)), h.symm⟩

theorem writeRbarValid1_next {s t : State} {a : Word} {addr : BitVec 27} {n : BitVec 4}
    (h : writeRbarValid1 s a addr n = .next t) : RegNext s true t := by
  unfold writeRbarValid1 at h
  split at h
  · exact absentWrite_next h
  · split at h
    · simp at h
    · rename_i hn
      rw [next_inj] at h
      refine ⟨_, a, _, .selectAddr n addr ?_, h.symm⟩
      simp only [Bool.and_eq_true, decide_eq_true_eq, not_and, not_le] at hn
      have := n.isLt
      by_cases h16 : s.cfg.nregions.val < 16
      · exact hn h16
      · omega

theorem readRasrWindow_next {s t : State} {a : Word} (h : readRasrWindow s a = .next t) : RegNext s false t := by
  unfold readRasrWindow at h
  split at h
  · exact absentRead_next h
  · obtain ⟨-, g, -, h⟩ := withSelected_next h
    rw [next_inj] at h; exact ⟨_, a, _, .draw, h.symm⟩

theorem writeRasrWindow_next {s t : State} {a v : Word} (h : writeRasrWindow s a v = .next t) : RegNext s true t := by
  unfold writeRasrWindow at h
  split at h
  · exact absentWrite_next h
  · rename_i hm
    obtain ⟨-, g, -, h⟩ := withSelected_next h
    split at h
    · simp at h
    · rename_i hs
      rw [next_inj] at h
      exact ⟨_, a, _, .rasr (rasrOfWord v) (noMpu_eq_false.mp (by simpa using hm)) (by simpa using hs), h.symm⟩

theorem reservedAccess_next {s t : State} {a : Word} {op : RegOp} (h : reservedAccess s a op = .next t) :
    RegNext s (match op with | .read => false | .write _ => true) t := by
  unfold reservedAccess at h
  split at h
  · cases op with
    | read => exact absentRead_next h
    | write v => exact absentWrite_next h
  · simp at h

/-- Everything an access to the register block that completes can do. -/
theorem exec_register_next {i : Instr} {r : RegAccess} {w : Bool} {s t : State} (hi : regAccessOf i = some (r, w))
    (h : exec i s = .next t) : (Unprivileged r ∧ t = takeBusFault s) ∨ (Proper r ∧ RegNext s w t) := by
  cases i with
  | readMpuType r' =>
    simp only [regAccessOf, Option.some.injEq, Prod.mk.injEq] at hi; obtain ⟨rfl, rfl⟩ := hi
    refine (regGate_next h).imp_right fun ⟨hp, h⟩ => ⟨hp, ?_⟩
    rw [next_inj] at h; exact ⟨_, _, _, .draw, h.symm⟩
  | writeMpuType r' v =>
    simp only [regAccessOf, Option.some.injEq, Prod.mk.injEq] at hi; obtain ⟨rfl, rfl⟩ := hi
    refine (regGate_next h).imp_right fun ⟨hp, h⟩ => ⟨hp, ?_⟩
    split at h
    · rw [next_inj] at h; exact ⟨_, _, _, .nothing true, h.symm⟩
    · simp at h
  | readMpuCtrl r' =>
    simp only [regAccessOf, Option.some.injEq, Prod.mk.injEq] at hi; obtain ⟨rfl, rfl⟩ := hi
    refine (regGate_next h).imp_right fun ⟨hp, h⟩ => ⟨hp, ?_⟩
    split at h
    · rw [next_inj] at h; exact ⟨_, _, _, .nothing false, h.symm⟩
    · split at h
      · rw [next_inj] at h; exact ⟨_, _, _, .draw, h.symm⟩
      · rw [next_inj] at h; exact ⟨_, _, _, .nothing false, h.symm⟩
  | writeMpuCtrl r' v =>
    simp only [regAccessOf, Option.some.injEq, Prod.mk.injEq] at hi; obtain ⟨rfl, rfl⟩ := hi
    refine (regGate_next h).imp_right fun ⟨hp, h⟩ => ⟨hp, ?_⟩
    split at h
    · rw [next_inj] at h; exact ⟨_, _, _, .nothing true, h.symm⟩
    · rename_i hm
      rw [next_inj] at h
      exact ⟨_, _, _, .ctrl _ (noMpu_eq_false.mp (by simpa using hm)), h.symm⟩
  | readMpuRnr r' =>
    simp only [regAccessOf, Option.some.injEq, Prod.mk.injEq] at hi; obtain ⟨rfl, rfl⟩ := hi
    refine (regGate_next h).imp_right fun ⟨hp, h⟩ => ⟨hp, ?_⟩
    split at h
    · exact absentRead_next h
    · rw [next_inj] at h; exact ⟨_, _, _, .draw, h.symm⟩
  | writeMpuRnr r' v =>
    simp only [regAccessOf, Option.some.injEq, Prod.mk.injEq] at hi; obtain ⟨rfl, rfl⟩ := hi
    refine (regGate_next h).imp_right fun ⟨hp, h⟩ => ⟨hp, ?_⟩
    split at h
    · exact absentWrite_next h
    · split at h
      · simp at h
      · rw [next_inj] at h; exact ⟨_, _, _, .select _ (by omega), h.symm⟩
  | readMpuRbar r' | readMpuRbarA1 r' | readMpuRbarA2 r' | readMpuRbarA3 r' =>
    simp only [regAccessOf, Option.some.injEq, Prod.mk.injEq] at hi; obtain ⟨rfl, rfl⟩ := hi
    exact (regGate_next h).imp_right fun ⟨hp, h⟩ => ⟨hp, readRbarWindow_next h⟩
  | writeMpuRbarValid0 r' a n | writeMpuRbarA1Valid0 r' a n | writeMpuRbarA2Valid0 r' a n
  | writeMpuRbarA3Valid0 r' a n =>
    simp only [regAccessOf, Option.some.injEq, Prod.mk.injEq] at hi; obtain ⟨rfl, rfl⟩ := hi
    exact (regGate_next h).imp_right fun ⟨hp, h⟩ => ⟨hp, writeRbarValid0_next h⟩
  | writeMpuRbarValid1 r' a n | writeMpuRbarA1Valid1 r' a n | writeMpuRbarA2Valid1 r' a n
  | writeMpuRbarA3Valid1 r' a n =>
    simp only [regAccessOf, Option.some.injEq, Prod.mk.injEq] at hi; obtain ⟨rfl, rfl⟩ := hi
    exact (regGate_next h).imp_right fun ⟨hp, h⟩ => ⟨hp, writeRbarValid1_next h⟩
  | readMpuRasr r' | readMpuRasrA1 r' | readMpuRasrA2 r' | readMpuRasrA3 r' =>
    simp only [regAccessOf, Option.some.injEq, Prod.mk.injEq] at hi; obtain ⟨rfl, rfl⟩ := hi
    exact (regGate_next h).imp_right fun ⟨hp, h⟩ => ⟨hp, readRasrWindow_next h⟩
  | writeMpuRasr r' v | writeMpuRasrA1 r' v | writeMpuRasrA2 r' v | writeMpuRasrA3 r' v =>
    simp only [regAccessOf, Option.some.injEq, Prod.mk.injEq] at hi; obtain ⟨rfl, rfl⟩ := hi
    exact (regGate_next h).imp_right fun ⟨hp, h⟩ => ⟨hp, writeRasrWindow_next h⟩
  | reservedEDBC r' op =>
    cases op <;>
    · simp only [regAccessOf, Option.some.injEq, Prod.mk.injEq] at hi; obtain ⟨rfl, rfl⟩ := hi
      exact (regGate_next h).imp_right fun ⟨hp, h⟩ => ⟨hp, reservedAccess_next h⟩
  | reservedEDC0 r' j op | reservedEDE0 r' j op =>
    cases op <;>
    · simp only [regAccessOf, Option.some.injEq, Prod.mk.injEq] at hi; obtain ⟨rfl, rfl⟩ := hi
      exact (regGate_next h).imp_right fun ⟨hp, h⟩ => ⟨hp, reservedAccess_next h⟩
  | validateAddress | ldrbt | ldrht | ldrsbt | ldrsht | ldrt | strbt | strht | strt => simp [regAccessOf] at hi

/-! ### Verdicts -/

/-- Everything a settled verdict can do: the operation, or the fault. -/
theorem settle_next {s t : State} {p : ProcInputs} {k : AccType} {v : Verdict} {done : List AddressDescriptor → State}
    (h : settle s p k v done = .next t) :
    (∃ ds, v = .ok ds ∧ t = done ds) ∨ (∃ a, v = .violation a ∧ t = takeMemManage s p k a) := by
  unfold settle at h
  split at h
  · rw [next_inj] at h; exact .inl ⟨_, rfl, h.symm⟩
  · rw [next_inj] at h; exact .inr ⟨_, rfl, h.symm⟩
  · simp at h

@[simp] theorem settle_ok (s : State) (p : ProcInputs) (k : AccType) (ds : List AddressDescriptor)
    (done : List AddressDescriptor → State) : settle s p k (.ok ds) done = .next (done ds) := rfl

@[simp] theorem settle_violation (s : State) (p : ProcInputs) (k : AccType) (a : Word)
    (done : List AddressDescriptor → State) : settle s p k (.violation a) done = .next (takeMemManage s p k a) := rfl

@[simp] theorem settle_refuse (s : State) (p : ProcInputs) (k : AccType) (e : Refusal)
    (done : List AddressDescriptor → State) : settle s p k (.refuse e) done = .refused e := rfl

/-- Everything taking a MemManage writes: the syndrome, the lockup at priority below 0, and the answer. -/
theorem takeMemManage_eq (s : State) (p : ProcInputs) (k : AccType) (a : Word) :
    takeMemManage s p k a =
      { s with
        mmfsr := syndromeBits s.mmfsr k
        mmar := syndromeAddress s.mmar k a
        lockedUp := s.lockedUp || p.prioBelowZero
        reply := if p.prioBelowZero then .lockup else .memManage } := by
  unfold takeMemManage
  cases p.prioBelowZero <;> simp [State.setSyndrome, State.answer, State.lockUp]

/-- Taking a MemManage, in the terms claims are stated in. -/
theorem takeMemManage_afterViolation (s : State) (p : ProcInputs) (k : AccType) (a : Word) :
    takeMemManage s p k a = s.afterViolation p k a := by
  rw [takeMemManage_eq, State.afterViolation]
  cases k <;> simp [syndromeBits, syndromeAddress]

/-! ### Unprivileged loads and stores -/

theorem touchesRegisterBlock_iff {a : Word} {n : Nat} : touchesRegisterBlock a n = true ↔ TouchesBlock a n := by
  simp [touchesRegisterBlock, TouchesBlock, spanOf, inRegisterBlock, byteAddr, BitVec.le_def]

theorem isPPB_iff {a : Word} : isPPB a = true ↔ OnPPB a := by
  simp only [isPPB, OnPPB, beq_iff_eq, BitVec.toNat_eq, BitVec.extractLsb'_toNat, Nat.shiftRight_eq_div_pow]
  have := a.isLt
  simp
  omega

theorem touchesPPB_iff {a : Word} {n : Nat} : touchesPPB a n = true ↔ TouchesPPB a n := by
  simp [touchesPPB, TouchesPPB, spanOf, isPPB_iff, byteAddr]

/-- Everything an unprivileged load that completes can do. -/
theorem unprivLoad_next {s t : State} {p : ProcInputs} {a : Word} {size : AccSize} {sgn : Bool}
    (h : unprivLoad s p a size sgn = .next t) :
    (TouchesBlock a (bytesOf size) ∧ t = takeBusFault s) ∨
    (¬ TouchesBlock a (bytesOf size) ∧
      ((∃ b, validateAccess s p a (bytesOf size) .unpriv false = .violation b ∧ t = takeMemManage s p .unpriv b) ∨
       (∃ ds v, validateAccess s p a (bytesOf size) .unpriv false = .ok ds ∧
        (t = s.answer (.ok ds (some v)) ∨ t = s.drew.answer (.ok ds (some v)))))) := by
  simp only [unprivLoad] at h
  split at h
  · rw [next_inj] at h
    exact .inl ⟨touchesRegisterBlock_iff.mp (by assumption), h.symm⟩
  · rename_i hb
    refine .inr ⟨fun hc => hb (touchesRegisterBlock_iff.mpr hc), ?_⟩
    rcases settle_next h with ⟨ds, hv, rfl⟩ | ⟨b, hv, rfl⟩
    · refine .inr ⟨ds, extendLoad size sgn (loadValue s a (bytesOf size)), hv, ?_⟩
      split
      · exact .inr rfl
      · exact .inl rfl
    · exact .inl ⟨b, hv, rfl⟩

/-- Everything an unprivileged store that completes can do. -/
theorem unprivStore_next {s t : State} {p : ProcInputs} {a v : Word} {size : AccSize}
    (h : unprivStore s p a size v = .next t) :
    (TouchesBlock a (bytesOf size) ∧ t = takeBusFault s) ∨
    (¬ TouchesBlock a (bytesOf size) ∧
      ((∃ b, validateAccess s p a (bytesOf size) .unpriv true = .violation b ∧ t = takeMemManage s p .unpriv b) ∨
       (∃ ds, validateAccess s p a (bytesOf size) .unpriv true = .ok ds ∧
        t = (s.setMem (storeValue s a (bytesOf size) v)).answer (.ok ds none)))) := by
  simp only [unprivStore] at h
  split at h
  · rw [next_inj] at h
    exact .inl ⟨touchesRegisterBlock_iff.mp (by assumption), h.symm⟩
  · rename_i hb
    refine .inr ⟨fun hc => hb (touchesRegisterBlock_iff.mpr hc), ?_⟩
    rcases settle_next h with ⟨ds, hv, rfl⟩ | ⟨b, hv, rfl⟩
    · exact .inr ⟨ds, hv, rfl⟩
    · exact .inl ⟨b, hv, rfl⟩

/-! ### One transaction -/

/-- Everything an operation that completes can do to the state: a register operation's effect, a BusFault, a MemManage,
an answer with perhaps a drawn value, or a store. -/
inductive Effect (i : Instr) (s : State) : State → Prop where
  | register (r : RegAccess) (w : Bool) (t : State) (hi : regAccessOf i = some (r, w)) (hp : Proper r)
      (h : RegNext s w t) : Effect i s t
  | busFaultRegister (r : RegAccess) (w : Bool) (hi : regAccessOf i = some (r, w)) (hu : Unprivileged r) :
      Effect i s (takeBusFault s)
  | busFaultUnpriv (p : ProcInputs) (a : Word) (size : AccSize) (w : Bool)
      (hi : unprivAccessOf i = some (p, a, size, w)) (hb : TouchesBlock a (bytesOf size)) :
      Effect i s (takeBusFault s)
  | memManage (p : ProcInputs) (k : AccType) (a : Word) : Effect i s (takeMemManage s p k a)
  | answer (ds : List AddressDescriptor) (v : Option Word) : Effect i s (s.answer (.ok ds v))
  | answerDrew (ds : List AddressDescriptor) (v : Option Word) : Effect i s (s.drew.answer (.ok ds v))
  | store (p : ProcInputs) (a v : Word) (size : AccSize) (ds : List AddressDescriptor)
      (hi : unprivAccessOf i = some (p, a, size, true)) :
      Effect i s ((s.setMem (storeValue s a (bytesOf size) v)).answer (.ok ds none))

theorem unprivLoad_effect {i : Instr} {s t : State} {p : ProcInputs} {a : Word} {size : AccSize} {sgn : Bool}
    (hi : unprivAccessOf i = some (p, a, size, false)) (h : unprivLoad s p a size sgn = .next t) : Effect i s t := by
  rcases unprivLoad_next h with ⟨hb, rfl⟩ | ⟨-, ⟨b, -, rfl⟩ | ⟨ds, v, -, rfl | rfl⟩⟩
  · exact .busFaultUnpriv p a size false hi hb
  · exact .memManage p .unpriv b
  · exact .answer ds _
  · exact .answerDrew ds _

theorem unprivStore_effect {i : Instr} {s t : State} {p : ProcInputs} {a v : Word} {size : AccSize}
    (hi : unprivAccessOf i = some (p, a, size, true)) (h : unprivStore s p a size v = .next t) : Effect i s t := by
  rcases unprivStore_next h with ⟨hb, rfl⟩ | ⟨-, ⟨b, -, rfl⟩ | ⟨ds, -, rfl⟩⟩
  · exact .busFaultUnpriv p a size true hi hb
  · exact .memManage p .unpriv b
  · exact .store p a v size ds hi

/-- Every operation that completes has one of the effects above. -/
theorem exec_effect {i : Instr} {s t : State} (h : exec i s = .next t) : Effect i s t := by
  by_cases hr : ∃ r w, regAccessOf i = some (r, w)
  · obtain ⟨r, w, hi⟩ := hr
    rcases exec_register_next hi h with ⟨hu, rfl⟩ | ⟨hp, hn⟩
    · exact .busFaultRegister r w hi hu
    · exact .register r w t hi hp hn
  · cases i with
    | validateAddress p a k w =>
      rcases settle_next h with ⟨ds, -, rfl⟩ | ⟨b, -, rfl⟩
      · exact .answer ds none
      · exact .memManage p k b
    | ldrbt p a => exact unprivLoad_effect rfl h
    | ldrht p a => exact unprivLoad_effect rfl h
    | ldrsbt p a => exact unprivLoad_effect rfl h
    | ldrsht p a => exact unprivLoad_effect rfl h
    | ldrt p a => exact unprivLoad_effect rfl h
    | strbt p a v => exact unprivStore_effect rfl h
    | strht p a v => exact unprivStore_effect rfl h
    | strt p a v => exact unprivStore_effect rfl h
    | reservedEDBC r op => cases op <;> exact absurd ⟨_, _, rfl⟩ hr
    | reservedEDC0 r j op => cases op <;> exact absurd ⟨_, _, rfl⟩ hr
    | reservedEDE0 r j op => cases op <;> exact absurd ⟨_, _, rfl⟩ hr
    | _ => exact absurd ⟨_, _, rfl⟩ hr

end Sys2Proof.Machine
end

