-- ==== Sys2Proof/Laws/Validate.lean ====
section
/-! SUPPORT. The check of one address: a region of the loop against the arithmetic of the claims (InRegion, Contains,
IllegalRegion), what the loop comes to, and one lemma for each arm of ValidateAddress. -/

namespace Sys2Proof.Machine

/-! ### One region -/

theorem Region.base_toNat (g : Region) : g.base.toNat = 32 * g.addr.toNat := by
  have := g.addr.isLt
  simp only [Region.base, placed, BitVec.toNat_shiftLeft, BitVec.toNat_setWidth, Nat.shiftLeft_eq]
  omega

theorem Rasr.lsbit_eq (x : Rasr) : x.lsbit = x.size.toNat + 1 := rfl

/-- The model's address match is membership in the region's aligned block (R133). -/
theorem Region.addressMatches_iff (g : Region) (a : Word) : g.addressMatches a = true ↔ InRegion g a := by
  have ha := a.isLt
  have hb := g.addr.isLt
  have hs := g.rasr.size.isLt
  unfold Region.addressMatches InRegion Region.start
  simp only [Rasr.lsbit_eq, Bool.or_eq_true, beq_iff_eq, BitVec.toNat_eq, BitVec.toNat_ushiftRight,
    Nat.shiftRight_eq_div_pow, Region.base_toNat]
  generalize hl : g.rasr.size.toNat + 1 = l
  have hpos : 0 < 2 ^ l := Nat.two_pow_pos l
  constructor
  · rintro (h | h)
    · subst h
      omega
    · rw [← h]
      have := Nat.div_add_mod a.toNat (2 ^ l)
      have := Nat.mod_lt a.toNat hpos
      rw [Nat.mul_comm]; omega
  · rintro ⟨h1, h2⟩
    refine .inr ?_
    rw [Nat.div_eq_iff hpos]
    constructor
    · exact h1
    · omega

/-- The number the address's three bits below `lsbit` spell is the eighth of the region it lies in (R100). -/
theorem Region.subregion_toNat {g : Region} {a : Word} (h : InRegion g a) (hs : 7 ≤ g.rasr.size.toNat) :
    (g.subregion a).toNat = g.eighth a := by
  obtain ⟨h1, h2⟩ := h
  unfold Region.subregion Region.eighth
  simp only [Rasr.lsbit_eq, BitVec.extractLsb'_toNat, Nat.shiftRight_eq_div_pow]
  unfold Region.start at *
  generalize hl : g.rasr.size.toNat + 1 = l at *
  obtain ⟨k, rfl⟩ : ∃ k, l = k + 3 := ⟨l - 3, by omega⟩
  generalize 32 * g.addr.toNat / 2 ^ (k + 3) = q at *
  have hpos : 0 < 2 ^ k := Nat.two_pow_pos k
  simp only [Nat.pow_add, Nat.add_sub_cancel] at *
  rw [show (2 : Nat) ^ 3 = 8 from rfl] at *
  rw [Nat.mul_div_cancel _ (by omega : 0 < 8)]
  obtain ⟨d, hd⟩ := Nat.exists_eq_add_of_le h1
  rw [hd, Nat.add_sub_cancel_left, show q * (2 ^ k * 8) = 2 ^ k * (q * 8) by ring, Nat.mul_add_div hpos]
  have : d / 2 ^ k < 8 := by
    rw [Nat.div_lt_iff_lt_mul hpos]; omega
  generalize d / 2 ^ k = x at *
  omega

theorem Region.illegal_eq_none (g : Region) : g.illegal = none ↔ ¬ IllegalRegion g := by
  unfold Region.illegal IllegalRegion
  rw [Rasr.lsbit_eq]
  cases he : g.rasr.enable
  · simp
  · by_cases h5 : g.rasr.size.toNat < 4
    · simp [h5, show g.rasr.size.toNat + 1 < 5 by omega]
    · by_cases h8 : g.rasr.size.toNat < 7
      · by_cases hz : g.rasr.srd = 0#8 <;> simp [h5, h8, hz, show ¬ g.rasr.size.toNat + 1 < 5 by omega]
      · simp [h5, h8, show ¬ g.rasr.size.toNat + 1 < 5 by omega, show ¬ g.rasr.size.toNat + 1 < 8 by omega]

/-- A legal region covers an address exactly when it contains it (R131, R133, R134). -/
theorem Region.covers_iff {g : Region} (hl : ¬ IllegalRegion g) (a : Word) : g.covers a = true ↔ Contains g a := by
  unfold Region.covers Contains
  simp only [Bool.and_eq_true, Region.addressMatches_iff, and_assoc]
  refine and_congr_right fun he => and_congr_right fun hin => ?_
  unfold Region.subregionEnabled
  by_cases h7 : 7 ≤ g.rasr.size.toNat
  · simp [h7, Region.subregion_toNat hin h7]
  · have : g.rasr.srd = 0#8 := by
      by_contra hz
      exact hl ⟨he, .inr ⟨by omega, hz⟩⟩
    simp [h7, this]

/-! ### The loop -/

/-- What a region that covers the address leaves (R135). -/
def Region.walk (g : Region) : Walk := { perms := g.rasr.perms, attr := .region g.rasr.texcb g.rasr.s, hit := true }

theorem regionLoop_cons (g : Region) (rest : List Region) (a : Word) (w : Walk) (h : g.illegal = none) :
    regionLoop (g :: rest) a w = regionLoop rest a (if g.covers a then g.walk else w) := by
  simp [regionLoop, h, Region.walk]

/-- Regions that do not contain the address leave the walk as it was. -/
theorem regionLoop_of_not_contains {gs : List Region} {a : Word} {w : Walk} (hl : ∀ g ∈ gs, ¬ IllegalRegion g)
    (hc : ∀ g ∈ gs, ¬ Contains g a) : regionLoop gs a w = .ok w := by
  induction gs with
  | nil => rfl
  | cons g rest ih =>
    have hg := hl g (by simp)
    rw [regionLoop_cons _ _ _ _ (g.illegal_eq_none.mpr hg),
      if_neg (by rw [Region.covers_iff hg]; exact hc g (by simp))]
    exact ih (fun x hx => hl x (by simp [hx])) (fun x hx => hc x (by simp [hx]))

/-- The last region that contains the address decides (R130). -/
theorem regionLoop_of_winner {gs : List Region} {a : Word} {w : Walk} {r : Nat} {g : Region}
    (hl : ∀ g ∈ gs, ¬ IllegalRegion g) (hr : gs[r]? = some g) (hc : Contains g a)
    (hlast : ∀ (q : Nat) (x : Region), r < q → gs[q]? = some x → ¬ Contains x a) : regionLoop gs a w = .ok g.walk := by
  induction gs generalizing r w with
  | nil => simp at hr
  | cons x rest ih =>
    have hx := hl x (by simp)
    have hrest : ∀ y ∈ rest, ¬ IllegalRegion y := fun y hy => hl y (by simp [hy])
    rw [regionLoop_cons _ _ _ _ (x.illegal_eq_none.mpr hx)]
    cases r with
    | zero =>
      simp only [List.getElem?_cons_zero, Option.some.injEq] at hr
      subst hr
      rw [if_pos ((Region.covers_iff hx a).mpr hc)]
      refine regionLoop_of_not_contains hrest fun y hy => ?_
      obtain ⟨q, hq⟩ := List.getElem?_of_mem hy
      exact hlast (q + 1) y (by omega) (by simpa using hq)
    | succ r =>
      refine ih hrest (by simpa using hr) fun q y hq hy => ?_
      exact hlast (q + 1) y (by omega) (by simpa using hy)

/-- An illegal enabled region refuses the access wherever it is (R132). -/
theorem regionLoop_of_illegal {gs : List Region} {a : Word} {w : Walk} {g : Region} (hg : g ∈ gs)
    (hi : IllegalRegion g) : ∃ e, regionLoop gs a w = .error e := by
  induction gs generalizing w with
  | nil => simp at hg
  | cons x rest ih =>
    cases hx : x.illegal with
    | some e => exact ⟨e, by simp [regionLoop, hx]⟩
    | none =>
      rw [regionLoop_cons _ _ _ _ hx]
      rcases List.mem_cons.mp hg with rfl | hm
      · exact absurd hi ((Region.illegal_eq_none _).mp hx)
      · exact ih hm

/-! ### Permissions -/

theorem permits_none (ap : BitVec 3) (priv w : Bool) : permits ap priv w = none ↔ ap = 4#3 := by
  revert ap priv w; decide

theorem permits_some_true (ap : BitVec 3) (priv w : Bool) : permits ap priv w = some true ↔ AllowedBy ap priv w := by
  unfold AllowedBy
  revert ap priv w; decide

theorem defaultPermissions_ap (a : Word) : (defaultPermissions a).ap = 3#3 := rfl

theorem isSystemSpace_iff {a : Word} : isSystemSpace a = true ↔ 0xE0000000 ≤ a.toNat := by
  have := a.isLt
  simp only [isSystemSpace, beq_iff_eq, BitVec.toNat_eq, BitVec.extractLsb'_toNat, Nat.shiftRight_eq_div_pow]
  simp
  omega

/-- The default map is execute-never in the ranges the claims name (R123). -/
theorem defaultPermissions_xn (a : Word) : (defaultPermissions a).xn = true ↔ DefaultExecuteNever a := by
  have := a.isLt
  have h29 : (a.extractLsb' 29 3).toNat = a.toNat / 2 ^ 29 := by
    simp only [BitVec.extractLsb'_toNat, Nat.shiftRight_eq_div_pow]; omega
  have key : ∀ x : BitVec 3, (x = 0#3 ↔ x.toNat = 0) ∧ (x = 1#3 ↔ x.toNat = 1) ∧ (x = 2#3 ↔ x.toNat = 2) ∧
      (x = 3#3 ↔ x.toNat = 3) ∧ (x = 4#3 ↔ x.toNat = 4) := by decide
  obtain ⟨k0, k1, k2, k3, k4⟩ := key (a.extractLsb' 29 3)
  rw [h29] at k0 k1 k2 k3 k4
  unfold DefaultExecuteNever defaultPermissions
  simp only [k0, k1, k2, k3, k4]
  split_ifs <;> simp <;> omega

theorem checkPermission_none (perms : Perms) (priv : Bool) (k : AccType) (w : Bool) :
    checkPermission perms priv k w = none ↔ perms.ap = 4#3 := by
  unfold checkPermission
  cases h : permits perms.ap priv w with
  | none => simp [(permits_none _ _ _).mp h]
  | some b =>
    simp only [reduceCtorEq, false_iff]
    intro hap
    rw [(permits_none _ _ _).mpr hap] at h
    simp at h

theorem checkPermission_true (perms : Perms) (priv : Bool) (k : AccType) (w : Bool) :
    checkPermission perms priv k w = some true ↔ AllowedBy perms.ap priv w ∧ (k = .ifetch → perms.xn = false) := by
  rw [← permits_some_true]
  unfold checkPermission
  cases h : permits perms.ap priv w with
  | none => simp
  | some b => cases b <;> cases hx : perms.xn <;> cases k <;> simp

theorem systemSpaceXN_ap (perms : Perms) (a : Word) : (systemSpaceXN perms a).ap = perms.ap := by
  unfold systemSpaceXN; split <;> rfl

theorem systemSpaceXN_xn (perms : Perms) (a : Word) :
    (systemSpaceXN perms a).xn = false ↔ perms.xn = false ∧ a.toNat < 0xE0000000 := by
  unfold systemSpaceXN
  split
  · rename_i h; rw [isSystemSpace_iff] at h
    simp only [reduceCtorEq, false_iff]; omega
  · rename_i h; rw [isSystemSpace_iff] at h
    simp only [iff_self_and]; omega

/-! ### ValidateAddress, one lemma for each thing the map comes to -/

/-- The walk of an access the default map answers. -/
def defaultWalk (a : Word) (hit : Bool) : Walk := { perms := defaultPermissions a, attr := .defaultMap, hit }

/-- What the default map makes of an access (R142 to R144). -/
theorem validateAddress_of_default {s : State} {p : ProcInputs} {a : Word} {k : AccType} {w : Bool}
    (h : acquire s p a k = .ok (defaultWalk a true)) : ByDefaultMap a k (validateAddress s p a k w) := by
  have hallow : ∀ priv : Bool, AllowedBy (systemSpaceXN (defaultPermissions a) a).ap priv w := by
    intro priv; rw [systemSpaceXN_ap, defaultPermissions_ap]; simp [AllowedBy]
  have hxn : (systemSpaceXN (defaultPermissions a) a).xn = false ↔ ¬ DefaultExecuteNever a := by
    rw [systemSpaceXN_xn, ← Bool.not_eq_true, defaultPermissions_xn]
    constructor
    · exact fun h => h.1
    · intro h
      refine ⟨h, ?_⟩
      unfold DefaultExecuteNever at h; omega
  have hv : validateAddress s p a k w =
      match checkPermission (systemSpaceXN (defaultPermissions a) a) (ispriv p k) k w with
      | none => .refuse .reservedAccessPermission
      | some true => .ok [{ physicaladdress := a, memattrs := Config.defaultMemAttrs a }]
      | some false => .violation a := by
    simp only [validateAddress, h]; rfl
  constructor
  · rintro ⟨rfl, hx⟩
    rw [hv]
    cases hc : checkPermission (systemSpaceXN (defaultPermissions a) a) (ispriv p .ifetch) .ifetch w with
    | none =>
      rw [checkPermission_none, systemSpaceXN_ap, defaultPermissions_ap] at hc
      exact absurd hc (by decide)
    | some b =>
      cases b with
      | false => rfl
      | true =>
        have := ((checkPermission_true _ _ _ _).mp hc).2 rfl
        exact absurd hx (hxn.mp this)
  · intro hn
    have : checkPermission (systemSpaceXN (defaultPermissions a) a) (ispriv p k) k w = some true :=
      (checkPermission_true _ _ _ _).mpr ⟨hallow _, fun hk => hxn.mpr fun hx => hn ⟨hk, hx⟩⟩
    rw [hv, this]

/-- No hit: a violation, whatever was to be done (R129). -/
theorem validateAddress_of_no_hit {s : State} {p : ProcInputs} {a : Word} {k : AccType} (w : Bool)
    (h : acquire s p a k = .ok (defaultWalk a false)) : validateAddress s p a k w = .violation a := by
  simp [validateAddress, h, defaultWalk]

theorem validateAddress_of_error {s : State} {p : ProcInputs} {a : Word} {k : AccType} (w : Bool) {e : Refusal}
    (h : acquire s p a k = .error e) : validateAddress s p a k w = .refuse e := by
  simp [validateAddress, h]

/-- A winning region whose attribute encoding is refused (R166). -/
theorem validateAddress_of_bad_attributes {s : State} {p : ProcInputs} {a : Word} {k : AccType} (w : Bool)
    {g : Region} {e : Refusal} (h : acquire s p a k = .ok g.walk)
    (hm : texDecode s.cfg g.rasr.texcb g.rasr.s = .error e) : validateAddress s p a k w = .refuse e := by
  simp [validateAddress, h, Region.walk, attributesOf, hm]

/-- A winning region decides by its AP and XN (R135, R136, R186). -/
theorem validateAddress_of_region {s : State} {p : ProcInputs} {a : Word} {k : AccType} {w : Bool} {g : Region}
    {m : MemAttrs} (h : acquire s p a k = .ok g.walk) (hm : texDecode s.cfg g.rasr.texcb g.rasr.s = .ok m) :
    (g.rasr.ap = 4#3 → validateAddress s p a k w = .refuse .reservedAccessPermission) ∧
    (g.rasr.ap ≠ 4#3 → RegionAllows g a (ispriv p k) k w →
      validateAddress s p a k w = .ok [{ physicaladdress := a, memattrs := m }]) ∧
    (g.rasr.ap ≠ 4#3 → ¬ RegionAllows g a (ispriv p k) k w → validateAddress s p a k w = .violation a) := by
  have hv : validateAddress s p a k w =
      match checkPermission (systemSpaceXN g.rasr.perms a) (ispriv p k) k w with
      | none => .refuse .reservedAccessPermission
      | some true => .ok [{ physicaladdress := a, memattrs := m }]
      | some false => .violation a := by
    simp only [validateAddress, h, Region.walk, attributesOf, hm, if_true] <;> rfl
  have hap : (systemSpaceXN g.rasr.perms a).ap = g.rasr.ap := systemSpaceXN_ap _ _
  have htrue : checkPermission (systemSpaceXN g.rasr.perms a) (ispriv p k) k w = some true ↔
      RegionAllows g a (ispriv p k) k w := by
    rw [checkPermission_true, hap, systemSpaceXN_xn]; rfl
  have hnone : checkPermission (systemSpaceXN g.rasr.perms a) (ispriv p k) k w = none ↔ g.rasr.ap = 4#3 := by
    rw [checkPermission_none, hap]
  refine ⟨fun h4 => ?_, fun _ hr => ?_, fun h4 hr => ?_⟩
  · rw [hv, hnone.mpr h4]
  · rw [hv, htrue.mpr hr]
  · rw [hv]
    cases hc : checkPermission (systemSpaceXN g.rasr.perms a) (ispriv p k) k w with
    | none => exact absurd (hnone.mp hc) h4
    | some b =>
      cases b with
      | false => rfl
      | true => exact absurd (htrue.mp hc) hr

/-! ### Which arm an access takes -/

theorem acquire_of_vector_or_ppb {s : State} {p : ProcInputs} {a : Word} {k : AccType}
    (h : k = .vectable ∨ OnPPB a) : acquire s p a k = .ok (defaultWalk a true) := by
  have : (k == .vectable || isPPB a) = true := by
    rcases h with rfl | h
    · rfl
    · simp [isPPB_iff.mpr h]
  simp [acquire, this, defaultWalk]

theorem acquire_of_off {s : State} {p : ProcInputs} (a : Word) (k : AccType) (h : s.MpuOff p) :
    acquire s p a k = .ok (defaultWalk a true) := by
  obtain ⟨hf, h | h⟩ := h
  · simp [acquire, hf, h, defaultWalk]
  · simp only [acquire, hf, h]
    split
    · rfl
    · cases s.ctrl.enable <;> rfl

theorem acquire_of_unpredictable {s : State} {p : ProcInputs} {a : Word} {k : AccType} (hk : k ≠ .vectable)
    (ha : ¬ OnPPB a) (he : s.ctrl.enable = false) (hf : s.ctrl.hfnmiena = true) :
    acquire s p a k = .error .unpredictableControl := by
  have : (k == .vectable || isPPB a) = false := by
    simp [hk, ← Bool.not_eq_true, isPPB_iff, ha]
  simp [acquire, this, he, hf]

/-- Arm 4: the regions, over the background of a privileged access (R129). -/
theorem acquire_of_on {s : State} {p : ProcInputs} {a : Word} {k : AccType} (hk : k ≠ .vectable) (ha : ¬ OnPPB a)
    (h : s.MpuOn p) :
    acquire s p a k = regionLoop s.regions a (defaultWalk a (s.ctrl.privdefena && ispriv p k)) := by
  have hc : (k == .vectable || isPPB a) = false := by
    simp [hk, ← Bool.not_eq_true, isPPB_iff, ha]
  obtain ⟨he, h⟩ := h
  have : (!s.ctrl.hfnmiena && p.prioBelowZero) = false := by
    rcases h with h | h <;> simp [h]
  simp [acquire, hc, he, this, defaultWalk]

theorem ispriv_iff {p : ProcInputs} {k : AccType} : ispriv p k = true ↔ PrivilegedAccess p k := by
  cases k <;> simp [ispriv, PrivilegedAccess]

theorem acquire_of_winner {s : State} {p : ProcInputs} {a : Word} {k : AccType} {g : Region} (hk : k ≠ .vectable)
    (ha : ¬ OnPPB a) (h : s.MpuOn p) (hl : s.RegionsLegal) (hw : s.Winner a g) : acquire s p a k = .ok g.walk := by
  obtain ⟨r, hr, hc, hlast⟩ := hw
  rw [acquire_of_on hk ha h, regionLoop_of_winner hl hr hc hlast]

theorem acquire_of_unmapped {s : State} {p : ProcInputs} {a : Word} {k : AccType} (hk : k ≠ .vectable)
    (ha : ¬ OnPPB a) (h : s.MpuOn p) (hl : s.RegionsLegal) (hu : s.Unmapped a) :
    acquire s p a k = .ok (defaultWalk a (s.ctrl.privdefena && ispriv p k)) := by
  rw [acquire_of_on hk ha h, regionLoop_of_not_contains hl hu]

theorem acquire_of_illegal {s : State} {p : ProcInputs} {a : Word} {k : AccType} (hk : k ≠ .vectable)
    (ha : ¬ OnPPB a) (h : s.MpuOn p) (hl : ¬ s.RegionsLegal) : ∃ e, acquire s p a k = .error e := by
  unfold State.RegionsLegal at hl
  push Not at hl
  obtain ⟨g, hg, hi⟩ := hl
  rw [acquire_of_on hk ha h]
  exact regionLoop_of_illegal hg hi

/-! ### Accesses of several bytes -/

/-- A call that passes gives one descriptor, of the address presented (R3, R19). -/
theorem validateAddress_ok {s : State} {p : ProcInputs} {a : Word} {k : AccType} {w : Bool}
    {ds : List AddressDescriptor} (h : validateAddress s p a k w = .ok ds) :
    ∃ m, ds = [{ physicaladdress := a, memattrs := m }] := by
  unfold validateAddress at h
  split at h
  · simp at h
  · split at h
    · split at h
      · simp at h
      · split at h
        · simp at h
        · simp only [Verdict.ok.injEq] at h; exact ⟨_, h.symm⟩
        · simp at h
    · simp at h

/-- A call that fails names the address presented (R139). -/
theorem validateAddress_violation {s : State} {p : ProcInputs} {a b : Word} {k : AccType} {w : Bool}
    (h : validateAddress s p a k w = .violation b) : b = a := by
  unfold validateAddress at h
  split at h
  · simp at h
  · split at h
    · split at h
      · simp at h
      · split at h
        · simp at h
        · simp at h
        · simp only [Verdict.violation.injEq] at h; exact h.symm
    · simp only [Verdict.violation.injEq] at h; exact h.symm

/-- Checking every address of a list passes exactly when every call passes, one descriptor each. -/
theorem validateEach_of_all_ok {s : State} {p : ProcInputs} {k : AccType} {w : Bool} {l : List Word}
    (h : ∀ a ∈ l, ∃ ds, validateAddress s p a k w = .ok ds) :
    ∃ ds, validateEach s p k w l = .ok ds ∧ ds.length = l.length ∧
      ∀ d ∈ ds, ∃ a ∈ l, validateAddress s p a k w = .ok [d] := by
  induction l with
  | nil => exact ⟨[], rfl, rfl, by simp⟩
  | cons a rest ih =>
    obtain ⟨ds, hds⟩ := h a (by simp)
    obtain ⟨m, rfl⟩ := validateAddress_ok hds
    obtain ⟨more, hm, hlen, hall⟩ := ih fun x hx => h x (by simp [hx])
    refine ⟨_, by simp only [validateEach, hds, hm]; rfl, by simp [hlen], ?_⟩
    intro d hd
    simp only [List.cons_append, List.nil_append, List.mem_cons] at hd
    rcases hd with rfl | hd
    · exact ⟨a, by simp, hds⟩
    · obtain ⟨x, hx, hxd⟩ := hall d hd
      exact ⟨x, by simp [hx], hxd⟩

/-- The descriptors of a sequence of calls are those of its addresses, in order. -/
theorem validateEach_ok_addresses {s : State} {p : ProcInputs} {k : AccType} {w : Bool} {l : List Word}
    {ds : List AddressDescriptor} (h : validateEach s p k w l = .ok ds) : ds.map (·.physicaladdress) = l := by
  induction l generalizing ds with
  | nil => simp only [validateEach, Verdict.ok.injEq] at h; subst h; rfl
  | cons a rest ih =>
    simp only [validateEach] at h
    cases hv : validateAddress s p a k w with
    | ok d =>
      obtain ⟨m, rfl⟩ := validateAddress_ok hv
      cases hr : validateEach s p k w rest with
      | ok more => simp only [hv, hr, Verdict.ok.injEq] at h; subst h; simp [ih hr]
      | violation b => simp [hv, hr] at h
      | refuse r => simp [hv, hr] at h
    | violation b => simp [hv] at h
    | refuse r => simp [hv] at h

/-- A sequence of calls that all pass gives their descriptors in order. -/
theorem validateEach_of_each_ok {s : State} {p : ProcInputs} {k : AccType} {w : Bool} {ks : List Nat} {f : Nat → Word}
    {d : Nat → AddressDescriptor} (h : ∀ j ∈ ks, validateAddress s p (f j) k w = .ok [d j]) :
    validateEach s p k w (ks.map f) = .ok (ks.map d) := by
  induction ks with
  | nil => rfl
  | cons j rest ih =>
    simp only [List.map_cons, validateEach, h j (by simp), ih fun i hi => h i (by simp [hi]), List.cons_append,
      List.nil_append]

/-- The first call that does not pass decides. -/
theorem validateEach_of_first {s : State} {p : ProcInputs} {k : AccType} {w : Bool} {before rest : List Word}
    {a : Word} (h : ∀ x ∈ before, ∃ ds, validateAddress s p x k w = .ok ds)
    (ha : ∀ ds, validateAddress s p a k w ≠ .ok ds) :
    validateEach s p k w (before ++ a :: rest) = validateAddress s p a k w := by
  induction before with
  | nil =>
    simp only [List.nil_append, validateEach]
    cases hv : validateAddress s p a k w with
    | ok ds => exact absurd hv (ha ds)
    | violation b => rfl
    | refuse r => rfl
  | cons x more ih =>
    obtain ⟨ds, hds⟩ := h x (by simp)
    have := ih fun y hy => h y (by simp [hy])
    simp only [List.cons_append, validateEach, hds, this]
    cases hv : validateAddress s p a k w with
    | ok ds => exact absurd hv (ha ds)
    | violation b => rfl
    | refuse r => rfl

/-! ### One access of several bytes -/

theorem naturallyAligned_iff {a : Word} {n : Nat} : naturallyAligned a n = true ↔ NaturallyAligned a n := by
  simp only [naturallyAligned, NaturallyAligned, Bool.and_eq_true, Bool.or_eq_true, beq_iff_eq]
  refine and_congr_left fun _ => ⟨?_, ?_⟩
  · rintro (((((rfl | rfl) | rfl) | rfl) | rfl) | rfl)
    exacts [⟨0, by decide⟩, ⟨1, by decide⟩, ⟨2, by decide⟩, ⟨3, by decide⟩, ⟨4, by decide⟩, ⟨5, by decide⟩]
  · rintro ⟨j, hj, rfl⟩
    interval_cases j <;> simp

/-- The accesses of the unprivileged instructions are naturally aligned at multiples of their size. -/
theorem naturallyAligned_bytesOf {a : Word} {z : AccSize} :
    NaturallyAligned a (bytesOf z) ↔ a.toNat % bytesOf z = 0 := by
  refine ⟨And.right, fun h => ⟨?_, h⟩⟩
  cases z
  exacts [⟨2, by decide⟩, ⟨0, by decide⟩, ⟨1, by decide⟩, ⟨3, by decide⟩]

theorem validateAccess_of_aligned {s : State} {p : ProcInputs} {a : Word} {n : Nat} {k : AccType} {w : Bool}
    (h : NaturallyAligned a n) : validateAccess s p a n k w = validateAddress s p a k w := by
  rw [validateAccess, if_pos (naturallyAligned_iff.mpr h)]

theorem validateAccess_of_unaligned {s : State} {p : ProcInputs} {a : Word} {n : Nat} {k : AccType} {w : Bool}
    (h : ¬ NaturallyAligned a n) : validateAccess s p a n k w = validateEach s p k w (spanOf a n) := by
  rw [validateAccess, if_neg (by rw [naturallyAligned_iff]; exact h)]

/-- A byte whose check does not pass, the bytes before it having passed, decides an access checked byte by byte. -/
theorem validateEach_span_of_first {s : State} {p : ProcInputs} {a : Word} {n k : Nat} {t : AccType} {w : Bool}
    (hk : k < n) (hb : ∀ j, j < k → ∃ ds, validateAddress s p (byteAddr a j) t w = .ok ds)
    (ha : ∀ ds, validateAddress s p (byteAddr a k) t w ≠ .ok ds) :
    validateEach s p t w (spanOf a n) = validateAddress s p (byteAddr a k) t w := by
  have hr : List.range n = List.range k ++ k :: (List.range (n - k - 1)).map (fun i => k + 1 + i) := by
    rw [show k :: (List.range (n - k - 1)).map (fun i => k + 1 + i) = (List.range (n - k)).map (fun i => k + i) by
      rw [show n - k = (n - k - 1) + 1 by omega, List.range_succ_eq_map]
      simp [Function.comp_def, Nat.add_comm, Nat.add_left_comm]]
    rw [← List.range_add]; congr 1; omega
  rw [spanOf, hr, List.map_append, List.map_cons]
  refine validateEach_of_first ?_ ha
  intro x hx
  obtain ⟨j, hj, rfl⟩ := List.mem_map.mp hx
  exact hb j (List.mem_range.mp hj)

/-- An access whose first byte does not pass ends there, at every alignment. -/
theorem validateAccess_of_first_byte {s : State} {p : ProcInputs} {a : Word} {n : Nat} {k : AccType} {w : Bool}
    (hn : 0 < n) (h : ∀ ds, validateAddress s p a k w ≠ .ok ds) :
    validateAccess s p a n k w = validateAddress s p a k w := by
  by_cases ha : NaturallyAligned a n
  · exact validateAccess_of_aligned ha
  · have h0 : byteAddr a 0 = a := by simp [byteAddr]
    rw [validateAccess_of_unaligned ha, validateEach_span_of_first hn (by omega) (by rw [h0]; exact h), h0]

/-! ### The rows of the decision table -/

/-- An address has a winning region or none. -/
theorem winner_or_unmapped (s : State) (a : Word) : (∃ g, s.Winner a g) ∨ s.Unmapped a := by
  unfold State.Winner State.Unmapped
  induction s.regions with
  | nil => exact .inr (by simp)
  | cons x rest ih =>
    rcases ih with ⟨g, r, h1, h2, h3⟩ | ih
    · refine .inl ⟨g, r + 1, by simpa using h1, h2, fun q h hq hh => ?_⟩
      cases q with
      | zero => omega
      | succ q => exact h3 q h (by omega) (by simpa using hh)
    · by_cases hx : Contains x a
      · refine .inl ⟨x, 0, by simp, hx, fun q h hq hh => ?_⟩
        cases q with
        | zero => omega
        | succ q => exact ih h (List.mem_of_getElem? (by simpa using hh))
      · exact .inr (List.forall_mem_cons.mpr ⟨hx, ih⟩)

/-- Never both. -/
theorem not_unmapped_of_winner {s : State} {a : Word} {g : Region} (h : s.Winner a g) : ¬ s.Unmapped a :=
  fun hu => let ⟨_, h1, h2, _⟩ := h; hu g (List.mem_of_getElem? h1) h2

/-- The winner is one region. -/
theorem winner_unique {s : State} {a : Word} {g h : Region} (hg : s.Winner a g) (hh : s.Winner a h) : g = h := by
  obtain ⟨r, h1, h2, h3⟩ := hg
  obtain ⟨q, g1, g2, g3⟩ := hh
  rcases Nat.lt_trichotomy r q with hlt | rfl | hlt
  · exact absurd g2 (h3 q h hlt g1)
  · rw [h1] at g1; simpa using g1
  · exact absurd h2 (g3 r g hlt h1)

end Sys2Proof.Machine
end

