-- ==== Sys2Proof/Laws/Access.lean ====
section
/-! SUPPORT. What an unprivileged load reads and a store writes, against the byte, halfword and word reads the claims
are stated in, and the checks of an access the default map answers. -/

namespace Sys2Proof.Machine

/-! ### Loads -/

/-- Away from the PPB a load reads memory. -/
theorem loadByte_of_not_ppb {s : State} {a : Word} {n k : Nat} (hk : k < n) (h : ¬ TouchesPPB a n) :
    loadByte s a k = s.byteAt a k := by
  have : isPPB (a + BitVec.ofNat 32 k) = false := by
    rw [← Bool.not_eq_true, isPPB_iff]; exact fun hc => h ⟨k, hk, hc⟩
  simp [loadByte, State.byteAt, byteAddr, this]

theorem loadValue_one {s : State} {a : Word} (h : ¬ TouchesPPB a 1) : (loadValue s a 1).extractLsb' 0 8 = s.byteAt a 0 := by
  simp only [loadValue, List.range, List.range.loop, List.foldl, loadByte_of_not_ppb Nat.zero_lt_one h]
  apply BitVec.eq_of_getLsbD_eq
  intro i hi
  cases s.cfg.dataBigEndian <;> interval_cases i <;> simp [byteIndex]

theorem two_bytes (x y : Byte) :
    (0#32 ||| (x.zeroExtend 32 <<< 0) ||| (y.zeroExtend 32 <<< 8)).extractLsb' 0 16 = (y ++ x : BitVec 16) ∧
    (0#32 ||| (y.zeroExtend 32 <<< 8) ||| (x.zeroExtend 32 <<< 0)).extractLsb' 0 16 = (y ++ x : BitVec 16) := by
  constructor <;>
  · apply BitVec.eq_of_getLsbD_eq
    intro i hi
    rw [show (y ++ x : BitVec 16).getLsbD i = _ from BitVec.getLsbD_append]
    interval_cases i <;> simp

theorem loadValue_two {s : State} {a : Word} (h : ¬ TouchesPPB a 2) : (loadValue s a 2).extractLsb' 0 16 = s.halfAt a := by
  simp only [loadValue, List.range, List.range.loop, List.foldl, loadByte_of_not_ppb (k := 0) Nat.zero_lt_two h,
    loadByte_of_not_ppb (k := 1) Nat.one_lt_two h, State.halfAt]
  cases s.cfg.dataBigEndian
  · exact (two_bytes _ _).1
  · exact (two_bytes _ _).2

theorem four_bytes (x y z w : Byte) :
    0#32 ||| (x.zeroExtend 32 <<< 0) ||| (y.zeroExtend 32 <<< 8) ||| (z.zeroExtend 32 <<< 16)
      ||| (w.zeroExtend 32 <<< 24) = (w ++ z ++ y ++ x : BitVec 32) ∧
    0#32 ||| (w.zeroExtend 32 <<< 24) ||| (z.zeroExtend 32 <<< 16) ||| (y.zeroExtend 32 <<< 8)
      ||| (x.zeroExtend 32 <<< 0) = (w ++ z ++ y ++ x : BitVec 32) := by
  constructor <;>
  · apply BitVec.eq_of_getLsbD_eq
    intro i hi
    rw [show (w ++ z ++ y ++ x : BitVec 32).getLsbD i = _ from BitVec.getLsbD_append]
    rw [BitVec.getLsbD_append, BitVec.getLsbD_append]
    interval_cases i <;> simp

theorem loadValue_four {s : State} {a : Word} (h : ¬ TouchesPPB a 4) : loadValue s a 4 = s.wordAt a := by
  simp only [loadValue, List.range, List.range.loop, List.foldl,
    loadByte_of_not_ppb (k := 0) (show 0 < 4 by decide) h, loadByte_of_not_ppb (k := 1) (show 1 < 4 by decide) h,
    loadByte_of_not_ppb (k := 2) (show 2 < 4 by decide) h, loadByte_of_not_ppb (k := 3) (show 3 < 4 by decide) h,
    State.wordAt]
  cases s.cfg.dataBigEndian
  · exact (four_bytes _ _ _ _).1
  · exact (four_bytes _ _ _ _).2

/-! ### Stores -/

theorem byteAddr_toNat_inj {a : Word} {j k : Nat} (hj : j < 2 ^ 32) (hk : k < 2 ^ 32)
    (h : (byteAddr a j).toNat = (byteAddr a k).toNat) : j = k := by
  have ha := a.isLt
  simp only [byteAddr, BitVec.toNat_add, BitVec.toNat_ofNat] at h
  omega

/-- The memory after the bytes at the offsets of a list have been stored. -/
def storeBytes (s : State) (a : Word) (n : Nat) (v : Word) (ks : List Nat) (m : Memory) : Memory :=
  ks.foldl (fun m k =>
    let x := a + BitVec.ofNat 32 k
    if isPPB x then m else m.write x.toNat (v.extractLsb' (8 * byteIndex s.cfg.dataBigEndian n k) 8)) m

theorem storeBytes_cons (s : State) (a : Word) (n : Nat) (v : Word) (k : Nat) (ks : List Nat) (m : Memory) :
    storeBytes s a n v (k :: ks) m = storeBytes s a n v ks
      (if isPPB (byteAddr a k) then m
        else m.write (byteAddr a k).toNat (v.extractLsb' (8 * byteIndex s.cfg.dataBigEndian n k) 8)) := rfl

theorem storeBytes_read_other {s : State} {a : Word} {n : Nat} {v : Word} {ks : List Nat} {m : Memory} {x : Nat}
    (h : ∀ k ∈ ks, ¬ OnPPB (byteAddr a k) → x ≠ (byteAddr a k).toNat) :
    (storeBytes s a n v ks m).read x = m.read x := by
  induction ks generalizing m with
  | nil => rfl
  | cons k ks ih =>
    rw [storeBytes_cons, ih fun q hq => h q (by simp [hq])]
    split
    · rfl
    · rename_i hp
      rw [isPPB_iff] at hp
      exact Memory.read_write_other _ _ (h k (by simp) hp)

theorem storeBytes_read_same {s : State} {a : Word} {n : Nat} {v : Word} {ks : List Nat} {m : Memory} {k : Nat}
    (hm : m.wf) (hn : ks.Nodup) (hlt : ∀ q ∈ ks, q < 2 ^ 32) (hk : k ∈ ks) (hp : ¬ OnPPB (byteAddr a k)) :
    (storeBytes s a n v ks m).read (byteAddr a k).toNat =
      v.extractLsb' (8 * byteIndex s.cfg.dataBigEndian n k) 8 := by
  induction ks generalizing m with
  | nil => simp at hk
  | cons q ks ih =>
    obtain ⟨hq, hn⟩ := List.nodup_cons.mp hn
    rw [storeBytes_cons]
    rcases List.mem_cons.mp hk with rfl | hk
    · rw [if_neg (by rw [isPPB_iff]; exact hp), storeBytes_read_other]
      · exact Memory.read_write_same _ _ hm
      · intro j hj _ he
        have := byteAddr_toNat_inj (hlt k (by simp)) (hlt j (by simp [hj])) he
        exact hq (this ▸ hj)
    · refine ih ?_ hn (fun j hj => hlt j (by simp [hj])) hk
      split
      · exact hm
      · exact Memory.wf_write hm (BitVec.isLt _)

/-- A store leaves the memory the claims describe (R69). -/
theorem storeValue_storedAs {s : State} (hm : s.mem.wf) (a : Word) {n : Nat} (hn : n < 2 ^ 32) (v : Word) :
    s.StoredAs a n v (storeValue s a n v) := by
  have he : storeValue s a n v = storeBytes s a n v (List.range n) s.mem := rfl
  constructor
  · intro k hk hp
    rw [he, storeBytes_read_same hm List.nodup_range (fun q hq => by rw [List.mem_range] at hq; omega)
      (List.mem_range.mpr hk) hp]
    unfold State.storedByte byteIndex
    split <;> rfl
  · intro x hx
    rw [he, storeBytes_read_other fun k hk hp => hx k (List.mem_range.mp hk) hp]

/-! ### Checks the default map answers -/

theorem validateAddress_of_defaultMapAnswers {s : State} {p : ProcInputs} {a : Word} {n k : Nat} (w : Bool)
    (h : s.DefaultMapAnswers p a n) (hk : k < n) :
    validateAddress s p (byteAddr a k) .unpriv w =
      .ok [{ physicaladdress := byteAddr a k, memattrs := Config.defaultMemAttrs (byteAddr a k) }] := by
  have : acquire s p (byteAddr a k) .unpriv = .ok (defaultWalk (byteAddr a k) true) := by
    rcases h with h | h
    · exact acquire_of_off _ _ h
    · exact acquire_of_vector_or_ppb (.inr (h k hk))
  exact (validateAddress_of_default this).2 (by simp)

/-- An access the default map answers passes, at every alignment (R74, R143). -/
theorem validateAccess_of_defaultMapAnswers {s : State} {p : ProcInputs} {a : Word} {size : AccSize} (w : Bool)
    (h : s.DefaultMapAnswers p a (bytesOf size)) :
    ∃ ds, validateAccess s p a (bytesOf size) .unpriv w = .ok ds ∧
      (∀ x ∈ ds, x.memattrs = Config.defaultMemAttrs x.physicaladdress) ∧
      (a.toNat % bytesOf size = 0 → ds = [{ physicaladdress := a, memattrs := Config.defaultMemAttrs a }]) := by
  by_cases hm : a.toNat % bytesOf size = 0
  · have h0 := validateAddress_of_defaultMapAnswers w h (show 0 < bytesOf size by cases size <;> decide)
    rw [show byteAddr a 0 = a by simp [byteAddr]] at h0
    exact ⟨_, by rw [validateAccess_of_aligned (naturallyAligned_bytesOf.mpr hm)]; exact h0, by simp, fun _ => rfl⟩
  · have hall : ∀ x ∈ spanOf a (bytesOf size), ∃ ds, validateAddress s p x .unpriv w = .ok ds := by
      intro x hx
      simp only [spanOf, List.mem_map, List.mem_range] at hx
      obtain ⟨k, hk, rfl⟩ := hx
      exact ⟨_, validateAddress_of_defaultMapAnswers w h hk⟩
    obtain ⟨ds, h1, -, h3⟩ := validateEach_of_all_ok hall
    refine ⟨ds, by rw [validateAccess_of_unaligned (by rw [naturallyAligned_bytesOf]; exact hm), h1], ?_, fun h => absurd h hm⟩
    intro x hx
    obtain ⟨y, hy, hyx⟩ := h3 x hx
    simp only [spanOf, List.mem_map, List.mem_range] at hy
    obtain ⟨k, hk, rfl⟩ := hy
    have := validateAddress_of_defaultMapAnswers w h hk
    unfold byteAddr at this
    rw [hyx] at this
    simp only [Verdict.ok.injEq, List.cons.injEq, and_true] at this
    rw [this]

end Sys2Proof.Machine
end

