-- ==== Sys2Proof/Laws/Decode.lean ====
section
/-! SUPPORT. The qualifier word gives back the fields it was built from, and the lane of a register access leaves the
word address alone. -/

namespace Sys2Proof

theorem sizeOfBits_bitsOfSize (z : AccSize) : sizeOfBits (bitsOfSize z) = z := by cases z <;> rfl

theorem acctypeOfBits_bitsOfAcctype (k : AccType) : acctypeOfBits (bitsOfAcctype k) = k := by cases k <;> rfl

/-- One bit of a qualifier word. -/
theorem getLsbD_encodeQualifier (f : Qualifier) (i : Nat) (hi : i < 32) :
    (encodeQualifier f).getLsbD i =
      ((BitVec.ofBool f.iswrite).getLsbD i || (decide (1 ≤ i) && (bitsOfSize f.size).getLsbD (i - 1))
        || (decide (3 ≤ i) && (bitsOfAcctype f.acctype).getLsbD (i - 3))
        || (decide (5 ≤ i) && (BitVec.ofBool (!f.proc.findPriv)).getLsbD (i - 5))
        || (decide (6 ≤ i) && (BitVec.ofBool f.proc.prioBelowZero).getLsbD (i - 6))
        || (decide (7 ≤ i) && f.kind.getLsbD (i - 7))) := by
  simp only [encodeQualifier, BitVec.getLsbD_or, getLsbD_placed, hi, decide_true, Bool.true_and, Nat.zero_le,
    Nat.sub_zero]

theorem encodeQualifier_reserved (f : Qualifier) : (encodeQualifier f).extractLsb' 11 21 = 0#21 := by
  ext i hi
  rw [BitVec.getElem_extractLsb', getLsbD_encodeQualifier f _ (by omega)]
  rw [BitVec.getLsbD_of_ge _ _ (by omega), BitVec.getLsbD_of_ge (bitsOfSize _) _ (by omega),
    BitVec.getLsbD_of_ge (bitsOfAcctype _) _ (by omega), BitVec.getLsbD_of_ge (BitVec.ofBool (!f.proc.findPriv)) _ (by omega),
    BitVec.getLsbD_of_ge (BitVec.ofBool f.proc.prioBelowZero) _ (by omega), BitVec.getLsbD_of_ge f.kind _ (by omega)]
  simp

theorem encodeQualifier_size (f : Qualifier) : (encodeQualifier f).extractLsb' 1 2 = bitsOfSize f.size := by
  ext i hi
  rw [BitVec.getElem_extractLsb', getLsbD_encodeQualifier f _ (by omega)]
  interval_cases i <;> simp

theorem encodeQualifier_acctype (f : Qualifier) :
    (encodeQualifier f).extractLsb' 3 2 = bitsOfAcctype f.acctype := by
  ext i hi
  rw [BitVec.getElem_extractLsb', getLsbD_encodeQualifier f _ (by omega)]
  interval_cases i <;> simp

theorem encodeQualifier_kind (f : Qualifier) : (encodeQualifier f).extractLsb' 7 4 = f.kind := by
  ext i hi
  rw [BitVec.getElem_extractLsb', getLsbD_encodeQualifier f _ (by omega)]
  interval_cases i <;> simp

theorem encodeQualifier_iswrite (f : Qualifier) : (encodeQualifier f).getLsbD 0 = f.iswrite := by
  rw [getLsbD_encodeQualifier f _ (by omega)]; simp

theorem encodeQualifier_findPriv (f : Qualifier) : (encodeQualifier f).getLsbD 5 = !f.proc.findPriv := by
  rw [getLsbD_encodeQualifier f _ (by omega)]; simp

theorem encodeQualifier_prioBelowZero (f : Qualifier) : (encodeQualifier f).getLsbD 6 = f.proc.prioBelowZero := by
  rw [getLsbD_encodeQualifier f _ (by omega)]; simp

/-- The fields of a qualifier word that was built from fields are those fields. -/
theorem decodeQualifier_encodeQualifier (f : Qualifier) : decodeQualifier (encodeQualifier f) = .ok f := by
  unfold decodeQualifier
  rw [encodeQualifier_reserved, encodeQualifier_size, encodeQualifier_acctype, encodeQualifier_kind,
    encodeQualifier_iswrite, encodeQualifier_findPriv, encodeQualifier_prioBelowZero, sizeOfBits_bitsOfSize,
    acctypeOfBits_bitsOfAcctype]
  simp

/-- The lane is the low two bits of a register access's address, and the word address is the rest. -/
theorem lane_of_word_address (base : Word) (lane : BitVec 2) (h : base &&& 3#32 = 0#32) :
    (base ||| placed lane 0).extractLsb' 0 2 = lane ∧ (base ||| placed lane 0) &&& 0xFFFFFFFC#32 = base := by
  have hb : ∀ i, i < 32 → (base.getLsbD i && (3#32).getLsbD i) = false := by
    intro i hi
    rw [← BitVec.getLsbD_and, h]; simp
  constructor
  · ext i hi
    have := hb i (by omega)
    rw [BitVec.getElem_extractLsb', BitVec.getLsbD_or, getLsbD_placed]
    interval_cases i <;> simp_all
  · ext i hi
    have := hb i hi
    rw [← BitVec.getLsbD_eq_getElem, ← BitVec.getLsbD_eq_getElem, BitVec.getLsbD_and, BitVec.getLsbD_or,
      getLsbD_placed]
    by_cases h2 : i < 2
    · interval_cases i <;> simp_all
    · rw [BitVec.getLsbD_of_ge lane _ (by omega)]
      interval_cases i <;> simp_all

/-- A register access's packet decodes as decodeRegister says at some address with that word address. -/
theorem decode_encodeRegister {base : Word} {r : RegAccess} {w : Bool} {v : Word} {out : Except DecodeError Instr}
    (hb : base &&& 3#32 = 0#32)
    (h : ∀ a : Word, a = base ||| placed r.lane 0 → a &&& 0xFFFFFFFC#32 = base → decodeRegister a r w v = out) :
    decode (encodeRegister base r w v) = out := by
  obtain ⟨p, u, sz, l⟩ := r
  rw [← h _ rfl (lane_of_word_address base l hb).2]
  simp only [decode, encodeRegister, decodeQualifier_encodeQualifier, (lane_of_word_address base l hb).1]
  cases u <;> rfl

end Sys2Proof
end

