-- ==== Sys2Proof/Laws/PerInstr.lean ====
section
/-! SUPPORT. One lemma for each operation: its encoding stays inside the layout of the qualifier word, bits 31:11 of
which are zero (R90, R12; log 25). -/

namespace Sys2Proof.Laws

/-- The packet of the operation uses no qualifier bit above the layout. -/
def QualifierInLayout.Statement (i : Instr) : Prop := (encode i).qualifier.extractLsb' 11 21 = 0#21

theorem QualifierInLayout.readMpuType (r : RegAccess) :
    QualifierInLayout.Statement (.readMpuType r) := encodeQualifier_reserved _

theorem QualifierInLayout.writeMpuType (r : RegAccess) (v : Word) :
    QualifierInLayout.Statement (.writeMpuType r v) := encodeQualifier_reserved _

theorem QualifierInLayout.readMpuCtrl (r : RegAccess) :
    QualifierInLayout.Statement (.readMpuCtrl r) := encodeQualifier_reserved _

theorem QualifierInLayout.writeMpuCtrl (r : RegAccess) (v : Word) :
    QualifierInLayout.Statement (.writeMpuCtrl r v) := encodeQualifier_reserved _

theorem QualifierInLayout.readMpuRnr (r : RegAccess) :
    QualifierInLayout.Statement (.readMpuRnr r) := encodeQualifier_reserved _

theorem QualifierInLayout.writeMpuRnr (r : RegAccess) (v : Word) :
    QualifierInLayout.Statement (.writeMpuRnr r v) := encodeQualifier_reserved _

theorem QualifierInLayout.readMpuRbar (r : RegAccess) :
    QualifierInLayout.Statement (.readMpuRbar r) := encodeQualifier_reserved _

theorem QualifierInLayout.writeMpuRbarValid0 (r : RegAccess) (addr : BitVec 27) (region : BitVec 4) :
    QualifierInLayout.Statement (.writeMpuRbarValid0 r addr region) := encodeQualifier_reserved _

theorem QualifierInLayout.writeMpuRbarValid1 (r : RegAccess) (addr : BitVec 27) (region : BitVec 4) :
    QualifierInLayout.Statement (.writeMpuRbarValid1 r addr region) := encodeQualifier_reserved _

theorem QualifierInLayout.readMpuRbarA1 (r : RegAccess) :
    QualifierInLayout.Statement (.readMpuRbarA1 r) := encodeQualifier_reserved _

theorem QualifierInLayout.writeMpuRbarA1Valid0 (r : RegAccess) (addr : BitVec 27) (region : BitVec 4) :
    QualifierInLayout.Statement (.writeMpuRbarA1Valid0 r addr region) := encodeQualifier_reserved _

theorem QualifierInLayout.writeMpuRbarA1Valid1 (r : RegAccess) (addr : BitVec 27) (region : BitVec 4) :
    QualifierInLayout.Statement (.writeMpuRbarA1Valid1 r addr region) := encodeQualifier_reserved _

theorem QualifierInLayout.readMpuRbarA2 (r : RegAccess) :
    QualifierInLayout.Statement (.readMpuRbarA2 r) := encodeQualifier_reserved _

theorem QualifierInLayout.writeMpuRbarA2Valid0 (r : RegAccess) (addr : BitVec 27) (region : BitVec 4) :
    QualifierInLayout.Statement (.writeMpuRbarA2Valid0 r addr region) := encodeQualifier_reserved _

theorem QualifierInLayout.writeMpuRbarA2Valid1 (r : RegAccess) (addr : BitVec 27) (region : BitVec 4) :
    QualifierInLayout.Statement (.writeMpuRbarA2Valid1 r addr region) := encodeQualifier_reserved _

theorem QualifierInLayout.readMpuRbarA3 (r : RegAccess) :
    QualifierInLayout.Statement (.readMpuRbarA3 r) := encodeQualifier_reserved _

theorem QualifierInLayout.writeMpuRbarA3Valid0 (r : RegAccess) (addr : BitVec 27) (region : BitVec 4) :
    QualifierInLayout.Statement (.writeMpuRbarA3Valid0 r addr region) := encodeQualifier_reserved _

theorem QualifierInLayout.writeMpuRbarA3Valid1 (r : RegAccess) (addr : BitVec 27) (region : BitVec 4) :
    QualifierInLayout.Statement (.writeMpuRbarA3Valid1 r addr region) := encodeQualifier_reserved _

theorem QualifierInLayout.readMpuRasr (r : RegAccess) :
    QualifierInLayout.Statement (.readMpuRasr r) := encodeQualifier_reserved _

theorem QualifierInLayout.writeMpuRasr (r : RegAccess) (v : Word) :
    QualifierInLayout.Statement (.writeMpuRasr r v) := encodeQualifier_reserved _

theorem QualifierInLayout.readMpuRasrA1 (r : RegAccess) :
    QualifierInLayout.Statement (.readMpuRasrA1 r) := encodeQualifier_reserved _

theorem QualifierInLayout.writeMpuRasrA1 (r : RegAccess) (v : Word) :
    QualifierInLayout.Statement (.writeMpuRasrA1 r v) := encodeQualifier_reserved _

theorem QualifierInLayout.readMpuRasrA2 (r : RegAccess) :
    QualifierInLayout.Statement (.readMpuRasrA2 r) := encodeQualifier_reserved _

theorem QualifierInLayout.writeMpuRasrA2 (r : RegAccess) (v : Word) :
    QualifierInLayout.Statement (.writeMpuRasrA2 r v) := encodeQualifier_reserved _

theorem QualifierInLayout.readMpuRasrA3 (r : RegAccess) :
    QualifierInLayout.Statement (.readMpuRasrA3 r) := encodeQualifier_reserved _

theorem QualifierInLayout.writeMpuRasrA3 (r : RegAccess) (v : Word) :
    QualifierInLayout.Statement (.writeMpuRasrA3 r v) := encodeQualifier_reserved _

theorem QualifierInLayout.reservedEDBC (r : RegAccess) (op : RegOp) :
    QualifierInLayout.Statement (.reservedEDBC r op) := by
  cases op <;> exact encodeQualifier_reserved _

theorem QualifierInLayout.reservedEDC0 (r : RegAccess) (index : BitVec 3) (op : RegOp) :
    QualifierInLayout.Statement (.reservedEDC0 r index op) := by
  cases op <;> exact encodeQualifier_reserved _

theorem QualifierInLayout.reservedEDE0 (r : RegAccess) (index : BitVec 2) (op : RegOp) :
    QualifierInLayout.Statement (.reservedEDE0 r index op) := by
  cases op <;> exact encodeQualifier_reserved _

theorem QualifierInLayout.validateAddress (p : ProcInputs) (address : ByteRange) (acctype : AccType) (iswrite : Bool) :
    QualifierInLayout.Statement (.validateAddress p address acctype iswrite) := encodeQualifier_reserved _

theorem QualifierInLayout.ldrbt (p : ProcInputs) (address : Word) :
    QualifierInLayout.Statement (.ldrbt p address) := encodeQualifier_reserved _

theorem QualifierInLayout.ldrht (p : ProcInputs) (address : Word) :
    QualifierInLayout.Statement (.ldrht p address) := encodeQualifier_reserved _

theorem QualifierInLayout.ldrsbt (p : ProcInputs) (address : Word) :
    QualifierInLayout.Statement (.ldrsbt p address) := encodeQualifier_reserved _

theorem QualifierInLayout.ldrsht (p : ProcInputs) (address : Word) :
    QualifierInLayout.Statement (.ldrsht p address) := encodeQualifier_reserved _

theorem QualifierInLayout.ldrt (p : ProcInputs) (address : Word) :
    QualifierInLayout.Statement (.ldrt p address) := encodeQualifier_reserved _

theorem QualifierInLayout.strbt (p : ProcInputs) (address : Word) (value : Word) :
    QualifierInLayout.Statement (.strbt p address value) := encodeQualifier_reserved _

theorem QualifierInLayout.strht (p : ProcInputs) (address : Word) (value : Word) :
    QualifierInLayout.Statement (.strht p address value) := encodeQualifier_reserved _

theorem QualifierInLayout.strt (p : ProcInputs) (address : Word) (value : Word) :
    QualifierInLayout.Statement (.strt p address value) := encodeQualifier_reserved _

end Sys2Proof.Laws
end

