-- ==== Sys2Proof/Laws/State.lean ====
section
/-! SUPPORT. One lemma for each field and each named update of State, true by rfl, so that no proof unfolds an update. -/

namespace Sys2Proof.Machine

/-! ### State.answer -/

@[simp] theorem State.answer_cfg (s : State) (r : Reply) : (s.answer r).cfg = s.cfg := rfl
@[simp] theorem State.answer_ctrl (s : State) (r : Reply) : (s.answer r).ctrl = s.ctrl := rfl
@[simp] theorem State.answer_rnr (s : State) (r : Reply) : (s.answer r).rnr = s.rnr := rfl
@[simp] theorem State.answer_regions (s : State) (r : Reply) : (s.answer r).regions = s.regions := rfl
@[simp] theorem State.answer_mmfsr (s : State) (r : Reply) : (s.answer r).mmfsr = s.mmfsr := rfl
@[simp] theorem State.answer_mmar (s : State) (r : Reply) : (s.answer r).mmar = s.mmar := rfl
@[simp] theorem State.answer_mem (s : State) (r : Reply) : (s.answer r).mem = s.mem := rfl
@[simp] theorem State.answer_rnrWritten (s : State) (r : Reply) : (s.answer r).rnrWritten = s.rnrWritten := rfl
@[simp] theorem State.answer_ctrlWritten (s : State) (r : Reply) : (s.answer r).ctrlWritten = s.ctrlWritten := rfl
@[simp] theorem State.answer_draws (s : State) (r : Reply) : (s.answer r).draws = s.draws := rfl
@[simp] theorem State.answer_lockedUp (s : State) (r : Reply) : (s.answer r).lockedUp = s.lockedUp := rfl
@[simp] theorem State.answer_reply (s : State) (r : Reply) : (s.answer r).reply = r := rfl
@[simp] theorem State.answer_queue (s : State) (r : Reply) : (s.answer r).queue = s.queue := rfl

/-! ### State.drew -/

@[simp] theorem State.drew_cfg (s : State) : (s.drew).cfg = s.cfg := rfl
@[simp] theorem State.drew_ctrl (s : State) : (s.drew).ctrl = s.ctrl := rfl
@[simp] theorem State.drew_rnr (s : State) : (s.drew).rnr = s.rnr := rfl
@[simp] theorem State.drew_regions (s : State) : (s.drew).regions = s.regions := rfl
@[simp] theorem State.drew_mmfsr (s : State) : (s.drew).mmfsr = s.mmfsr := rfl
@[simp] theorem State.drew_mmar (s : State) : (s.drew).mmar = s.mmar := rfl
@[simp] theorem State.drew_mem (s : State) : (s.drew).mem = s.mem := rfl
@[simp] theorem State.drew_rnrWritten (s : State) : (s.drew).rnrWritten = s.rnrWritten := rfl
@[simp] theorem State.drew_ctrlWritten (s : State) : (s.drew).ctrlWritten = s.ctrlWritten := rfl
@[simp] theorem State.drew_draws (s : State) : (s.drew).draws = s.draws + 1 := rfl
@[simp] theorem State.drew_lockedUp (s : State) : (s.drew).lockedUp = s.lockedUp := rfl
@[simp] theorem State.drew_reply (s : State) : (s.drew).reply = s.reply := rfl
@[simp] theorem State.drew_queue (s : State) : (s.drew).queue = s.queue := rfl

/-! ### State.setCtrl -/

@[simp] theorem State.setCtrl_cfg (s : State) (c : Ctrl) : (s.setCtrl c).cfg = s.cfg := rfl
@[simp] theorem State.setCtrl_ctrl (s : State) (c : Ctrl) : (s.setCtrl c).ctrl = c := rfl
@[simp] theorem State.setCtrl_rnr (s : State) (c : Ctrl) : (s.setCtrl c).rnr = s.rnr := rfl
@[simp] theorem State.setCtrl_regions (s : State) (c : Ctrl) : (s.setCtrl c).regions = s.regions := rfl
@[simp] theorem State.setCtrl_mmfsr (s : State) (c : Ctrl) : (s.setCtrl c).mmfsr = s.mmfsr := rfl
@[simp] theorem State.setCtrl_mmar (s : State) (c : Ctrl) : (s.setCtrl c).mmar = s.mmar := rfl
@[simp] theorem State.setCtrl_mem (s : State) (c : Ctrl) : (s.setCtrl c).mem = s.mem := rfl
@[simp] theorem State.setCtrl_rnrWritten (s : State) (c : Ctrl) : (s.setCtrl c).rnrWritten = s.rnrWritten := rfl
@[simp] theorem State.setCtrl_ctrlWritten (s : State) (c : Ctrl) : (s.setCtrl c).ctrlWritten = true := rfl
@[simp] theorem State.setCtrl_draws (s : State) (c : Ctrl) : (s.setCtrl c).draws = s.draws := rfl
@[simp] theorem State.setCtrl_lockedUp (s : State) (c : Ctrl) : (s.setCtrl c).lockedUp = s.lockedUp := rfl
@[simp] theorem State.setCtrl_reply (s : State) (c : Ctrl) : (s.setCtrl c).reply = s.reply := rfl
@[simp] theorem State.setCtrl_queue (s : State) (c : Ctrl) : (s.setCtrl c).queue = s.queue := rfl

/-! ### State.select -/

@[simp] theorem State.select_cfg (s : State) (n : BitVec 8) : (s.select n).cfg = s.cfg := rfl
@[simp] theorem State.select_ctrl (s : State) (n : BitVec 8) : (s.select n).ctrl = s.ctrl := rfl
@[simp] theorem State.select_rnr (s : State) (n : BitVec 8) : (s.select n).rnr = n := rfl
@[simp] theorem State.select_regions (s : State) (n : BitVec 8) : (s.select n).regions = s.regions := rfl
@[simp] theorem State.select_mmfsr (s : State) (n : BitVec 8) : (s.select n).mmfsr = s.mmfsr := rfl
@[simp] theorem State.select_mmar (s : State) (n : BitVec 8) : (s.select n).mmar = s.mmar := rfl
@[simp] theorem State.select_mem (s : State) (n : BitVec 8) : (s.select n).mem = s.mem := rfl
@[simp] theorem State.select_rnrWritten (s : State) (n : BitVec 8) : (s.select n).rnrWritten = true := rfl
@[simp] theorem State.select_ctrlWritten (s : State) (n : BitVec 8) : (s.select n).ctrlWritten = s.ctrlWritten := rfl
@[simp] theorem State.select_draws (s : State) (n : BitVec 8) : (s.select n).draws = s.draws := rfl
@[simp] theorem State.select_lockedUp (s : State) (n : BitVec 8) : (s.select n).lockedUp = s.lockedUp := rfl
@[simp] theorem State.select_reply (s : State) (n : BitVec 8) : (s.select n).reply = s.reply := rfl
@[simp] theorem State.select_queue (s : State) (n : BitVec 8) : (s.select n).queue = s.queue := rfl

/-! ### State.setAddr -/

@[simp] theorem State.setAddr_cfg (s : State) (r : Nat) (addr : BitVec 27) : (s.setAddr r addr).cfg = s.cfg := rfl
@[simp] theorem State.setAddr_ctrl (s : State) (r : Nat) (addr : BitVec 27) : (s.setAddr r addr).ctrl = s.ctrl := rfl
@[simp] theorem State.setAddr_rnr (s : State) (r : Nat) (addr : BitVec 27) : (s.setAddr r addr).rnr = s.rnr := rfl
@[simp] theorem State.setAddr_regions (s : State) (r : Nat) (addr : BitVec 27) : (s.setAddr r addr).regions = s.regions.modify r (fun g => { g with addr := addr }) := rfl
@[simp] theorem State.setAddr_mmfsr (s : State) (r : Nat) (addr : BitVec 27) : (s.setAddr r addr).mmfsr = s.mmfsr := rfl
@[simp] theorem State.setAddr_mmar (s : State) (r : Nat) (addr : BitVec 27) : (s.setAddr r addr).mmar = s.mmar := rfl
@[simp] theorem State.setAddr_mem (s : State) (r : Nat) (addr : BitVec 27) : (s.setAddr r addr).mem = s.mem := rfl
@[simp] theorem State.setAddr_rnrWritten (s : State) (r : Nat) (addr : BitVec 27) : (s.setAddr r addr).rnrWritten = s.rnrWritten := rfl
@[simp] theorem State.setAddr_ctrlWritten (s : State) (r : Nat) (addr : BitVec 27) : (s.setAddr r addr).ctrlWritten = s.ctrlWritten := rfl
@[simp] theorem State.setAddr_draws (s : State) (r : Nat) (addr : BitVec 27) : (s.setAddr r addr).draws = s.draws := rfl
@[simp] theorem State.setAddr_lockedUp (s : State) (r : Nat) (addr : BitVec 27) : (s.setAddr r addr).lockedUp = s.lockedUp := rfl
@[simp] theorem State.setAddr_reply (s : State) (r : Nat) (addr : BitVec 27) : (s.setAddr r addr).reply = s.reply := rfl
@[simp] theorem State.setAddr_queue (s : State) (r : Nat) (addr : BitVec 27) : (s.setAddr r addr).queue = s.queue := rfl

/-! ### State.setRasr -/

@[simp] theorem State.setRasr_cfg (s : State) (r : Nat) (x : Rasr) : (s.setRasr r x).cfg = s.cfg := rfl
@[simp] theorem State.setRasr_ctrl (s : State) (r : Nat) (x : Rasr) : (s.setRasr r x).ctrl = s.ctrl := rfl
@[simp] theorem State.setRasr_rnr (s : State) (r : Nat) (x : Rasr) : (s.setRasr r x).rnr = s.rnr := rfl
@[simp] theorem State.setRasr_regions (s : State) (r : Nat) (x : Rasr) : (s.setRasr r x).regions = s.regions.modify r (fun g => { g with rasr := x }) := rfl
@[simp] theorem State.setRasr_mmfsr (s : State) (r : Nat) (x : Rasr) : (s.setRasr r x).mmfsr = s.mmfsr := rfl
@[simp] theorem State.setRasr_mmar (s : State) (r : Nat) (x : Rasr) : (s.setRasr r x).mmar = s.mmar := rfl
@[simp] theorem State.setRasr_mem (s : State) (r : Nat) (x : Rasr) : (s.setRasr r x).mem = s.mem := rfl
@[simp] theorem State.setRasr_rnrWritten (s : State) (r : Nat) (x : Rasr) : (s.setRasr r x).rnrWritten = s.rnrWritten := rfl
@[simp] theorem State.setRasr_ctrlWritten (s : State) (r : Nat) (x : Rasr) : (s.setRasr r x).ctrlWritten = s.ctrlWritten := rfl
@[simp] theorem State.setRasr_draws (s : State) (r : Nat) (x : Rasr) : (s.setRasr r x).draws = s.draws := rfl
@[simp] theorem State.setRasr_lockedUp (s : State) (r : Nat) (x : Rasr) : (s.setRasr r x).lockedUp = s.lockedUp := rfl
@[simp] theorem State.setRasr_reply (s : State) (r : Nat) (x : Rasr) : (s.setRasr r x).reply = s.reply := rfl
@[simp] theorem State.setRasr_queue (s : State) (r : Nat) (x : Rasr) : (s.setRasr r x).queue = s.queue := rfl

/-! ### State.setSyndrome -/

@[simp] theorem State.setSyndrome_cfg (s : State) (f : Mmfsr) (a : Word) : (s.setSyndrome f a).cfg = s.cfg := rfl
@[simp] theorem State.setSyndrome_ctrl (s : State) (f : Mmfsr) (a : Word) : (s.setSyndrome f a).ctrl = s.ctrl := rfl
@[simp] theorem State.setSyndrome_rnr (s : State) (f : Mmfsr) (a : Word) : (s.setSyndrome f a).rnr = s.rnr := rfl
@[simp] theorem State.setSyndrome_regions (s : State) (f : Mmfsr) (a : Word) : (s.setSyndrome f a).regions = s.regions := rfl
@[simp] theorem State.setSyndrome_mmfsr (s : State) (f : Mmfsr) (a : Word) : (s.setSyndrome f a).mmfsr = f := rfl
@[simp] theorem State.setSyndrome_mmar (s : State) (f : Mmfsr) (a : Word) : (s.setSyndrome f a).mmar = a := rfl
@[simp] theorem State.setSyndrome_mem (s : State) (f : Mmfsr) (a : Word) : (s.setSyndrome f a).mem = s.mem := rfl
@[simp] theorem State.setSyndrome_rnrWritten (s : State) (f : Mmfsr) (a : Word) : (s.setSyndrome f a).rnrWritten = s.rnrWritten := rfl
@[simp] theorem State.setSyndrome_ctrlWritten (s : State) (f : Mmfsr) (a : Word) : (s.setSyndrome f a).ctrlWritten = s.ctrlWritten := rfl
@[simp] theorem State.setSyndrome_draws (s : State) (f : Mmfsr) (a : Word) : (s.setSyndrome f a).draws = s.draws := rfl
@[simp] theorem State.setSyndrome_lockedUp (s : State) (f : Mmfsr) (a : Word) : (s.setSyndrome f a).lockedUp = s.lockedUp := rfl
@[simp] theorem State.setSyndrome_reply (s : State) (f : Mmfsr) (a : Word) : (s.setSyndrome f a).reply = s.reply := rfl
@[simp] theorem State.setSyndrome_queue (s : State) (f : Mmfsr) (a : Word) : (s.setSyndrome f a).queue = s.queue := rfl

/-! ### State.setMem -/

@[simp] theorem State.setMem_cfg (s : State) (m : Memory) : (s.setMem m).cfg = s.cfg := rfl
@[simp] theorem State.setMem_ctrl (s : State) (m : Memory) : (s.setMem m).ctrl = s.ctrl := rfl
@[simp] theorem State.setMem_rnr (s : State) (m : Memory) : (s.setMem m).rnr = s.rnr := rfl
@[simp] theorem State.setMem_regions (s : State) (m : Memory) : (s.setMem m).regions = s.regions := rfl
@[simp] theorem State.setMem_mmfsr (s : State) (m : Memory) : (s.setMem m).mmfsr = s.mmfsr := rfl
@[simp] theorem State.setMem_mmar (s : State) (m : Memory) : (s.setMem m).mmar = s.mmar := rfl
@[simp] theorem State.setMem_mem (s : State) (m : Memory) : (s.setMem m).mem = m := rfl
@[simp] theorem State.setMem_rnrWritten (s : State) (m : Memory) : (s.setMem m).rnrWritten = s.rnrWritten := rfl
@[simp] theorem State.setMem_ctrlWritten (s : State) (m : Memory) : (s.setMem m).ctrlWritten = s.ctrlWritten := rfl
@[simp] theorem State.setMem_draws (s : State) (m : Memory) : (s.setMem m).draws = s.draws := rfl
@[simp] theorem State.setMem_lockedUp (s : State) (m : Memory) : (s.setMem m).lockedUp = s.lockedUp := rfl
@[simp] theorem State.setMem_reply (s : State) (m : Memory) : (s.setMem m).reply = s.reply := rfl
@[simp] theorem State.setMem_queue (s : State) (m : Memory) : (s.setMem m).queue = s.queue := rfl

/-! ### State.lockUp -/

@[simp] theorem State.lockUp_cfg (s : State) : (s.lockUp).cfg = s.cfg := rfl
@[simp] theorem State.lockUp_ctrl (s : State) : (s.lockUp).ctrl = s.ctrl := rfl
@[simp] theorem State.lockUp_rnr (s : State) : (s.lockUp).rnr = s.rnr := rfl
@[simp] theorem State.lockUp_regions (s : State) : (s.lockUp).regions = s.regions := rfl
@[simp] theorem State.lockUp_mmfsr (s : State) : (s.lockUp).mmfsr = s.mmfsr := rfl
@[simp] theorem State.lockUp_mmar (s : State) : (s.lockUp).mmar = s.mmar := rfl
@[simp] theorem State.lockUp_mem (s : State) : (s.lockUp).mem = s.mem := rfl
@[simp] theorem State.lockUp_rnrWritten (s : State) : (s.lockUp).rnrWritten = s.rnrWritten := rfl
@[simp] theorem State.lockUp_ctrlWritten (s : State) : (s.lockUp).ctrlWritten = s.ctrlWritten := rfl
@[simp] theorem State.lockUp_draws (s : State) : (s.lockUp).draws = s.draws := rfl
@[simp] theorem State.lockUp_lockedUp (s : State) : (s.lockUp).lockedUp = true := rfl
@[simp] theorem State.lockUp_reply (s : State) : (s.lockUp).reply = s.reply := rfl
@[simp] theorem State.lockUp_queue (s : State) : (s.lockUp).queue = s.queue := rfl

/-! ### State.setQueue -/

@[simp] theorem State.setQueue_cfg (s : State) (q : List Packet) : (s.setQueue q).cfg = s.cfg := rfl
@[simp] theorem State.setQueue_ctrl (s : State) (q : List Packet) : (s.setQueue q).ctrl = s.ctrl := rfl
@[simp] theorem State.setQueue_rnr (s : State) (q : List Packet) : (s.setQueue q).rnr = s.rnr := rfl
@[simp] theorem State.setQueue_regions (s : State) (q : List Packet) : (s.setQueue q).regions = s.regions := rfl
@[simp] theorem State.setQueue_mmfsr (s : State) (q : List Packet) : (s.setQueue q).mmfsr = s.mmfsr := rfl
@[simp] theorem State.setQueue_mmar (s : State) (q : List Packet) : (s.setQueue q).mmar = s.mmar := rfl
@[simp] theorem State.setQueue_mem (s : State) (q : List Packet) : (s.setQueue q).mem = s.mem := rfl
@[simp] theorem State.setQueue_rnrWritten (s : State) (q : List Packet) : (s.setQueue q).rnrWritten = s.rnrWritten := rfl
@[simp] theorem State.setQueue_ctrlWritten (s : State) (q : List Packet) : (s.setQueue q).ctrlWritten = s.ctrlWritten := rfl
@[simp] theorem State.setQueue_draws (s : State) (q : List Packet) : (s.setQueue q).draws = s.draws := rfl
@[simp] theorem State.setQueue_lockedUp (s : State) (q : List Packet) : (s.setQueue q).lockedUp = s.lockedUp := rfl
@[simp] theorem State.setQueue_reply (s : State) (q : List Packet) : (s.setQueue q).reply = s.reply := rfl
@[simp] theorem State.setQueue_queue (s : State) (q : List Packet) : (s.setQueue q).queue = q := rfl

end Sys2Proof.Machine
end

