-- ==== Sys2Proof/Tests/Slice0.lean ====
section
/-! SUPPORT. Tests. Expected values are the spec's: the address map and formats (R91 to R103), the vectors of
`95_test_vectors.md` (V40.1 to V43.5), and hand calculation from the rules named. Then, for every statement with
hypotheses, a witness: a concrete state and operands that meet all of them together, one for each clause. -/

namespace Sys2Proof.Tests

open Sys2Proof Sys2Proof.Machine

/-! ### Helpers -/

/-- Privileged software at priority 0 or above. -/
def priv : ProcInputs := { findPriv := true, prioBelowZero := false }

/-- Unprivileged software at priority 0 or above. -/
def user : ProcInputs := { findPriv := false, prioBelowZero := false }

/-- A privileged handler below priority 0. -/
def handler : ProcInputs := { findPriv := true, prioBelowZero := true }

/-- A privileged aligned word access to the register block. -/
def reg : RegAccess := { proc := priv, unpriv := false, size := .word, lane := 0#2 }

/-- A region from the words written to its RBAR and RASR. -/
def region (rbar rasr : Word) : Region := { addr := rbarAddrField rbar, rasr := rasrOfWord rasr }

/-- An MPU with exactly these regions (RBAR, RASR), MPU_CTRL holding `c`, region 0 selected. -/
def mpu (c : Word) (rs : List (Word × Word)) : State :=
  { State.reset with
    cfg := { Config.atReset with nregions := Fin.ofNat 256 rs.length }
    ctrl := ctrlOfWord c
    rnrWritten := true
    ctrlWritten := true
    regions := rs.map fun x => region x.1 x.2 }

/-- The reset machine of eight regions with region `n` selected. -/
def selected (n : BitVec 8) : State := { State.reset with rnr := n, rnrWritten := true }

/-- A machine without an MPU. -/
def noRegions : State := State.resetWith { Config.atReset with nregions := 0 } (ResetDraw.zero { Config.atReset with nregions := 0 })

/-- The operation completed and its state passes the test. -/
def next (o : Out) (f : State → Bool) : Bool :=
  match o with
  | .next t => f t
  | .fault _ => false
  | .refused _ => false

/-- The operation was refused for this reason. -/
def refused (o : Out) (r : Refusal) : Bool :=
  match o with
  | .next _ => false
  | .fault _ => false
  | .refused r' => r == r'

/-- The value of a read. -/
def value (t : State) : Option Word :=
  match t.reply with
  | .ok _ v => v
  | .idle => none
  | .memManage => none
  | .lockup => none
  | .busFault => none

/-- The access passed, with these attributes. -/
def passes (v : Verdict) (m : MemAttrs) : Bool :=
  match v with
  | .ok ds => ds.map (fun d => d.memattrs) == [m]
  | .violation _ => false
  | .refuse _ => false

/-- The access passed, whatever its attributes. -/
def allowed (v : Verdict) : Bool :=
  match v with
  | .ok _ => true
  | .violation _ => false
  | .refuse _ => false

/-- Strongly-ordered memory. -/
def SO : MemAttrs := { type := .stronglyOrdered, shareable := true }

/-! ### Well-formedness -/

/-- R186: an instruction fetch and a vector read are reads. -/
theorem test_wf_refuses_fetch_write : (Instr.validateAddress priv ⟨0#32, 0#32⟩ .ifetch true).wf = false := by decide

theorem test_wf_refuses_vector_write : (Instr.validateAddress priv ⟨0#32, 0#32⟩ .vectable true).wf = false := by decide

theorem test_wf_admits_fetch : (Instr.validateAddress priv ⟨0#32, 0#32⟩ .ifetch false).wf = true := by decide

/-! ### Decoding: every operation, its packet written out -/

/-- R91: 0xE000ED90, a read. -/
theorem test_decode_readMpuType :
    decode ⟨0xE000ED90#32, 0x0#32, 0x00000000#32⟩ = .ok (.readMpuType reg) := by decide

/-- R91: 0xE000ED90, a write. -/
theorem test_decode_writeMpuType :
    decode ⟨0xE000ED90#32, 0x1#32, 0xFFFFFFFF#32⟩ = .ok (.writeMpuType reg 0xFFFFFFFF#32) := by decide

/-- R92: address bits 1:0 are the lane, bits 31:2 select 0xE000ED94 (V42.12's word read). -/
theorem test_decode_readMpuCtrl :
    decode ⟨0xE000ED96#32, 0x0#32, 0x00000000#32⟩ = .ok (.readMpuCtrl { reg with lane := 2#2 }) := by decide

/-- R91: 0xE000ED94; AccType_UNPRIV in qualifier bits 4:3. -/
theorem test_decode_writeMpuCtrl :
    decode ⟨0xE000ED94#32, 0x19#32, 0x00000005#32⟩ = .ok (.writeMpuCtrl { reg with unpriv := true } 5#32) := by decide

/-- R91: 0xE000ED98; FindPriv() FALSE, priority below 0. -/
theorem test_decode_readMpuRnr :
    decode ⟨0xE000ED98#32, 0x60#32, 0x00000000#32⟩ = .ok (.readMpuRnr { reg with proc := ⟨false, true⟩ }) := by decide

/-- R91: 0xE000ED98; a halfword (V42.12). -/
theorem test_decode_writeMpuRnr :
    decode ⟨0xE000ED98#32, 0x5#32, 0x00000007#32⟩ = .ok (.writeMpuRnr { reg with size := .half } 7#32) := by decide

/-- R91, R92: 0xE000ED9C, a read. -/
theorem test_decode_readMpuRbar :
    decode ⟨0xE000ED9C#32, 0x0#32, 0x00000000#32⟩ = .ok (.readMpuRbar reg) := by decide

/-- R96, R102: 0x08000007 has ADDR 0x400000, VALID 0, REGION 7. -/
theorem test_decode_writeMpuRbarValid0 :
    decode ⟨0xE000ED9C#32, 0x1#32, 0x08000007#32⟩ = .ok (.writeMpuRbarValid0 reg 0x400000#27 7#4) := by decide

/-- R96, R102: 0x20000013 has ADDR 0x1000000, VALID 1, REGION 3. -/
theorem test_decode_writeMpuRbarValid1 :
    decode ⟨0xE000ED9C#32, 0x1#32, 0x20000013#32⟩ = .ok (.writeMpuRbarValid1 reg 0x1000000#27 3#4) := by decide

/-- R91, R92: 0xE000EDA4, a read. -/
theorem test_decode_readMpuRbarA1 :
    decode ⟨0xE000EDA4#32, 0x0#32, 0x00000000#32⟩ = .ok (.readMpuRbarA1 reg) := by decide

/-- R96, R102: 0x20000000 has ADDR 0x1000000, VALID 0, REGION 0. -/
theorem test_decode_writeMpuRbarA1Valid0 :
    decode ⟨0xE000EDA4#32, 0x1#32, 0x20000000#32⟩ = .ok (.writeMpuRbarA1Valid0 reg 0x1000000#27 0#4) := by decide

/-- R96, R102: 0x20010014 has ADDR 0x1000800, VALID 1, REGION 4. -/
theorem test_decode_writeMpuRbarA1Valid1 :
    decode ⟨0xE000EDA4#32, 0x1#32, 0x20010014#32⟩ = .ok (.writeMpuRbarA1Valid1 reg 0x1000800#27 4#4) := by decide

/-- R91, R92: 0xE000EDAC, a read. -/
theorem test_decode_readMpuRbarA2 :
    decode ⟨0xE000EDAC#32, 0x0#32, 0x00000000#32⟩ = .ok (.readMpuRbarA2 reg) := by decide

/-- R96, R102: 0xFFFFFFE0 has ADDR 0x7FFFFFF, VALID 0, REGION 0. -/
theorem test_decode_writeMpuRbarA2Valid0 :
    decode ⟨0xE000EDAC#32, 0x1#32, 0xFFFFFFE0#32⟩ = .ok (.writeMpuRbarA2Valid0 reg 0x7FFFFFF#27 0#4) := by decide

/-- R96, R102: 0x40000012 has ADDR 0x2000000, VALID 1, REGION 2. -/
theorem test_decode_writeMpuRbarA2Valid1 :
    decode ⟨0xE000EDAC#32, 0x1#32, 0x40000012#32⟩ = .ok (.writeMpuRbarA2Valid1 reg 0x2000000#27 2#4) := by decide

/-- R91, R92: 0xE000EDB4, a read. -/
theorem test_decode_readMpuRbarA3 :
    decode ⟨0xE000EDB4#32, 0x0#32, 0x00000000#32⟩ = .ok (.readMpuRbarA3 reg) := by decide

/-- R96, R102: 0x2002000F has ADDR 0x1001000, VALID 0, REGION 15. -/
theorem test_decode_writeMpuRbarA3Valid0 :
    decode ⟨0xE000EDB4#32, 0x1#32, 0x2002000F#32⟩ = .ok (.writeMpuRbarA3Valid0 reg 0x1001000#27 15#4) := by decide

/-- R96, R102: 0xFFFFFFFF has ADDR 0x7FFFFFF, VALID 1, REGION 15. -/
theorem test_decode_writeMpuRbarA3Valid1 :
    decode ⟨0xE000EDB4#32, 0x1#32, 0xFFFFFFFF#32⟩ = .ok (.writeMpuRbarA3Valid1 reg 0x7FFFFFF#27 15#4) := by decide

/-- R91, R92: 0xE000EDA0, a read. -/
theorem test_decode_readMpuRasr :
    decode ⟨0xE000EDA0#32, 0x0#32, 0x00000000#32⟩ = .ok (.readMpuRasr reg) := by decide

/-- R91, R92: 0xE000EDA0, a write. -/
theorem test_decode_writeMpuRasr :
    decode ⟨0xE000EDA0#32, 0x1#32, 0x0306001F#32⟩ = .ok (.writeMpuRasr reg 0x0306001F#32) := by decide

/-- R91, R92: 0xE000EDA8, a read. -/
theorem test_decode_readMpuRasrA1 :
    decode ⟨0xE000EDA8#32, 0x0#32, 0x00000000#32⟩ = .ok (.readMpuRasrA1 reg) := by decide

/-- R91, R92: 0xE000EDA8, a write. -/
theorem test_decode_writeMpuRasrA1 :
    decode ⟨0xE000EDA8#32, 0x1#32, 0x0306001F#32⟩ = .ok (.writeMpuRasrA1 reg 0x0306001F#32) := by decide

/-- R91, R92: 0xE000EDB0, a read. -/
theorem test_decode_readMpuRasrA2 :
    decode ⟨0xE000EDB0#32, 0x0#32, 0x00000000#32⟩ = .ok (.readMpuRasrA2 reg) := by decide

/-- R91, R92: 0xE000EDB0, a write. -/
theorem test_decode_writeMpuRasrA2 :
    decode ⟨0xE000EDB0#32, 0x1#32, 0x0306001F#32⟩ = .ok (.writeMpuRasrA2 reg 0x0306001F#32) := by decide

/-- R91, R92: 0xE000EDB8, a read. -/
theorem test_decode_readMpuRasrA3 :
    decode ⟨0xE000EDB8#32, 0x0#32, 0x00000000#32⟩ = .ok (.readMpuRasrA3 reg) := by decide

/-- R91, R92: 0xE000EDB8, a write. -/
theorem test_decode_writeMpuRasrA3 :
    decode ⟨0xE000EDB8#32, 0x1#32, 0x0306001F#32⟩ = .ok (.writeMpuRasrA3 reg 0x0306001F#32) := by decide

/-- R91: 0xE000EDBC is reserved. -/
theorem test_decode_reservedEDBC :
    decode ⟨0xE000EDBC#32, 0x0#32, 0x00000000#32⟩ = .ok (.reservedEDBC reg .read) := by decide

/-- R91: 0xE000EDDC is the last word of the row 0xE000EDC0 to 0xE000EDDF. -/
theorem test_decode_reservedEDC0 :
    decode ⟨0xE000EDDC#32, 0x1#32, 0x00000009#32⟩ = .ok (.reservedEDC0 reg 7#3 (.write 9#32)) := by decide

/-- R91: 0xE000EDEC is the last reserved word. -/
theorem test_decode_reservedEDE0 :
    decode ⟨0xE000EDEC#32, 0x1#32, 0x00000000#32⟩ = .ok (.reservedEDE0 reg 3#2 (.write 0#32)) := by decide

/-- R107's uWR by unprivileged software. -/
theorem test_decode_validateAddress :
    decode ⟨0x20000000#32, 0xB9#32, 0x00000000#32⟩ = .ok (.validateAddress user ⟨0x20000000#32, 0#32⟩ .unpriv true) := by decide

/-- An ordinary read of 64 bytes: the data word counts the bytes after the first (log 25). -/
theorem test_decode_validateAddress_bytes :
    decode ⟨0x20000002#32, 0x80#32, 0x3F#32⟩ = .ok (.validateAddress priv ⟨0x20000002#32, 63#32⟩ .normal false) := by decide

/-- The model's qualifier kind (log 25); the address is the packet's. -/
theorem test_decode_ldrbt :
    decode ⟨0x20000010#32, 0x100#32, 0x00000000#32⟩ = .ok (.ldrbt priv 0x20000010#32) := by decide

/-- The model's qualifier kind (log 25); the address is the packet's. -/
theorem test_decode_ldrht :
    decode ⟨0x20000011#32, 0x180#32, 0x00000000#32⟩ = .ok (.ldrht priv 0x20000011#32) := by decide

/-- The model's qualifier kind (log 25); the address is the packet's. -/
theorem test_decode_ldrsbt :
    decode ⟨0x20000012#32, 0x200#32, 0x00000000#32⟩ = .ok (.ldrsbt priv 0x20000012#32) := by decide

/-- The model's qualifier kind (log 25); the address is the packet's. -/
theorem test_decode_ldrsht :
    decode ⟨0x20000013#32, 0x280#32, 0x00000000#32⟩ = .ok (.ldrsht priv 0x20000013#32) := by decide

/-- The model's qualifier kind (log 25); the address is the packet's. -/
theorem test_decode_ldrt :
    decode ⟨0x20000014#32, 0x300#32, 0x00000000#32⟩ = .ok (.ldrt priv 0x20000014#32) := by decide

/-- The model's qualifier kind (log 25); the address is the packet's. -/
theorem test_decode_strbt :
    decode ⟨0x20000015#32, 0x380#32, 0x12345678#32⟩ = .ok (.strbt priv 0x20000015#32 0x12345678#32) := by decide

/-- The model's qualifier kind (log 25); the address is the packet's. -/
theorem test_decode_strht :
    decode ⟨0x20000016#32, 0x400#32, 0x12345678#32⟩ = .ok (.strht priv 0x20000016#32 0x12345678#32) := by decide

/-- The model's qualifier kind (log 25); the address is the packet's. -/
theorem test_decode_strt :
    decode ⟨0x20000017#32, 0x480#32, 0x12345678#32⟩ = .ok (.strt priv 0x20000017#32 0x12345678#32) := by decide

/-! ### Decoding: every packet that stands for no operation is rejected by name -/

theorem test_decode_reservedQualifierBits :
    decode ⟨0xE000ED90#32, 0x800#32, 0#32⟩ = .error .reservedQualifierBits := by decide

theorem test_decode_unknownKind : decode ⟨0x20000000#32, 0x500#32, 0#32⟩ = .error .unknownKind := by decide

theorem test_decode_below_the_block : decode ⟨0xE000ED8C#32, 0#32, 0#32⟩ = .error .notARegisterAddress := by decide

theorem test_decode_above_the_block : decode ⟨0xE000EDF0#32, 0#32, 0#32⟩ = .error .notARegisterAddress := by decide

theorem test_decode_fetch_of_a_register :
    decode ⟨0xE000ED90#32, 0x8#32, 0#32⟩ = .error .registerAccessNotData := by decide

theorem test_decode_write_by_a_fetch :
    decode ⟨0x20000000#32, 0x89#32, 0#32⟩ = .error .writeOfAReadOnlyKind := by decide

theorem test_decode_size_of_a_check :
    decode ⟨0x20000000#32, 0x82#32, 0#32⟩ = .error .unusedFieldNotZero := by decide

/-! ### The host's words (log 25): a table word is the address, and its direction is a read -/

theorem test_table_word_mpu_type : decodeTableWord 32 0xE000ED90 = some (.readMpuType reg) := by decide

theorem test_table_word_runs_first :
    next (step (State.reset.withFetchWord 32 0xE000ED94)) (fun t => value t == some 0#32) = true := by decide

/-! ### The registers (V42) -/

/-- V42.2: `v & 0x00FFFF01 == 0x00000800`, whatever the reserved bits read as. -/
theorem test_readMpuType_fields :
    typeWord Config.atReset 0xFFFFFFFF#32 &&& 0x00FFFF01#32 = 0x800#32 ∧
    typeWord Config.atReset 0#32 &&& 0x00FFFF01#32 = 0x800#32 := by decide

/-- V42.14. -/
theorem test_writeMpuType_refused :
    refused (exec (.writeMpuType reg 0xFFFFFFFF#32) State.reset) .readOnlyWrite = true := by decide

/-- V42.1. -/
theorem test_readMpuCtrl_after_reset :
    next (exec (.readMpuCtrl reg) State.reset) (fun t => value t == some 0#32) = true := by decide

/-- V42.16: the write of 0xFFFFFFFD, and bits 2:0 of a later read. -/
theorem test_writeMpuCtrl_fields :
    next (exec (.writeMpuCtrl reg 0xFFFFFFFD#32) State.reset) (fun t =>
      t.ctrl == { privdefena := true, hfnmiena := false, enable := true } &&
        ctrlWord t.ctrl 0xFFFFFFFF#32 &&& 7#32 == 5#32) = true := by decide

/-- V42.4: bits 31:8 of the write are ignored, and bits 7:0 of a later read. -/
theorem test_writeMpuRnr_low_byte :
    next (exec (.writeMpuRnr reg 0x107#32) State.reset) (fun t =>
      t.rnr == 7#8 && rnrWord t.rnr 0xFFFFFFFF#32 &&& 0xFF#32 == 7#32) = true := by decide

/-- V42.4: region 8 of eight. -/
theorem test_writeMpuRnr_out_of_range :
    refused (exec (.writeMpuRnr reg 8#32) State.reset) .regionNumberOutOfRange = true := by decide

/-- V42.3: before the first selection. -/
theorem test_readMpuRbar_refused : refused (exec (.readMpuRbar reg) State.reset) .regionNotSelected = true := by decide

/-- V42.3: the write that selects. -/
theorem test_writeMpuRbarValid1_selects :
    next (exec (.writeMpuRbarValid1 reg 0x1000000#27 3#4) State.reset) (fun t =>
      t.rnr == 3#8 && t.rnrWritten && t.regions[3]? == some { Region.zero with addr := 0x1000000#27 }) = true := by
  decide

/-- V42.5: region 15 of eight. -/
theorem test_writeMpuRbarValid1_out_of_range :
    refused (exec (.writeMpuRbarValid1 reg 0x1000000#27 15#4) State.reset) .rbarRegionOutOfRange = true := by decide

/-- V42.6: REGION is ignored, RNR and region 7 are not touched. -/
theorem test_writeMpuRbarValid0_ignores_region :
    next (exec (.writeMpuRbarValid0 reg 0x400000#27 7#4) (selected 2#8)) (fun t =>
      t.rnr == 2#8 && t.regions[2]? == some { Region.zero with addr := 0x400000#27 } &&
        t.regions[7]? == some Region.zero) = true := by decide

/-- V42.7: with 0x13 in RNR a read shows 3. -/
theorem test_readMpuRbar_shows_low_region_bits : rbarWord 0x800000#27 0x13#8 = 0x10000003#32 := by decide

/-- V42.8: MINLOG2 = 8 leaves the three low bits of ADDR at zero. -/
theorem test_storedAddr_minimum_256 :
    storedAddr { Config.atReset with minTrailing := [3] } 0 0x7FFFFFF#27 = 0x7FFFFF8#27 ∧
    storedAddr Config.atReset 0 0x7FFFFFF#27 = 0x7FFFFFF#27 := by decide

/-- V42.9: the write of all ones. -/
theorem test_writeMpuRasr_all_ones :
    next (exec (.writeMpuRasr reg 0xFFFFFFFF#32) (selected 0#8)) (fun t =>
      (t.regions[0]?).map (fun g => rasrWord g.rasr 0#32) == some 0x173FFF3F#32) = true := by decide

/-- V42.9: only unnamed and reserved bits, and SIZE 4. -/
theorem test_writeMpuRasr_reserved_bits :
    next (exec (.writeMpuRasr reg 0xE8C000C8#32) (selected 0#8)) (fun t =>
      (t.regions[0]?).map (fun g => rasrWord g.rasr 0xFFFFFFFF#32 &&& 0x173FFF3F#32) == some 8#32) = true := by decide

/-- R202's example: `v & 0x173FFF3F == 0x0306001F`. -/
theorem test_readMpuRasr_fields :
    rasrWord (rasrOfWord 0x0306001F#32) 0xFFFFFFFF#32 &&& 0x173FFF3F#32 = 0x0306001F#32 := by decide

/-- V42.10: the all-zero word. -/
theorem test_writeMpuRasrA1_zero_refused :
    refused (exec (.writeMpuRasrA1 reg 0#32) (selected 0#8)) .sizeBelowMinimum = true := by decide

/-- V42.13: the stores through the first aliases. -/
theorem test_writeMpuRbarA1Valid1_selects :
    next (exec (.writeMpuRbarA1Valid1 reg 0x1000800#27 4#4) State.reset) (fun t =>
      t.rnr == 4#8 && t.regions[4]? == some { Region.zero with addr := 0x1000800#27 }) = true := by decide

theorem test_writeMpuRasrA1_selected_region :
    next (exec (.writeMpuRasrA1 reg 0x0300001F#32) (selected 4#8)) (fun t =>
      (t.regions[4]?).map (fun g => rasrWord g.rasr 0#32) == some 0x0300001F#32) = true := by decide

/-- V42.13: the same value through every alias. -/
theorem test_readMpuRbarA2 :
    next (exec (.readMpuRbarA2 reg) (mpu 0#32 [(0x20010000#32, 0#32)])) (fun t =>
      value t == some 0x20010000#32) = true := by decide

theorem test_readMpuRbarA3 :
    next (exec (.readMpuRbarA3 reg) (mpu 0#32 [(0x20010000#32, 0#32)])) (fun t =>
      value t == some 0x20010000#32) = true := by decide

/-- V42.13: VALID 0 through alias 3 reaches region 4, not region 7. -/
theorem test_writeMpuRbarA3Valid0_selected_region :
    next (exec (.writeMpuRbarA3Valid0 reg 0x1001000#27 0#4) (selected 4#8)) (fun t =>
      t.regions[4]? == some { Region.zero with addr := 0x1001000#27 } && t.regions[7]? == some Region.zero) = true := by
  decide

/-- V42.11. -/
theorem test_writeMpuCtrl_unprivileged :
    next (exec (.writeMpuCtrl { reg with proc := user } 1#32) State.reset) (fun t =>
      t.reply == .busFault && t.ctrl == State.reset.ctrl && t.mmfsr == State.reset.mmfsr) = true := by decide

theorem test_reservedEDBC_unprivileged :
    next (exec (.reservedEDBC { reg with unpriv := true } .read) State.reset) (fun t => t.reply == .busFault) = true := by
  decide

theorem test_reservedEDBC_refused : refused (exec (.reservedEDBC reg .read) State.reset) .reservedAddress = true := by
  decide

theorem test_reservedEDE0_refused :
    refused (exec (.reservedEDE0 reg 3#2 (.write 0#32)) State.reset) .reservedAddress = true := by decide

/-- V42.12. -/
theorem test_readMpuCtrl_byte :
    refused (exec (.readMpuCtrl { reg with size := .byte }) State.reset) .registerAccessWidth = true := by decide

/-- V42.15: without an MPU. -/
theorem test_no_mpu_rbar_write :
    next (exec (.writeMpuRbarValid0 reg 0#27 0#4) noRegions) (fun t => t.regions == []) = true ∧
    refused (exec (.writeMpuRbarValid1 reg 0x1000000#27 0#4) noRegions) .absentRegisterWrite = true := by decide

/-! ### ValidateAddress (V40) -/

/-- V40.1. -/
theorem test_default_map_fetches :
    allowed (validateAddress State.reset user 0x00000000#32 .ifetch false) = true ∧
    validateAddress State.reset priv 0x40000000#32 .ifetch false = .violation 0x40000000#32 ∧
    validateAddress State.reset priv 0x5FFFFFFF#32 .ifetch false = .violation 0x5FFFFFFF#32 ∧
    allowed (validateAddress State.reset user 0x60000000#32 .ifetch false) = true ∧
    allowed (validateAddress State.reset user 0x9FFFFFFF#32 .ifetch false) = true ∧
    validateAddress State.reset priv 0xA0000000#32 .ifetch false = .violation 0xA0000000#32 ∧
    validateAddress State.reset priv 0xE000ED90#32 .ifetch false = .violation 0xE000ED90#32 ∧
    allowed (validateAddress State.reset user 0x20000000#32 .normal true) = true := by decide

/-- V40.2. -/
theorem test_unpredictable_control :
    validateAddress (mpu 2#32 []) priv 0x20000000#32 .normal false = .refuse .unpredictableControl ∧
    allowed (validateAddress (mpu 2#32 []) priv 0xE000ED94#32 .normal true) = true ∧
    allowed (validateAddress (mpu 2#32 []) handler 8#32 .vectable false) = true := by decide

/-- V40.3. -/
theorem test_handlers_below_zero :
    allowed (validateAddress (mpu 1#32 []) handler 0x20000000#32 .normal false) = true ∧
    validateAddress (mpu 1#32 []) priv 0x20000000#32 .normal false = .violation 0x20000000#32 ∧
    validateAddress (mpu 3#32 []) handler 0x20000000#32 .normal false = .violation 0x20000000#32 := by decide

/-- V40.4. -/
theorem test_region_edges :
    let s := mpu 1#32 [(0x20000020#32, 0x03000009#32)]
    validateAddress s user 0x2000001F#32 .normal false = .violation 0x2000001F#32 ∧
    passes (validateAddress s user 0x20000020#32 .normal false) SO = true ∧
    passes (validateAddress s user 0x2000003F#32 .normal false) SO = true ∧
    validateAddress s user 0x20000040#32 .normal false = .violation 0x20000040#32 := by decide

/-- V40.5. -/
theorem test_whole_space_region :
    let s := mpu 1#32 [(0#32, 0x0203403F#32)]
    let wb : MemAttrs := { type := .normal .writeBackNoWriteAllocate .writeBackNoWriteAllocate, shareable := false }
    validateAddress s priv 0#32 .unpriv true = .violation 0#32 ∧
    passes (validateAddress s user 0xBFFFFFFF#32 .normal false) wb = true ∧
    validateAddress s user 0xC0000000#32 .normal false = .violation 0xC0000000#32 ∧
    validateAddress s user 0xDFFFFFFF#32 .normal false = .violation 0xDFFFFFFF#32 ∧
    passes (validateAddress s user 0xA0000000#32 .ifetch false) wb = true ∧
    passes (validateAddress s user 0xE0100000#32 .normal false) wb = true ∧
    validateAddress s priv 0xE0100000#32 .ifetch false = .violation 0xE0100000#32 ∧
    passes (validateAddress s priv 0xFFFFFFFF#32 .normal true) wb = true ∧
    allowed (validateAddress s user 0xE000E000#32 .normal true) = true := by decide

/-- V40.6. -/
theorem test_illegal_region_refuses_everything :
    let s r := mpu 1#32 [(0x20000000#32, 0x0300001F#32), (0x30000000#32, r)]
    validateAddress (s 0x03000007#32) priv 0x20000000#32 .normal false = .refuse .unpredictableRegionSize ∧
    allowed (validateAddress (s 0x03000007#32) priv 0xE000ED94#32 .normal false) = true ∧
    allowed (validateAddress (s 0x03000007#32) handler 0x20000000#32 .normal false) = true ∧
    validateAddress (s 0x0300010D#32) priv 0x20000000#32 .normal false = .refuse .unpredictableSubregions ∧
    passes (validateAddress (s 0x0300010F#32) priv 0x20000000#32 .normal false) SO = true ∧
    validateAddress (s 0x0300010F#32) priv 0x3000001F#32 .normal false = .violation 0x3000001F#32 ∧
    passes (validateAddress (s 0x0300010F#32) priv 0x30000020#32 .normal false) SO = true ∧
    passes (validateAddress (s 0x03000006#32) priv 0x20000000#32 .normal false) SO = true := by decide

/-- V40.7. -/
theorem test_highest_region_wins :
    let s := mpu 1#32 [(0x20000000#32, 0x0400001F#32), (0x20000100#32, 0x0309000F#32), (0x20000200#32, 0x0300000F#32)]
    passes (validateAddress s priv 0x20000200#32 .normal false) SO = true ∧
    passes (validateAddress s priv 0x200002FF#32 .normal false) SO = true ∧
    validateAddress s priv 0x20000300#32 .normal false = .refuse .reservedAccessPermission ∧
    validateAddress s priv 0x20000100#32 .normal false = .refuse .reservedMemoryType := by decide

/-- V40.8. -/
theorem test_base_not_aligned_to_size :
    let s := mpu 1#32 [(0x20001000#32, 0x0300001F#32)]
    passes (validateAddress s user 0x20000000#32 .normal false) SO = true ∧
    passes (validateAddress s user 0x2000FFFF#32 .normal false) SO = true ∧
    validateAddress s user 0x20010000#32 .normal false = .violation 0x20010000#32 := by decide

/-- V40.9. -/
theorem test_background_only :
    let s := mpu 5#32 []
    allowed (validateAddress s priv 0x08000000#32 .ifetch false) = true ∧
    validateAddress s user 0x08000000#32 .ifetch false = .violation 0x08000000#32 ∧
    validateAddress s priv 0x20000000#32 .unpriv false = .violation 0x20000000#32 ∧
    validateAddress s priv 0x40000000#32 .ifetch false = .violation 0x40000000#32 ∧
    allowed (validateAddress s user 4#32 .vectable false) = true := by decide

/-- V40.10. -/
theorem test_region_over_system_space :
    let s := mpu 1#32 [(0xE0100000#32, 0x03000027#32)]
    passes (validateAddress s user 0xE0100000#32 .normal false) SO = true ∧
    validateAddress s priv 0xE0100000#32 .ifetch false = .violation 0xE0100000#32 ∧
    allowed (validateAddress s user 0xE00FFFFF#32 .normal false) = true := by decide

/-- V40.11, step 2: IACCVIOL set, MMARVALID cleared, DACCVIOL and MMAR kept. -/
theorem test_validateAddress_fetch_syndrome :
    next (exec (.validateAddress user ⟨0x08000000#32, 0#32⟩ .ifetch false)
      { mpu 5#32 [] with mmfsr := { iaccviol := false, daccviol := true, mmarvalid := true }, mmar := 0x20000000#32 })
      (fun t => t.mmfsr == { iaccviol := true, daccviol := true, mmarvalid := false } && t.mmar == 0x20000000#32 &&
        t.reply == .memManage) = true := by decide

/-- V40.11, step 3: DACCVIOL, MMAR and MMARVALID written, IACCVIOL kept. -/
theorem test_validateAddress_data_syndrome :
    next (exec (.validateAddress user ⟨0x30000000#32, 0#32⟩ .normal true)
      { mpu 5#32 [] with mmfsr := { iaccviol := true, daccviol := true, mmarvalid := false }, mmar := 0x20000000#32 })
      (fun t => t.mmfsr == { iaccviol := true, daccviol := true, mmarvalid := true } && t.mmar == 0x30000000#32 &&
        t.reply == .memManage) = true := by decide

/-- V40.12 by an ordinary write (R74): a word across the end of a region names its third byte. -/
theorem test_validateAddress_across_a_boundary :
    next (exec (.validateAddress user ⟨0x2000FFFE#32, 3#32⟩ .normal true) (mpu 1#32 [(0x20000000#32, 0x0300001F#32)])) (fun t =>
      t.reply == .memManage && t.mmar == 0x20010000#32) = true := by decide

/-- R74: 32 bytes at a multiple of 32 are one check, 33 bytes one for each. -/
theorem test_validateAddress_checks :
    let checks more := next (exec (.validateAddress user ⟨0x2000FFE0#32, more⟩ .normal false) State.reset) (fun t =>
      match t.reply with
      | .ok ds _ => ds.length == (if more == 31#32 then 1 else 33)
      | .idle => false
      | .memManage => false
      | .lockup => false
      | .busFault => false)
    checks 31#32 = true ∧ checks 32#32 = true := by decide

/-! ### Attributes and permissions (V41) -/

/-- V41.1: privileged read, privileged write, unprivileged read, unprivileged write. -/
theorem test_permissions :
    let row ap := [permits ap true false, permits ap true true, permits ap false false, permits ap false true]
    row 0#3 = [some false, some false, some false, some false] ∧
    row 1#3 = [some true, some true, some false, some false] ∧
    row 2#3 = [some true, some true, some true, some false] ∧
    row 3#3 = [some true, some true, some true, some true] ∧
    row 4#3 = [none, none, none, none] ∧
    row 5#3 = [some true, some false, some false, some false] ∧
    row 6#3 = [some true, some false, some true, some false] ∧
    row 7#3 = [some true, some false, some true, some false] := by decide

/-- V41.2: privileged fetch, unprivileged fetch. -/
theorem test_fetch_permissions :
    let row ap xn := [checkPermission ⟨ap, xn⟩ true .ifetch false, checkPermission ⟨ap, xn⟩ false .ifetch false]
    row 1#3 false = [some true, some false] ∧ row 1#3 true = [some false, some false] ∧
    row 5#3 false = [some true, some false] ∧ row 6#3 false = [some true, some true] ∧
    row 6#3 true = [some false, some false] ∧ row 0#3 false = [some false, some false] ∧
    row 3#3 true = [some false, some false] := by decide

/-- V41.3, the rows with two policies, from the RASR words. -/
theorem test_tex_decode :
    let m w := texDecode Config.atReset (rasrOfWord w).texcb (rasrOfWord w).s
    m 0x0304000F#32 = .ok SO ∧
    m 0x0301000F#32 = .ok { type := .device, shareable := true } ∧
    m 0x0306000F#32 = .ok { type := .normal .writeThrough .writeThrough, shareable := true } ∧
    m 0x0309000F#32 = .error .reservedMemoryType ∧
    m 0x0314000F#32 = .ok { type := .device, shareable := false } ∧
    m 0x031B000F#32 = .error .reservedMemoryType ∧
    m 0x0321000F#32 = .ok { type := .normal .writeBackWriteAllocate .nonCacheable, shareable := false } ∧
    m 0x032E000F#32 = .ok { type := .normal .writeThrough .writeBackWriteAllocate, shareable := true } ∧
    m 0x0333000F#32 = .ok { type := .normal .writeBackNoWriteAllocate .writeThrough, shareable := false } := by decide

/-! ### The unprivileged loads and stores (V43, V40.12) -/

/-- The two regions of V43. -/
def v43 (c : Word) : State := mpu c [(0x20000000#32, 0x0100001F#32), (0x20010000#32, 0x0200001F#32)]

/-- V43.1, the row 001: other privileged software, then the specified handlers. -/
theorem test_ldrt_row_001 :
    next (exec (.ldrt priv 0x20000010#32) (v43 1#32)) (fun t => t.reply == .memManage && t.mmar == 0x20000010#32) = true ∧
    next (exec (.ldrt handler 0x20000010#32) (v43 1#32)) (fun t => value t == some 0#32) = true := by decide

/-- V43.1, the rows 010 and 011. -/
theorem test_ldrt_rows_010_011 :
    refused (exec (.ldrt priv 0x20000010#32) (v43 2#32)) .unpredictableControl = true ∧
    next (exec (.ldrt handler 0x20000010#32) (v43 3#32)) (fun t => t.reply == .lockup && t.lockedUp &&
      t.mmar == 0x20000010#32) = true := by decide

/-- V43.2. -/
theorem test_strbt_read_only :
    next (exec (.strbt priv 0x20010000#32 1#32) (v43 1#32)) (fun t => t.reply == .memManage &&
      t.mmar == 0x20010000#32 && t.mem == []) = true := by decide

/-- V43.5: BusFault, MPU_CTRL unchanged. -/
theorem test_strt_of_a_register :
    next (exec (.strt priv 0xE000ED94#32 1#32) (v43 0#32)) (fun t => t.reply == .busFault &&
      t.ctrl == (v43 0#32).ctrl) = true := by decide

/-- V40.12: the third byte fails and no byte is written. -/
theorem test_strt_across_the_end_of_a_region :
    next (exec (.strt user 0x2000FFFE#32 0x11223344#32) (mpu 1#32 [(0x20000000#32, 0x0300001F#32)])) (fun t =>
      t.reply == .memManage && t.mmar == 0x20010000#32 && t.mem == []) = true := by decide

/-- Log 29: the low byte of the value at the lowest address, and across the end of the address space (log 31). -/
theorem test_strht_little_endian :
    next (exec (.strht priv 0xFFFFFFFF#32 0x11223344#32) State.reset) (fun t =>
      t.mem == [(0, 0x33#8), (0xFFFFFFFF, 0x44#8)]) = true := by decide

/-- Log 28: sign and zero extension. -/
theorem test_ldrsbt_sign :
    next (exec (.ldrsbt priv 5#32) { State.reset with mem := [(5, 0x80#8)] }) (fun t =>
      value t == some 0xFFFFFF80#32) = true := by decide

theorem test_ldrbt_zero :
    next (exec (.ldrbt priv 5#32) { State.reset with mem := [(5, 0x80#8)] }) (fun t => value t == some 0x80#32) = true := by
  decide

theorem test_ldrsht_sign :
    next (exec (.ldrsht priv 4#32) { State.reset with mem := [(4, 0x01#8), (5, 0x80#8)] }) (fun t =>
      value t == some 0xFFFF8001#32) = true := by decide

theorem test_ldrht_big_endian :
    next (exec (.ldrht priv 4#32)
      { State.reset with cfg := { Config.atReset with dataBigEndian := true }, mem := [(4, 0x01#8), (5, 0x80#8)] })
      (fun t => value t == some 0x0180#32) = true := by decide

/-! ### Witnesses: states and operands for the hypotheses of the statements -/

/-- A region of 64KB at 0x20000000 by its RASR word. -/
def at2 (rasr : Word) : Region := region 0x20000000#32 rasr

/-- An MPU in use with that one region. -/
def one (c rasr : Word) : State := mpu c [(0x20000000#32, rasr)]

theorem contains_at2 (rasr a : Word)
    (h : (rasrOfWord rasr).enable = true ∧
      ((at2 rasr).start ≤ a.toNat ∧ a.toNat < (at2 rasr).start + 2 ^ ((rasrOfWord rasr).size.toNat + 1)) ∧
      (rasrOfWord rasr).srd.getLsbD ((at2 rasr).eighth a) = false) : Contains (at2 rasr) a :=
  ⟨h.1, h.2.1, fun _ => h.2.2⟩

theorem winner_one (c rasr a : Word) (h : Contains (at2 rasr) a) : (one c rasr).Winner a (at2 rasr) := by
  refine ⟨0, rfl, h, fun q g hq hg => ?_⟩
  obtain ⟨q, rfl⟩ : ∃ k, q = k + 1 := ⟨q - 1, by omega⟩
  simp [one, mpu] at hg

theorem unmapped_one (c rasr a : Word) (h : ¬ Contains (at2 rasr) a) : (one c rasr).Unmapped a := by
  intro g hg
  simp only [one, mpu, List.map_cons, List.map_nil, List.mem_singleton] at hg
  rw [hg]; exact h

theorem legal_one (c rasr : Word) (h : ¬ IllegalRegion (at2 rasr)) : (one c rasr).RegionsLegal := by
  intro g hg
  simp only [one, mpu, List.map_cons, List.map_nil, List.mem_singleton] at hg
  rw [hg]; exact h

theorem trailing_atReset (r : Nat) : Config.atReset.trailing r = 0 := by
  unfold Config.trailing Config.atReset
  match r with
  | 0 | 1 | 2 | 3 | 4 | 5 | 6 | 7 => rfl
  | n + 8 => rfl

theorem reset_inv : State.reset.Inv where
  oneEntryPerRegion := rfl
  selectedRegionExists := by decide
  lowAddrBitsZero := fun r _ _ k hk => absurd hk (by show ¬ k < Config.atReset.trailing r; rw [trailing_atReset]; omega)
  noMpuNoControl := by decide
  memoryCanonical := by decide

theorem one_inv (c rasr : Word) : (one c rasr).Inv where
  oneEntryPerRegion := rfl
  selectedRegionExists := fun _ => by show (0 : Nat) < 1; decide
  lowAddrBitsZero := fun r _ _ k hk => absurd hk (by show ¬ k < Config.atReset.trailing r; rw [trailing_atReset]; omega)
  noMpuNoControl := fun h => absurd h (by show ¬ (1 : Nat) = 0; decide)
  memoryCanonical := by show Memory.wf []; decide

theorem noRegions_inv : noRegions.Inv where
  oneEntryPerRegion := rfl
  selectedRegionExists := by decide
  lowAddrBitsZero := fun r g h => by simp [noRegions, State.resetWith, ResetDraw.zero] at h
  noMpuNoControl := by decide
  memoryCanonical := by decide

theorem proper_reg : Proper reg := ⟨rfl, rfl, rfl, rfl⟩

theorem unprivileged_by_instruction : Unprivileged { reg with unpriv := true } := .inl rfl

theorem unprivileged_by_software : Unprivileged { reg with proc := user } := .inr rfl

theorem witness_DecodeOfEncodeIsTheOperation : (Instr.validateAddress user ⟨0xFFFFFFFF#32, 0#32⟩ .unpriv true).wf = true := by
  decide

theorem witness_DecodedOperationsAreWellFormed :
    decode ⟨0x20000000#32, 0x88#32, 0#32⟩ = .ok (.validateAddress priv ⟨0x20000000#32, 0#32⟩ .ifetch false) := by decide

theorem witness_ResetLeavesTheMpuDisabled : Proper reg := proper_reg

theorem witness_StepPerformsTheOldestTransaction_runs :
    (State.reset.withFetchWord 32 0xE000ED90).lockedUp = false ∧
    (State.reset.withFetchWord 32 0xE000ED90).queue = ⟨0xE000ED90#32, 0#32, 0#32⟩ :: [] ∧
    decode ⟨0xE000ED90#32, 0#32, 0#32⟩ = .ok (.readMpuType reg) := by decide

theorem witness_StepPerformsTheOldestTransaction_refuses :
    (State.reset.withFetchWord 32 0).lockedUp = false ∧
    (State.reset.withFetchWord 32 0).queue = ⟨0#32, 0#32, 0#32⟩ :: [] ∧
    decode ⟨0#32, 0#32, 0#32⟩ = .error .notARegisterAddress := by decide

theorem witness_StepPerformsTheOldestTransaction_idle : State.reset.lockedUp = false ∧ State.reset.queue = [] := by
  decide

/-- A fetch from an execute-never range, at priority 0 or above and below it. -/
theorem witness_LockupIsTerminal :
    (∃ t, State.reset.lockedUp = false ∧
      exec (.validateAddress handler ⟨0x40000000#32, 0#32⟩ .ifetch false) State.reset = .next t ∧ t.lockedUp = true) ∧
    (∃ t, State.reset.lockedUp = false ∧
      exec (.validateAddress priv ⟨0x40000000#32, 0#32⟩ .ifetch false) State.reset = .next t ∧ t.lockedUp = false) ∧
    (State.reset.lockUp).lockedUp = true :=
  ⟨⟨_, rfl, rfl, rfl⟩, ⟨_, rfl, rfl, rfl⟩, rfl⟩

theorem witness_StepKeepsTheInvariant :
    ∃ t, State.reset.Inv ∧
      step (State.reset.setQueue [⟨0xE000ED9C#32, 1#32, 0xFFFFFFF7#32⟩]) = .next t ∧ t.rnr = 7#8 :=
  ⟨_, reset_inv, rfl, rfl⟩

theorem witness_StepKeepsEnabledSizesSupported :
    ∃ t, (one 0#32 0x03000009#32).EnabledSizesSupported ∧
      step ((one 0#32 0x03000009#32).setQueue [⟨0xE000EDA0#32, 1#32, 0x03000009#32⟩]) = .next t := by
  refine ⟨_, ?_, rfl⟩
  intro r g h _
  cases r with
  | zero =>
    simp only [one, mpu, List.map_cons, List.map_nil, List.getElem?_cons_zero, Option.some.injEq] at h
    subst h; decide
  | succ r => simp [one, mpu] at h

theorem witness_ViolationBitsStaySet :
    ∃ t, step ({ State.reset with mmfsr := { iaccviol := true, daccviol := true, mmarvalid := true } }.withFetchWord 32
      0xE000ED90) = .next t := ⟨_, rfl⟩

theorem witness_OnlyProperWritesChangeTheMpu :
    ∃ t, exec (.writeMpuCtrl reg 5#32) State.reset = .next t ∧ t.ctrl ≠ State.reset.ctrl :=
  ⟨_, rfl, by decide⟩

/-- The last byte of a word at the end of the address space. -/
theorem witness_OnlyStoresChangeMemory :
    ∃ t, State.reset.mem.wf ∧ exec (.strt priv 0xFFFFFFFC#32 0x11000000#32) State.reset = .next t ∧
      t.mem.read 0xFFFFFFFF ≠ State.reset.mem.read 0xFFFFFFFF := ⟨_, by decide, rfl, by decide⟩

theorem witness_UnprivilegedRegisterAccessRaisesBusFault :
    Unprivileged { reg with unpriv := true } ∧ Unprivileged { reg with proc := user } ∧
    ∃ t, exec (.validateAddress user ⟨0x40000000#32, 0#32⟩ .ifetch false) State.reset = .next t ∧ t.reply ≠ .busFault :=
  ⟨unprivileged_by_instruction, unprivileged_by_software, _, rfl, by decide⟩

/-- The first byte, the last byte, and a halfword of which only the second byte is in the block. -/
theorem witness_UnprivilegedInstructionOnTheBlockRaisesBusFault :
    (unprivAccessOf (.ldrbt priv 0xE000ED90#32) = some (priv, 0xE000ED90#32, .byte, false) ∧
      TouchesBlock 0xE000ED90#32 (bytesOf .byte)) ∧
    (unprivAccessOf (.strbt priv 0xE000EDEF#32 0#32) = some (priv, 0xE000EDEF#32, .byte, true) ∧
      TouchesBlock 0xE000EDEF#32 (bytesOf .byte)) ∧
    (unprivAccessOf (.ldrht priv 0xE000ED8F#32) = some (priv, 0xE000ED8F#32, .half, false) ∧
      TouchesBlock 0xE000ED8F#32 (bytesOf .half)) ∧
    (∃ t, exec (.readMpuType { reg with proc := user }) State.reset = .next t ∧ t.reply = .busFault) ∧
    ∃ t, exec (.ldrbt priv 0xE000ED90#32) State.reset = .next t ∧ t.reply = .busFault :=
  ⟨⟨rfl, 0, by decide⟩, ⟨rfl, 0, by decide⟩, ⟨rfl, 1, by decide⟩, ⟨_, rfl, rfl⟩, _, rfl, rfl⟩

theorem privileged_with (z : AccSize) (l : BitVec 2) : ¬ Unprivileged { reg with size := z, lane := l } := by
  simp [Unprivileged, reg, priv]

theorem witness_MisshapenRegisterAccessIsRefused :
    (regAccessOf (.readMpuCtrl { reg with size := .byte }) = some ({ reg with size := .byte }, false) ∧
      ¬ Unprivileged { reg with size := .byte, lane := 0#2 } ∧ AccSize.byte ≠ .word) ∧
    (regAccessOf (.readMpuCtrl { reg with lane := 1#2 }) = some ({ reg with lane := 1#2 }, false) ∧
      ¬ Unprivileged { reg with size := .word, lane := 1#2 } ∧ 1#2 ≠ 0#2) :=
  ⟨⟨rfl, privileged_with _ _, by decide⟩, ⟨rfl, privileged_with _ _, by decide⟩⟩

theorem witness_ReadMpuTypeGivesTheRegionCount : Unprivileged { reg with proc := user } ∧ Proper reg :=
  ⟨unprivileged_by_software, proper_reg⟩

theorem witness_WriteMpuTypeIsIgnoredOrRefused :
    Proper reg ∧ { State.reset with cfg := { Config.atReset with roWriteIgnored := true } }.cfg.roWriteIgnored = true ∧
    State.reset.cfg.roWriteIgnored = false := ⟨proper_reg, rfl, rfl⟩

theorem witness_ReadMpuCtrlGivesTheControlBits :
    Proper reg ∧ noRegions.cfg.nregions.val = 0 ∧ State.reset.cfg.nregions.val ≠ 0 ∧
    State.reset.ctrlWritten = false ∧ (one 5#32 0#32).cfg.nregions.val ≠ 0 ∧ (one 5#32 0#32).ctrlWritten = true :=
  ⟨proper_reg, rfl, by decide, rfl, by decide, rfl⟩

theorem witness_WriteMpuCtrlStoresTheControlBits :
    Unprivileged { reg with proc := user } ∧ Proper reg ∧ State.reset.cfg.nregions.val ≠ 0 :=
  ⟨unprivileged_by_software, proper_reg, by decide⟩

theorem witness_ReadMpuRnrGivesTheRegionNumber :
    Unprivileged { reg with proc := user } ∧ Proper reg ∧ State.reset.cfg.nregions.val ≠ 0 :=
  ⟨unprivileged_by_software, proper_reg, by decide⟩

/-- Region 8 of eight is refused, region 7 selected. -/
theorem witness_WriteMpuRnrSelectsARegion :
    Unprivileged { reg with proc := user } ∧ Proper reg ∧ State.reset.cfg.nregions.val ≠ 0 ∧
    State.reset.cfg.nregions.val ≤ ((8#32).extractLsb' 0 8).toNat ∧
    ((0x107#32).extractLsb' 0 8).toNat < State.reset.cfg.nregions.val :=
  ⟨unprivileged_by_software, proper_reg, by decide, by decide, by decide⟩

theorem witness_ReadRbarWindowsGiveTheBaseAddress :
    Proper reg ∧ (one 0#32 0#32).cfg.nregions.val ≠ 0 ∧ (one 0#32 0#32).rnrWritten = true ∧
    (one 0#32 0#32).regions[(one 0#32 0#32).rnr.toNat]? = some (at2 0#32) ∧ (one 0#32 0#32).Inv :=
  ⟨proper_reg, by decide, rfl, rfl, one_inv _ _⟩

theorem witness_WriteRbarWindowsValid0SetTheSelectedBase :
    Proper reg ∧ (selected 7#8).cfg.nregions.val ≠ 0 ∧ (selected 7#8).rnrWritten = true ∧
    (selected 7#8).regions[(selected 7#8).rnr.toNat]? = some Region.zero :=
  ⟨proper_reg, by decide, rfl, rfl⟩

/-- Region 8 of eight is refused, region 7 written. -/
theorem witness_WriteRbarWindowsValid1SelectAndSetTheBase :
    Unprivileged { reg with unpriv := true } ∧ Proper reg ∧ State.reset.cfg.nregions.val ≠ 0 ∧
    State.reset.cfg.nregions.val < 16 ∧ State.reset.cfg.nregions.val ≤ (8#4).toNat ∧
    (7#4).toNat < State.reset.cfg.nregions.val ∧ State.reset.regions[(7#4).toNat]? = some Region.zero :=
  ⟨unprivileged_by_instruction, proper_reg, by decide, by decide, by decide, by decide, rfl⟩

theorem witness_ReadRasrWindowsGiveTheAttributes :
    Proper reg ∧ (selected 7#8).cfg.nregions.val ≠ 0 ∧ (selected 7#8).rnrWritten = true ∧
    (selected 7#8).regions[(selected 7#8).rnr.toNat]? = some Region.zero :=
  ⟨proper_reg, by decide, rfl, rfl⟩

/-- SIZE 3 and SIZE 4 with a minimum of 32 bytes; SIZE 3, disabled, with the parameter set. -/
theorem witness_WriteRasrWindowsSetTheAttributes :
    (Proper reg ∧ (selected 0#8).cfg.nregions.val ≠ 0 ∧ (selected 0#8).rnrWritten = true ∧
      (selected 0#8).regions[(selected 0#8).rnr.toNat]? = some Region.zero) ∧
    (((6#32).extractLsb' 1 5).toNat + 1 < (selected 0#8).cfg.minLog2 (selected 0#8).rnr.toNat ∧
      (selected 0#8).cfg.sizeCheckOnlyWhenEnabled = false) ∧
    (selected 0#8).cfg.minLog2 (selected 0#8).rnr.toNat ≤ ((8#32).extractLsb' 1 5).toNat + 1 ∧
    ((6#32).getLsbD 0 = false ∧
      { selected 0#8 with cfg := { Config.atReset with sizeCheckOnlyWhenEnabled := true } }.cfg.sizeCheckOnlyWhenEnabled
        = true) :=
  ⟨⟨proper_reg, by decide, rfl, rfl⟩, by decide, by decide, by decide, rfl⟩

theorem witness_WindowsAreRefusedBeforeASelection :
    Proper reg ∧ State.reset.cfg.nregions.val ≠ 0 ∧ State.reset.rnrWritten = false :=
  ⟨proper_reg, by decide, rfl⟩

/-- The first two words of R212's stream, from reset, for the last of eight regions. -/
theorem witness_StreamOfTwoWordsSetsOneRegion :
    let s := State.reset.setQueue (stmStream reg (rbarAddress 0) [rbarWordOf 0x1000000#27 true 7#4, 0x0300001F#32] ++ [])
    s.lockedUp = false ∧ Proper reg ∧ (7#4).toNat < s.cfg.nregions.val ∧ s.regions[(7#4).toNat]? = some Region.zero ∧
    s.cfg.minLog2 (7#4).toNat ≤ ((0x0300001F#32).extractLsb' 1 5).toNat + 1 ∧
    s.queue = stmStream reg (rbarAddress 0) [rbarWordOf 0x1000000#27 true 7#4, 0x0300001F#32] ++ [] :=
  ⟨rfl, proper_reg, by decide, rfl, by decide, rfl⟩

theorem witness_ProbeFindsTheMinimumSize :
    Proper reg ∧ (selected 7#8).cfg.nregions.val ≠ 0 ∧ (selected 7#8).rnrWritten = true ∧
    (selected 7#8).regions[(selected 7#8).rnr.toNat]? = some Region.zero :=
  ⟨proper_reg, by decide, rfl, rfl⟩

theorem witness_ReservedAddressesFollowTheDecision :
    Unprivileged { reg with proc := user } ∧ Proper reg ∧ State.reset.cfg.nregions.val ≠ 0 ∧
    noRegions.cfg.nregions.val = 0 ∧ (1#32 : Word) ≠ 0#32 :=
  ⟨unprivileged_by_software, proper_reg, by decide, rfl, by decide⟩

theorem witness_AbsentMpuRegistersReadAnythingAndIgnoreZero :
    Proper reg ∧ noRegions.cfg.nregions.val = 0 ∧ (1#32 : Word) ≠ 0#32 ∧ (0#27 ≠ 0#27 ∨ 1#4 ≠ 0#4) :=
  ⟨proper_reg, rfl, by decide, by decide⟩

/-- The first and the last address of the PPB, and a vector read. -/
theorem witness_VectorReadsAndPpbUseTheDefaultMap :
    OnPPB 0xE0000000#32 ∧ OnPPB 0xE00FFFFF#32 ∧ (AccType.vectable = .vectable ∨ OnPPB 0#32) := by
  refine ⟨?_, ?_, .inl rfl⟩ <;> unfold OnPPB <;> decide

theorem witness_DisabledMpuUsesTheDefaultMap :
    (State.reset.ctrl.enable = false ∧ State.reset.ctrl.hfnmiena = false) ∧
    (noRegions.Inv ∧ noRegions.cfg.nregions.val = 0) := ⟨⟨rfl, rfl⟩, noRegions_inv, rfl⟩

/-- The addresses next to the PPB. -/
theorem witness_UnpredictableControlIsRefused :
    (mpu 2#32 []).ctrl.enable = false ∧ (mpu 2#32 []).ctrl.hfnmiena = true ∧ AccType.normal ≠ .vectable ∧
    ¬ OnPPB 0xDFFFFFFF#32 ∧ ¬ OnPPB 0xE0100000#32 := by
  refine ⟨rfl, rfl, by decide, ?_, ?_⟩ <;> unfold OnPPB <;> decide

theorem witness_HandlersBelowPriorityZero :
    ((mpu 1#32 []).ctrl.enable = true ∧ (mpu 1#32 []).ctrl.hfnmiena = false ∧ handler.prioBelowZero = true) ∧
    ((mpu 3#32 []).ctrl.enable = true ∧ (mpu 3#32 []).ctrl.hfnmiena = true) := by decide

theorem mpuOn_one (rasr : Word) : (one 1#32 rasr).MpuOn priv := ⟨rfl, .inr rfl⟩

theorem mpuOn_five (rasr : Word) : (one 5#32 rasr).MpuOn priv := ⟨rfl, .inr rfl⟩

theorem not_ppb_start : ¬ OnPPB 0x20000000#32 := by unfold OnPPB; decide

theorem not_ppb_end : ¬ OnPPB 0x2000FFFF#32 := by unfold OnPPB; decide

theorem not_ppb_after : ¬ OnPPB 0x20010000#32 := by unfold OnPPB; decide

theorem contains_end (rasr : Word) (h : rasr = 0x0300001F#32 ∨ rasr = 0x0400001F#32 ∨ rasr = 0x0318001F#32 ∨
    rasr = 0x0100001F#32 ∨ rasr = 0x0200001F#32) : Contains (at2 rasr) 0x2000FFFF#32 := by
  rcases h with rfl | rfl | rfl | rfl | rfl <;> exact contains_at2 _ _ (by decide)

theorem not_contains_after : ¬ Contains (at2 0x0300001F#32) 0x20010000#32 := by
  intro h; exact absurd h.2.1 (by unfold InRegion; decide)

theorem not_illegal (rasr : Word) (h : 7 ≤ (rasrOfWord rasr).size.toNat) : ¬ IllegalRegion (at2 rasr) := by
  rintro ⟨-, h' | ⟨h', -⟩⟩ <;> simp only [at2, region] at h' <;> omega

theorem illegal_size_3 : IllegalRegion (at2 0x03000007#32) := ⟨rfl, .inl (by decide)⟩

/-- Each clause, at the last address of a region of 64KB or the first after it. -/
theorem witness_RegionLoopMeetsTheDecisionTable_illegal :
    (one 1#32 0x03000007#32).MpuOn priv ∧ AccType.normal ≠ .vectable ∧ ¬ OnPPB 0x2000FFFF#32 ∧
    ¬ (one 1#32 0x03000007#32).RegionsLegal :=
  ⟨mpuOn_one _, by decide, not_ppb_end, fun h => h _ (List.mem_singleton.mpr rfl) illegal_size_3⟩

theorem witness_RegionLoopMeetsTheDecisionTable_reserved_type :
    (one 1#32 0x0318001F#32).MpuOn priv ∧ (one 1#32 0x0318001F#32).RegionsLegal ∧
    (one 1#32 0x0318001F#32).Winner 0x2000FFFF#32 (at2 0x0318001F#32) ∧
    texDecode (one 1#32 0x0318001F#32).cfg (at2 0x0318001F#32).rasr.texcb (at2 0x0318001F#32).rasr.s
      = .error .reservedMemoryType :=
  ⟨mpuOn_one _, legal_one _ _ (not_illegal _ (by decide)), winner_one _ _ _ (contains_end _ (by decide)), by decide⟩

theorem witness_RegionLoopMeetsTheDecisionTable_reserved_ap :
    (one 1#32 0x0400001F#32).MpuOn priv ∧ (one 1#32 0x0400001F#32).RegionsLegal ∧
    (one 1#32 0x0400001F#32).Winner 0x2000FFFF#32 (at2 0x0400001F#32) ∧
    texDecode (one 1#32 0x0400001F#32).cfg (at2 0x0400001F#32).rasr.texcb (at2 0x0400001F#32).rasr.s = .ok SO ∧
    (at2 0x0400001F#32).rasr.ap = 4#3 :=
  ⟨mpuOn_one _, legal_one _ _ (not_illegal _ (by decide)), winner_one _ _ _ (contains_end _ (by decide)), by decide,
    rfl⟩

theorem witness_RegionLoopMeetsTheDecisionTable_allowed :
    (one 1#32 0x0300001F#32).MpuOn priv ∧ (one 1#32 0x0300001F#32).RegionsLegal ∧
    (one 1#32 0x0300001F#32).Winner 0x2000FFFF#32 (at2 0x0300001F#32) ∧
    texDecode (one 1#32 0x0300001F#32).cfg (at2 0x0300001F#32).rasr.texcb (at2 0x0300001F#32).rasr.s = .ok SO ∧
    (at2 0x0300001F#32).rasr.ap ≠ 4#3 ∧ RegionAllows (at2 0x0300001F#32) 0x2000FFFF#32 (ispriv priv .ifetch) .ifetch false :=
  ⟨mpuOn_one _, legal_one _ _ (not_illegal _ (by decide)), winner_one _ _ _ (contains_end _ (by decide)), by decide,
    by decide, .inr (.inr (.inl rfl)), fun _ => ⟨rfl, by decide⟩⟩

theorem witness_RegionLoopMeetsTheDecisionTable_forbidden :
    (one 1#32 0x0100001F#32).MpuOn user ∧ (one 1#32 0x0100001F#32).RegionsLegal ∧
    (one 1#32 0x0100001F#32).Winner 0x2000FFFF#32 (at2 0x0100001F#32) ∧
    texDecode (one 1#32 0x0100001F#32).cfg (at2 0x0100001F#32).rasr.texcb (at2 0x0100001F#32).rasr.s = .ok SO ∧
    (at2 0x0100001F#32).rasr.ap ≠ 4#3 ∧
    ¬ RegionAllows (at2 0x0100001F#32) 0x2000FFFF#32 (ispriv user .normal) .normal false :=
  ⟨⟨rfl, .inr rfl⟩, legal_one _ _ (not_illegal _ (by decide)), winner_one _ _ _ (contains_end _ (by decide)),
    by decide, by decide, fun h => absurd h.1 (by unfold AllowedBy; decide)⟩

theorem witness_RegionLoopMeetsTheDecisionTable_background :
    (one 5#32 0x0300001F#32).MpuOn priv ∧ (one 5#32 0x0300001F#32).RegionsLegal ∧
    (one 5#32 0x0300001F#32).Unmapped 0x20010000#32 ∧ (one 5#32 0x0300001F#32).ctrl.privdefena = true ∧
    PrivilegedAccess priv .normal ∧ ¬ OnPPB 0x20010000#32 :=
  ⟨mpuOn_five _, legal_one _ _ (not_illegal _ (by decide)), unmapped_one _ _ _ not_contains_after, rfl,
    ⟨rfl, by decide⟩, not_ppb_after⟩

theorem witness_RegionLoopMeetsTheDecisionTable_no_hit :
    (one 1#32 0x0300001F#32).MpuOn priv ∧ (one 1#32 0x0300001F#32).RegionsLegal ∧
    (one 1#32 0x0300001F#32).Unmapped 0x20010000#32 ∧
    ¬ ((one 1#32 0x0300001F#32).ctrl.privdefena = true ∧ PrivilegedAccess priv .normal) :=
  ⟨mpuOn_one _, legal_one _ _ (not_illegal _ (by decide)), unmapped_one _ _ _ not_contains_after,
    fun h => absurd h.1 (by decide)⟩

/-- An allowed access, one the region refuses, one that no region contains, and one a reserved AP refuses. -/
theorem witness_EveryVerdictHasItsRow :
    (one 1#32 0x0300001F#32).MpuOn user ∧ AccType.normal ≠ .vectable ∧ ¬ OnPPB 0x2000FFFF#32 ∧
    validateAddress (one 1#32 0x0300001F#32) user 0x2000FFFF#32 .normal true =
      .ok [{ physicaladdress := 0x2000FFFF#32, memattrs := SO }] ∧
    (one 1#32 0x0100001F#32).MpuOn user ∧
    validateAddress (one 1#32 0x0100001F#32) user 0x2000FFFF#32 .normal true = .violation 0x2000FFFF#32 ∧
    ¬ OnPPB 0x20010000#32 ∧
    validateAddress (one 1#32 0x0300001F#32) user 0x20010000#32 .normal true = .violation 0x20010000#32 ∧
    (one 1#32 0x0400001F#32).MpuOn user ∧
    validateAddress (one 1#32 0x0400001F#32) user 0x2000FFFF#32 .normal true = .refuse .reservedAccessPermission :=
  ⟨⟨rfl, .inr rfl⟩, by decide, not_ppb_end, by decide, ⟨rfl, .inr rfl⟩, by decide, not_ppb_after, by decide,
    ⟨rfl, .inr rfl⟩, by decide⟩

/-- Region 0 with AP 100 under region 1 of 64KB. -/
theorem witness_LowerRegionsMakeNoDifference :
    let s := mpu 1#32 [(0x20000000#32, 0x0400001F#32), (0x20000000#32, 0x0300001F#32)]
    0 < 1 ∧ s.regions[0]? = some (at2 0x0400001F#32) ∧ s.regions[1]? = some (at2 0x0300001F#32) ∧
    Contains (at2 0x0300001F#32) 0x2000FFFF#32 ∧ ¬ IllegalRegion (at2 0x0400001F#32) ∧ ¬ IllegalRegion Region.zero ∧
    ¬ IllegalRegion (at2 0x0300001F#32) :=
  ⟨by decide, rfl, rfl, contains_end _ (by decide), not_illegal _ (by decide), fun h => absurd h.1 (by decide),
    not_illegal _ (by decide)⟩

theorem witness_OnlyPrivilegedCodeExecutesFromTheBackground :
    (∀ g ∈ (one 5#32 0#32).regions, g.rasr.enable = false) ∧ (one 5#32 0#32).ctrl.privdefena = true ∧
    (one 5#32 0#32).MpuOn priv ∧ (one 5#32 0#32).MpuOn user ∧ ¬ OnPPB 0x20000000#32 ∧ priv.findPriv = true ∧
    user.findPriv = false := by
  refine ⟨?_, rfl, ⟨rfl, .inr rfl⟩, ⟨rfl, .inr rfl⟩, not_ppb_start, rfl, rfl⟩
  intro g hg
  simp only [one, mpu, List.map_cons, List.map_nil, List.mem_singleton] at hg
  rw [hg]; rfl

/-- The first address of System space. -/
theorem witness_SystemSpaceIsExecuteNever : 0xE0000000 ≤ (0xE0000000#32).toNat := by decide

theorem witness_AllowedAccessIsNotTranslated :
    validateAddress State.reset user 0xFFFFFFFF#32 .normal true =
      .ok [{ physicaladdress := 0xFFFFFFFF#32, memattrs := Config.defaultMemAttrs 0xFFFFFFFF#32 }] := rfl

/-- The three defined rows, then each clause of what the regions make of the access. -/
theorem witness_TableOfUnprivilegedInstructions :
    ¬ OnPPB 0x2000FFFF#32 ∧
    ((one 0#32 0x0300001F#32).ctrl.hfnmiena = false ∧ (one 0#32 0x0300001F#32).ctrl.enable = false) ∧
    ((one 1#32 0x0300001F#32).ctrl.hfnmiena = false ∧ (one 1#32 0x0300001F#32).ctrl.enable = true ∧
      handler.prioBelowZero = true ∧ priv.prioBelowZero = false ∧ (one 1#32 0x0300001F#32).RegionsLegal) ∧
    ((one 3#32 0x0300001F#32).ctrl.hfnmiena = true ∧ (one 3#32 0x0300001F#32).ctrl.enable = true ∧
      (one 3#32 0x0300001F#32).RegionsLegal) ∧
    (one 3#32 0x0300001F#32).Unmapped 0x20010000#32 ∧
    ((one 3#32 0x0300001F#32).Winner 0x2000FFFF#32 (at2 0x0300001F#32) ∧
      AllowedBy (at2 0x0300001F#32).rasr.ap false true) ∧
    ((one 3#32 0x0100001F#32).Winner 0x2000FFFF#32 (at2 0x0100001F#32) ∧
      ¬ AllowedBy (at2 0x0100001F#32).rasr.ap false false) := by
  refine ⟨not_ppb_end, ⟨rfl, rfl⟩, ⟨rfl, rfl, rfl, rfl, legal_one _ _ (not_illegal _ (by decide))⟩,
    ⟨rfl, rfl, legal_one _ _ (not_illegal _ (by decide))⟩, unmapped_one _ _ _ not_contains_after,
    ⟨winner_one _ _ _ (contains_end _ (by decide)), ?_⟩, ⟨winner_one _ _ _ (contains_end _ (by decide)), ?_⟩⟩ <;>
  unfold AllowedBy <;> decide

theorem witness_ReservedTexRowsAreRefused :
    { Config.atReset with impdefAttr := .refuse }.impdefAttr = .refuse ∧
    Config.atReset.impdefAttr = .attrs (Config.freeImpdefAttr false) (Config.freeImpdefAttr true) := ⟨rfl, rfl⟩

/-- The first and the last byte of a block at the end of a region. -/
theorem witness_OneVerdictInAnAlignedBlock : (0x2000FFE0#32).toNat / 32 = (0x2000FFFF#32).toNat / 32 := by decide

/-- A word, and 32 bytes; V40.12: the third byte is the first that fails; and a word of which every byte passes. -/
theorem witness_OneCheckWhenAlignedElseEveryByte :
    let s := one 1#32 0x0300001F#32
    (NaturallyAligned 0x2000FFE0#32 32 ∧ 4 = bytesOf .word ∧ (0x2000FFFC#32).toNat % 4 = 0) ∧
    (¬ NaturallyAligned 0x2000FFFE#32 4 ∧ 2 < 4 ∧
      (∀ j, j < 2 → ∃ ds, validateAddress s user (byteAddr 0x2000FFFE#32 j) .normal true = .ok ds) ∧
      validateAddress s user (byteAddr 0x2000FFFE#32 2) .normal true = .violation (byteAddr 0x2000FFFE#32 2)) ∧
    (¬ NaturallyAligned 0x2000FFFB#32 4 ∧
      ∀ k, k < 4 → ∃ ds, validateAddress s user (byteAddr 0x2000FFFB#32 k) .normal true = .ok ds) := by
  refine ⟨⟨⟨⟨5, by decide⟩, by decide⟩, rfl, by decide⟩, ⟨fun h => absurd h.2 (by decide), by decide, ?_, by decide⟩,
    fun h => absurd h.2 (by decide), ?_⟩
  · intro j hj
    obtain rfl | rfl : j = 0 ∨ j = 1 := by omega
    · exact ⟨_, rfl⟩
    · exact ⟨_, rfl⟩
  · intro k hk
    obtain rfl | rfl | rfl | rfl : k = 0 ∨ k = 1 ∨ k = 2 ∨ k = 3 := by omega
    all_goals exact ⟨_, rfl⟩

/-- An illegal region ends the access too, at its first byte. -/
theorem witness_OneCheckWhenAlignedElseEveryByte_refused :
    ¬ NaturallyAligned 0x20000001#32 2 ∧ 0 < 2 ∧
    validateAddress (one 1#32 0x03000007#32) user (byteAddr 0x20000001#32 0) .normal true
      = .refuse .unpredictableRegionSize :=
  ⟨fun h => absurd h.2 (by decide), by decide, by decide⟩

theorem ok_of_allowed {v : Verdict} (h : allowed v = true) : ∃ ds, v = .ok ds := by
  cases v with
  | ok ds => exact ⟨ds, rfl⟩
  | violation b => simp [allowed] at h
  | refuse r => simp [allowed] at h

/-- The least access wider than 32 bytes, of which every byte passes; V40.12's word, its third byte failing; and an
illegal region. -/
theorem witness_CheckOfManyBytesAnswersForEveryByte :
    (¬ NaturallyAligned 0x20000000#32 (bytesWith 32#32) ∧
      ∀ k, k < bytesWith 32#32 → ∃ ds, validateAddress State.reset user (byteAddr 0x20000000#32 k) .normal true = .ok ds) ∧
    (¬ NaturallyAligned 0x2000FFFE#32 (bytesWith 3#32) ∧ 2 < bytesWith 3#32 ∧
      (∀ j, j < 2 → ∃ ds, validateAddress (one 1#32 0x0300001F#32) user (byteAddr 0x2000FFFE#32 j) .normal true = .ok ds) ∧
      validateAddress (one 1#32 0x0300001F#32) user (byteAddr 0x2000FFFE#32 2) .normal true =
        .violation (byteAddr 0x2000FFFE#32 2)) ∧
    (¬ NaturallyAligned 0x20000001#32 (bytesWith 1#32) ∧
      validateAddress (one 1#32 0x03000007#32) user (byteAddr 0x20000001#32 0) .normal true =
        .refuse .unpredictableRegionSize) := by
  refine ⟨⟨fun h => absurd h.2 (by decide), fun k hk => ok_of_allowed (by revert k; decide)⟩,
    ⟨fun h => absurd h.2 (by decide), by decide, ?_, by decide⟩, fun h => absurd h.2 (by decide), by decide⟩
  intro j hj
  obtain rfl | rfl : j = 0 ∨ j = 1 := by omega
  · exact ⟨_, rfl⟩
  · exact ⟨_, rfl⟩

/-- Each clause: the default map at the edge of an execute-never range, the background, a region. -/
theorem witness_AllowedCheckOnlyAnswers :
    (NaturallyAligned 0x3FFFFFFF#32 (bytesWith 0#32) ∧ State.reset.MpuOff priv ∧
      ¬ (AccType.ifetch = .ifetch ∧ DefaultExecuteNever 0x3FFFFFFF#32)) ∧
    (NaturallyAligned 0x20010000#32 (bytesWith 31#32) ∧ (one 5#32 0x0300001F#32).MpuOn priv ∧ (one 5#32 0x0300001F#32).RegionsLegal ∧
      (one 5#32 0x0300001F#32).Unmapped 0x20010000#32 ∧ (one 5#32 0x0300001F#32).ctrl.privdefena = true ∧
      PrivilegedAccess priv .ifetch ∧ ¬ (AccType.ifetch = .ifetch ∧ DefaultExecuteNever 0x20010000#32)) := by
  refine ⟨⟨⟨⟨0, by decide⟩, by decide⟩, ⟨rfl, .inl rfl⟩, ?_⟩, ⟨⟨5, by decide⟩, by decide⟩, mpuOn_five _,
    legal_one _ _ (not_illegal _ (by decide)), unmapped_one _ _ _ not_contains_after, rfl, ⟨rfl, by decide⟩, ?_⟩ <;>
  · rintro ⟨-, h⟩
    exact absurd h (by unfold DefaultExecuteNever; decide)

theorem witness_AllowedCheckOnlyAnswers_region :
    NaturallyAligned 0x2000FFFF#32 (bytesWith 0#32) ∧ (one 1#32 0x0300001F#32).MpuOn priv ∧ AccType.ifetch ≠ .vectable ∧ ¬ OnPPB 0x2000FFFF#32 ∧
    (one 1#32 0x0300001F#32).RegionsLegal ∧ (one 1#32 0x0300001F#32).Winner 0x2000FFFF#32 (at2 0x0300001F#32) ∧
    texDecode (one 1#32 0x0300001F#32).cfg (at2 0x0300001F#32).rasr.texcb (at2 0x0300001F#32).rasr.s = .ok SO ∧
    RegionAllows (at2 0x0300001F#32) 0x2000FFFF#32 (ispriv priv .ifetch) .ifetch false :=
  ⟨⟨⟨0, by decide⟩, by decide⟩, mpuOn_one _, by decide, not_ppb_end, legal_one _ _ (not_illegal _ (by decide)),
    winner_one _ _ _ (contains_end _ (by decide)), by decide, .inr (.inr (.inl rfl)), fun _ => ⟨rfl, by decide⟩⟩

theorem witness_NoHitFetchSyndrome :
    (one 1#32 0x0300001F#32).MpuOn priv ∧ ¬ OnPPB 0x20010000#32 ∧ (one 1#32 0x0300001F#32).RegionsLegal ∧
    (one 1#32 0x0300001F#32).Unmapped 0x20010000#32 ∧
    ¬ ((one 1#32 0x0300001F#32).ctrl.privdefena = true ∧ priv.findPriv = true) ∧ priv.prioBelowZero = false :=
  ⟨mpuOn_one _, not_ppb_after, legal_one _ _ (not_illegal _ (by decide)), unmapped_one _ _ _ not_contains_after,
    by decide, rfl⟩

/-- An unprivileged instruction's access by privileged software, with PRIVDEFENA set. -/
theorem witness_NoHitDataSyndrome :
    AccType.unpriv ≠ .ifetch ∧ AccType.unpriv ≠ .vectable ∧ (one 5#32 0x0300001F#32).MpuOn priv ∧
    ¬ OnPPB 0x20010000#32 ∧ (one 5#32 0x0300001F#32).RegionsLegal ∧
    (one 5#32 0x0300001F#32).Unmapped 0x20010000#32 ∧
    ¬ ((one 5#32 0x0300001F#32).ctrl.privdefena = true ∧ PrivilegedAccess priv .unpriv) ∧ priv.prioBelowZero = false :=
  ⟨by decide, by decide, mpuOn_five _, not_ppb_after, legal_one _ _ (not_illegal _ (by decide)),
    unmapped_one _ _ _ not_contains_after, fun h => h.2.2 rfl, rfl⟩

/-- An unprivileged write, and a fetch, where AP is 001. -/
theorem witness_PermissionFailureSyndrome :
    (one 1#32 0x0100001F#32).MpuOn user ∧ ¬ OnPPB 0x2000FFFF#32 ∧ (one 1#32 0x0100001F#32).RegionsLegal ∧
    (one 1#32 0x0100001F#32).Winner 0x2000FFFF#32 (at2 0x0100001F#32) ∧
    texDecode (one 1#32 0x0100001F#32).cfg (at2 0x0100001F#32).rasr.texcb (at2 0x0100001F#32).rasr.s = .ok SO ∧
    (at2 0x0100001F#32).rasr.ap ≠ 4#3 ∧
    ¬ RegionAllows (at2 0x0100001F#32) 0x2000FFFF#32 (ispriv user .normal) .normal true ∧
    ¬ RegionAllows (at2 0x0100001F#32) 0x2000FFFF#32 (ispriv user .ifetch) .ifetch false ∧
    user.prioBelowZero = false :=
  ⟨⟨rfl, .inr rfl⟩, not_ppb_end, legal_one _ _ (not_illegal _ (by decide)),
    winner_one _ _ _ (contains_end _ (by decide)), by decide, by decide,
    fun h => absurd h.1 (by unfold AllowedBy; decide), fun h => absurd h.1 (by unfold AllowedBy; decide), rfl⟩

/-- An access that fails at its third byte; and a fetch from an execute-never range on the PPB, with the MPU off, and on
the background. -/
theorem witness_PermissionFailureSyndrome_default_map :
    validateAccess (one 1#32 0x0300001F#32) user 0x2000FFFE#32 (bytesWith 3#32) .normal true = .violation 0x20010000#32 ∧
    priv.prioBelowZero = false ∧ DefaultExecuteNever 0xE0000000#32 ∧ OnPPB 0xE0000000#32 ∧
    DefaultExecuteNever 0x5FFFFFFF#32 ∧ State.reset.MpuOff priv ∧ (one 5#32 0x0300001F#32).MpuOn priv ∧
    (one 5#32 0x0300001F#32).RegionsLegal ∧ (one 5#32 0x0300001F#32).Unmapped 0x40000000#32 ∧
    DefaultExecuteNever 0x40000000#32 ∧ (one 5#32 0x0300001F#32).ctrl.privdefena = true ∧ priv.findPriv = true := by
  refine ⟨by decide, rfl, ?_, ?_, ?_, ⟨rfl, .inl rfl⟩, mpuOn_five _, legal_one _ _ (not_illegal _ (by decide)),
    unmapped_one _ _ _ (fun h => absurd h.2.1.2 (by decide)), ?_, rfl, rfl⟩ <;>
  simp [DefaultExecuteNever, OnPPB]

/-- A fetch from an execute-never range of the default map, a read that no region contains, and a word that fails at its
third byte. -/
theorem witness_FailureBelowPriorityZeroLocksUp :
    handler.prioBelowZero = true ∧
    validateAccess State.reset handler 0x40000000#32 (bytesWith 0#32) .ifetch false = .violation 0x40000000#32 ∧
    validateAccess (mpu 3#32 []) handler 0x20000000#32 (bytesWith 3#32) .normal false = .violation 0x20000000#32 ∧
    validateAccess (one 3#32 0x0300001F#32) handler 0x2000FFFE#32 (bytesWith 3#32) .normal false =
      .violation 0x20010000#32 := by decide

theorem not_touches (a : Word) (n : Nat) (h : ∀ k, k < n → (byteAddr a k).toNat < 0xE000ED90) : ¬ TouchesBlock a n := by
  rintro ⟨k, hk, h1, -⟩
  have := h k hk
  omega

/-- Under a disabled MPU, at an odd address; and on the PPB, at the last word before the block. -/
theorem witness_LoadsCompleteUnderTheDefaultMap :
    (unprivAccessOf (.ldrt priv 5#32) = some (priv, 5#32, .word, false) ∧ ¬ TouchesBlock 5#32 (bytesOf .word) ∧
      State.reset.DefaultMapAnswers priv 5#32 (bytesOf .word) ∧ ¬ TouchesPPB 5#32 (bytesOf .word)) ∧
    (unprivAccessOf (.ldrt priv 0xE000ED8C#32) = some (priv, 0xE000ED8C#32, .word, false) ∧
      ¬ TouchesBlock 0xE000ED8C#32 (bytesOf .word) ∧
      (one 1#32 0#32).DefaultMapAnswers priv 0xE000ED8C#32 (bytesOf .word)) := by
  refine ⟨⟨rfl, not_touches _ _ ?_, .inl ⟨rfl, .inl rfl⟩, ?_⟩, rfl, not_touches _ _ ?_, .inr ?_⟩
  · unfold bytesOf; decide
  · rintro ⟨k, hk, h⟩
    revert k; unfold bytesOf OnPPB; decide
  · unfold bytesOf; decide
  · unfold bytesOf OnPPB; decide

/-- At the last address of the space, where the access wraps to address 0. -/
theorem witness_StoresCompleteUnderTheDefaultMap :
    State.reset.mem.wf ∧ ¬ TouchesBlock 7#32 1 ∧ State.reset.DefaultMapAnswers priv 7#32 1 ∧
    ¬ TouchesBlock 0xFFFFFFFF#32 2 ∧ State.reset.DefaultMapAnswers priv 0xFFFFFFFF#32 2 ∧
    ¬ TouchesBlock 0xFFFFFFFD#32 4 ∧ State.reset.DefaultMapAnswers priv 0xFFFFFFFD#32 4 := by
  refine ⟨by decide, ?_, .inl ⟨rfl, .inl rfl⟩, ?_, .inl ⟨rfl, .inl rfl⟩, ?_, .inl ⟨rfl, .inl rfl⟩⟩
  all_goals
    rintro ⟨k, hk, h1, h2⟩
    revert k
    decide

theorem unprivilegedIn_one (rasr a : Word) (w : Bool) (hc : Contains (at2 rasr) a)
    (hm : texDecode Config.atReset (at2 rasr).rasr.texcb (at2 rasr).rasr.s = .ok SO) (h4 : (at2 rasr).rasr.ap ≠ 4#3)
    (ha : AllowedBy (at2 rasr).rasr.ap false w) : (one 1#32 rasr).UnprivilegedIn a w SO :=
  ⟨_, winner_one _ _ _ hc, hm, h4, ha⟩

/-- The last byte of a region that unprivileged software may only read, a halfword at an odd address in it, and a word
that ends at the PPB. -/
theorem witness_LoadsCompleteInAReadableRegion :
    (unprivAccessOf (.ldrbt priv 0x2000FFFF#32) = some (priv, 0x2000FFFF#32, .byte, false) ∧
      (0x2000FFFF#32).toNat % bytesOf .byte = 0 ∧ ¬ OnPPB 0x2000FFFF#32 ∧ (one 1#32 0x0200001F#32).MpuOn priv ∧
      (one 1#32 0x0200001F#32).RegionsLegal ∧ (one 1#32 0x0200001F#32).UnprivilegedIn 0x2000FFFF#32 false SO) ∧
    (unprivAccessOf (.ldrht priv 0x2000FFFD#32) = some (priv, 0x2000FFFD#32, .half, false) ∧
      (0x2000FFFD#32).toNat % bytesOf .half ≠ 0 ∧ ¬ TouchesPPB 0x2000FFFD#32 (bytesOf .half) ∧
      ∀ k, k < bytesOf .half → (one 1#32 0x0200001F#32).UnprivilegedIn (byteAddr 0x2000FFFD#32 k) false SO) ∧
    (unprivAccessOf (.ldrt priv 0xDFFFFFFE#32) = some (priv, 0xDFFFFFFE#32, .word, false) ∧
      ¬ TouchesBlock 0xDFFFFFFE#32 (bytesOf .word) ∧ ∀ k, k < bytesOf .word → ∃ ds,
        validateAddress (mpu 1#32 [(0#32, 0x0200003F#32)]) priv (byteAddr 0xDFFFFFFE#32 k) .unpriv false = .ok ds) := by
  refine ⟨⟨rfl, by decide, not_ppb_end, mpuOn_one _, legal_one _ _ (not_illegal _ (by decide)),
    unprivilegedIn_one _ _ _ (contains_end _ (by decide)) (by decide) (by decide) (.inr (.inl ⟨rfl, .inr rfl⟩))⟩,
    ⟨rfl, by decide, ?_, fun k hk => unprivilegedIn_one _ _ _ (contains_at2 _ _ ?_) (by decide) (by decide)
      (.inr (.inl ⟨rfl, .inr rfl⟩))⟩, rfl, not_touches _ _ ?_, fun k hk => ?_⟩
  · rintro ⟨k, hk, h⟩
    revert k; unfold bytesOf OnPPB; decide
  · revert k; unfold bytesOf; decide
  · unfold bytesOf; decide
  · have : k < 4 := hk
    obtain rfl | rfl | rfl | rfl : k = 0 ∨ k = 1 ∨ k = 2 ∨ k = 3 := by omega
    all_goals exact ⟨_, rfl⟩

/-- The last word of a region with full access, a halfword at an odd address in it, and a word that ends at the PPB. -/
theorem witness_StoresCompleteInAWritableRegion :
    (unprivAccessOf (.strt priv 0x2000FFFC#32 1#32) = some (priv, 0x2000FFFC#32, .word, true) ∧
      (one 1#32 0x0300001F#32).mem.wf ∧ (0x2000FFFC#32).toNat % bytesOf .word = 0 ∧ ¬ OnPPB 0x2000FFFC#32 ∧
      (one 1#32 0x0300001F#32).MpuOn priv ∧ (one 1#32 0x0300001F#32).RegionsLegal ∧
      (one 1#32 0x0300001F#32).UnprivilegedIn 0x2000FFFC#32 true SO) ∧
    (unprivAccessOf (.strht priv 0x2000FFFD#32 1#32) = some (priv, 0x2000FFFD#32, .half, true) ∧
      (0x2000FFFD#32).toNat % bytesOf .half ≠ 0 ∧ ¬ TouchesPPB 0x2000FFFD#32 (bytesOf .half) ∧
      ∀ k, k < bytesOf .half → (one 1#32 0x0300001F#32).UnprivilegedIn (byteAddr 0x2000FFFD#32 k) true SO) ∧
    (unprivAccessOf (.strt priv 0xDFFFFFFE#32 1#32) = some (priv, 0xDFFFFFFE#32, .word, true) ∧
      ¬ TouchesBlock 0xDFFFFFFE#32 (bytesOf .word) ∧ ∀ k, k < bytesOf .word → ∃ ds,
        validateAddress (mpu 1#32 [(0#32, 0x0300003F#32)]) priv (byteAddr 0xDFFFFFFE#32 k) .unpriv true = .ok ds) := by
  refine ⟨⟨rfl, by show Memory.wf []; decide, by decide, by unfold OnPPB; decide, mpuOn_one _,
    legal_one _ _ (not_illegal _ (by decide)),
    unprivilegedIn_one _ _ _ (contains_at2 _ _ (by decide)) (by decide) (by decide) (.inr (.inr (.inl rfl)))⟩,
    ⟨rfl, by decide, ?_, fun k hk => unprivilegedIn_one _ _ _ (contains_at2 _ _ ?_) (by decide) (by decide)
      (.inr (.inr (.inl rfl)))⟩, rfl, not_touches _ _ ?_, fun k hk => ?_⟩
  · rintro ⟨k, hk, h⟩
    revert k; unfold bytesOf OnPPB; decide
  · revert k; unfold bytesOf; decide
  · unfold bytesOf; decide
  · have : k < 4 := hk
    obtain rfl | rfl | rfl | rfl : k = 0 ∨ k = 1 ∨ k = 2 ∨ k = 3 := by omega
    all_goals exact ⟨_, rfl⟩

/-- V40.12 through STRT, and an aligned read of a region privileged software alone may use. -/
theorem witness_FailedUnprivilegedAccessIsNotPerformed :
    (unprivAccessOf (.strt user 0x2000FFFE#32 1#32) = some (user, 0x2000FFFE#32, .word, true) ∧
      ¬ TouchesBlock 0x2000FFFE#32 (bytesOf .word) ∧
      validateAccess (one 1#32 0x0300001F#32) user 0x2000FFFE#32 (bytesOf .word) .unpriv true = .violation 0x20010000#32) ∧
    (unprivAccessOf (.ldrbt priv 0x2000FFFF#32) = some (priv, 0x2000FFFF#32, .byte, false) ∧
      ¬ TouchesBlock 0x2000FFFF#32 (bytesOf .byte) ∧ ¬ OnPPB 0x2000FFFF#32 ∧ (one 1#32 0x0100001F#32).MpuOn priv ∧
      (one 1#32 0x0100001F#32).RegionsLegal ∧ (one 1#32 0x0100001F#32).Winner 0x2000FFFF#32 (at2 0x0100001F#32) ∧
      texDecode (one 1#32 0x0100001F#32).cfg (at2 0x0100001F#32).rasr.texcb (at2 0x0100001F#32).rasr.s = .ok SO ∧
      (at2 0x0100001F#32).rasr.ap ≠ 4#3 ∧ ¬ AllowedBy (at2 0x0100001F#32).rasr.ap false false) := by
  refine ⟨⟨rfl, not_touches _ _ ?_, by decide⟩, rfl, not_touches _ _ ?_, not_ppb_end, mpuOn_one _,
    legal_one _ _ (not_illegal _ (by decide)), winner_one _ _ _ (contains_end _ (by decide)), by decide, by decide, ?_⟩
  · unfold bytesOf; decide
  · unfold bytesOf; decide
  · unfold AllowedBy; decide

end Sys2Proof.Tests
end

section
/-! The scope of the MPU (`00_scope.md`): it decides whether an access is allowed and does not translate its address. -/

namespace Sys2Proof.Machine

/-- Settles O41: `validateAddress` answers `ok` in one place only, with the descriptor it builds from the address
presented (`validateAddress_ok`); neither the default map nor a region supplies another address (R3). -/
theorem allowedAccessIsNotTranslated : Obligations.AllowedAccessIsNotTranslated := by
  intro s p a t w ds hallowed
  exact validateAddress_ok hallowed

end Sys2Proof.Machine
end

section
/-! The state after reset (R51): what it fixes whatever the parameters and the values of the UNKNOWN registers, and what
a read of MPU_CTRL gives before the register has been written. -/

namespace Sys2Proof.Machine

/-! ### What reset fixes -/

@[simp] theorem State.resetWith_ctrl (c : Config) (d : ResetDraw) :
    (State.resetWith c d).ctrl = { privdefena := false, hfnmiena := false, enable := false } := rfl

@[simp] theorem State.resetWith_ctrlWritten (c : Config) (d : ResetDraw) :
    (State.resetWith c d).ctrlWritten = false := rfl

/-- After reset the MPU is off for every access, at every execution priority. -/
theorem State.resetWith_mpuOff (c : Config) (d : ResetDraw) (p : ProcInputs) : (State.resetWith c d).MpuOff p :=
  ⟨rfl, .inl rfl⟩

/-! ### A read of MPU_CTRL before its first write -/

theorem ctrlWord_of_all_clear : ctrlWord { privdefena := false, hfnmiena := false, enable := false } 0#32 = 0#32 := by
  decide

/-- Until MPU_CTRL is written its reserved bits read as 0 (R29), and nothing is drawn for them; an absent MPU reads as
0 altogether (R30). -/
theorem exec_readMpuCtrl_of_unwritten {r : RegAccess} {s : State} (hr : Proper r) (hw : s.ctrlWritten = false) :
    exec (.readMpuCtrl r) s =
      .next (s.answered 0xE000ED94#32 (some (if noMpu s then 0#32 else ctrlWord s.ctrl 0#32))) := by
  change execReadMpuCtrl r s = _
  rw [execReadMpuCtrl, regGate_of_proper hr, hw]
  cases noMpu s with
  | true => rfl
  | false => rfl

/-! ### The statement -/

/-- Settles O4: with and without an MPU the read gives 0, because no control bit is set and the reserved bits have their
reset value; and as the MPU is off, every access takes the default map's arm (`acquire_of_off`). -/
theorem resetLeavesTheMpuDisabled : Obligations.ResetLeavesTheMpuDisabled := by
  intro c d
  refine ⟨State.resetWith_ctrl c d, fun r hr => ?_, fun p a t w => ?_⟩
  · rw [exec_readMpuCtrl_of_unwritten hr (State.resetWith_ctrlWritten c d), State.resetWith_ctrl,
      ctrlWord_of_all_clear, ite_self]
  · exact validateAddress_of_default (acquire_of_off a t (State.resetWith_mpuOff c d p))

end Sys2Proof.Machine
end

section
/-! The operation of the MPU (`40_mpu_operation.md`, sections 2, 3): the arms of ValidateAddress that the default map
answers, the execution priority, and System space. -/

namespace Sys2Proof.Machine

/-! ### What the verdict of a call rests on -/

/-- A call that passes has passed the permission check, with System space execute-never, on the walk its arm gave. -/
theorem checkPermission_of_validateAddress_ok {s : State} {p : ProcInputs} {a : Word} {k : AccType} {w : Bool}
    {ds : List AddressDescriptor} (h : validateAddress s p a k w = .ok ds) :
    ∃ walk, acquire s p a k = .ok walk ∧
      checkPermission (systemSpaceXN walk.perms a) (ispriv p k) k w = some true := by
  unfold validateAddress at h
  split at h
  case h_1 e hacq => simp at h
  case h_2 walk hacq =>
    refine ⟨walk, hacq, ?_⟩
    split at h
    · split at h
      · simp at h
      · split at h
        · simp at h
        · assumption
        · simp at h
    · simp at h

/-- The processor's inputs reach the verdict through the arm taken and the privilege of the access only. -/
theorem validateAddress_congr_inputs {s : State} {p q : ProcInputs} {a : Word} {k : AccType} (w : Bool)
    (hacq : acquire s p a k = acquire s q a k) (hpriv : ispriv p k = ispriv q k) :
    validateAddress s p a k w = validateAddress s q a k w := by
  simp only [validateAddress, hacq, hpriv]

/-! ### The default map's arms -/

theorem validateAddress_of_off {s : State} {p : ProcInputs} (a : Word) (k : AccType) (w : Bool) (h : s.MpuOff p) :
    ByDefaultMap a k (validateAddress s p a k w) :=
  validateAddress_of_default (acquire_of_off a k h)

/-- Without an MPU the control bits are 0 (R30), so the MPU is off for every access. -/
theorem State.Inv.mpuOff_of_noMpu {s : State} (hinv : s.Inv) (hno : s.cfg.nregions.val = 0) (p : ProcInputs) :
    s.MpuOff p := by
  obtain ⟨henable, hhfnmiena, -⟩ := hinv.noMpuNoControl hno
  exact ⟨hhfnmiena, .inl henable⟩

/-! ### The execution priority -/

/-- With ENABLE = 1 and HFNMIENA = 1 the arm is chosen by the address and the access type alone: the default map for
vector reads and the PPB, the regions for the rest, at every execution priority. -/
theorem acquire_of_other_priority {s : State} (p : ProcInputs) (a : Word) (k : AccType) (henable : s.ctrl.enable = true)
    (hhfnmiena : s.ctrl.hfnmiena = true) (b : Bool) :
    acquire s { p with prioBelowZero := b } a k = acquire s p a k := by
  have hon : ∀ q, s.MpuOn q := fun _ => ⟨henable, .inl hhfnmiena⟩
  by_cases harm : k = .vectable ∨ OnPPB a
  · rw [acquire_of_vector_or_ppb harm, acquire_of_vector_or_ppb harm]
  · obtain ⟨hk, ha⟩ := not_or.mp harm
    rw [acquire_of_on hk ha (hon _), acquire_of_on hk ha (hon p)]
    rfl

/-! ### The statements -/

/-- Settles O32: arm 1 comes before MPU_CTRL is read (`acquire_of_vector_or_ppb`), and its walk is the default map's. -/
theorem vectorReadsAndPpbUseTheDefaultMap : Obligations.VectorReadsAndPpbUseTheDefaultMap := by
  intro s p a t w h
  exact validateAddress_of_default (acquire_of_vector_or_ppb h)

/-- Settles O33: both clauses are an MPU that is off whatever the execution priority, the second by the invariant. -/
theorem disabledMpuUsesTheDefaultMap : Obligations.DisabledMpuUsesTheDefaultMap := by
  intro s p a t w
  constructor
  · intro henable hhfnmiena
    exact validateAddress_of_off a t w ⟨hhfnmiena, .inl henable⟩
  · intro hinv hno
    exact validateAddress_of_off a t w (hinv.mpuOff_of_noMpu hno p)

/-- Settles O35: below priority 0 with HFNMIENA 0 the MPU is off; with HFNMIENA 1 the priority chooses no other arm
(`acquire_of_other_priority`), and the privilege of the access never depends on it. -/
theorem handlersBelowPriorityZero : Obligations.HandlersBelowPriorityZero := by
  intro s p a t w henable
  constructor
  · intro hhfnmiena hbelow
    exact validateAddress_of_off a t w ⟨hhfnmiena, .inr hbelow⟩
  · intro hhfnmiena b
    exact validateAddress_congr_inputs w (acquire_of_other_priority p a t henable hhfnmiena b) rfl

/-- Settles O40: an allowed fetch has passed a permission check with XN = 0, and XN is 1 in System space whatever arm
gave the permissions (R136). -/
theorem systemSpaceIsExecuteNever : Obligations.SystemSpaceIsExecuteNever := by
  intro s p a w hsystem ds hok
  obtain ⟨walk, -, hcheck⟩ := checkPermission_of_validateAddress_ok hok
  obtain ⟨-, hfetch⟩ := (checkPermission_true _ _ _ _).mp hcheck
  obtain ⟨-, hbelow⟩ := (systemSpaceXN_xn walk.perms a).mp (hfetch rfl)
  omega

end Sys2Proof.Machine
end

section
/-! Attributes and permissions (`41_attributes_permissions.md`): the rows of Tables B3-13, B3-14 and B3-15 as
`texDecode`, `cachePolicy` and `permits` give them. -/

namespace Sys2Proof.Machine

/-! ### The encodings with two cache policies -/

/-- TEX:C:B = 1BBAA: TEX[2] is the top bit, C:B is AA and TEX[1:0] is BB (R173). -/
theorem texcb_policy_fields (bb aa : BitVec 2) :
    (1#1 ++ bb ++ aa).getLsbD 4 = true ∧ (1#1 ++ bb ++ aa).extractLsb' 0 2 = aa ∧
      (1#1 ++ bb ++ aa).extractLsb' 2 2 = bb := by
  revert bb aa; decide

/-- With TEX[2] set no row but that of the two policies applies, so S alone gives the shareability. -/
theorem texDecode_of_tex_top {texcb : BitVec 5} (htop : texcb.getLsbD 4 = true) (c : Config) (s : Bool) :
    texDecode c texcb s =
      .ok { type := .normal (cachePolicy (texcb.extractLsb' 0 2)) (cachePolicy (texcb.extractLsb' 2 2)),
            shareable := s } :=
  if_pos htop

theorem texDecode_policies (c : Config) (s : Bool) (bb aa : BitVec 2) :
    texDecode c (1#1 ++ bb ++ aa) s = .ok { type := .normal (cachePolicy aa) (cachePolicy bb), shareable := s } := by
  obtain ⟨htop, hinner, houter⟩ := texcb_policy_fields bb aa
  rw [texDecode_of_tex_top htop, hinner, houter]

/-! ### The permissions that privilege and direction decide together -/

/-- AP 010: only an unprivileged write is forbidden (R179). -/
theorem permits_unprivilegedReadOnly (priv w : Bool) : permits 0b010#3 priv w = some (priv || !w) := rfl

/-- AP 101: only a privileged read is allowed (R182). -/
theorem permits_privilegedReadOnly (priv w : Bool) : permits 0b101#3 priv w = some (priv && !w) := rfl

/-! ### The statements -/

/-- Settles O43: the rows with TEX[2] clear are single encodings, one branch of `texDecode` each; those with TEX[2] set
are one row for all sixteen pairs of policies (`texDecode_policies`). -/
theorem texDecodeRows : Obligations.TexDecodeRows := by
  intro c s
  have hcached := texDecode_policies c s
  refine ⟨?stronglyOrdered, ?sharedDevice, ?writeThrough, ?writeBackNoAllocate, ?nonCacheable, ?writeBackAllocate,
    ?nonsharedDevice, hcached, ?policy00, ?policy01, ?policy10, ?policy11⟩
  all_goals rfl

/-- Settles O45: rows 010 and 101 follow from the rule of both inputs at each privilege; every other row rests on one
input at most, and is the branch of `permits` as it stands. -/
theorem accessPermissionRows : Obligations.AccessPermissionRows := by
  intro priv w
  refine ⟨rfl, rfl, ?privileged010, ?unprivileged010, rfl, ?privileged101, ?unprivileged101, rfl, rfl⟩
  case privileged010 => rw [permits_unprivilegedReadOnly, Bool.true_or]
  case unprivileged010 => rw [permits_unprivilegedReadOnly, Bool.false_or]
  case privileged101 => rw [permits_privilegedReadOnly, Bool.true_and]
  case unprivileged101 => rw [permits_privilegedReadOnly, Bool.false_and]

end Sys2Proof.Machine
end

section
/-! The register interface (`42_register_interface.md`): READ MPU_TYPE, WRITE MPU_CTRL and READ MPU_RNR (R193, R196,
R197). Each is one operation behind the checks of a register access. -/

namespace Sys2Proof.Machine

/-! ### The operations behind the checks -/

theorem exec_readMpuType (r : RegAccess) (s : State) :
    exec (.readMpuType r) s =
      regGate s r (.next (answerRead s.drew 0xE000ED90#32 (typeWord s.cfg (Config.freeValue s.draws)))) := rfl

theorem exec_writeMpuCtrl (r : RegAccess) (v : Word) (s : State) :
    exec (.writeMpuCtrl r v) s =
      regGate s r
        (if noMpu s then .next (answerWrite s 0xE000ED94#32)
         else .next (answerWrite (s.setCtrl (ctrlOfWord v)) 0xE000ED94#32)) := rfl

theorem exec_readMpuRnr (r : RegAccess) (s : State) :
    exec (.readMpuRnr r) s =
      regGate s r
        (if noMpu s then absentRead s 0xE000ED98#32
         else .next (answerRead s.drew 0xE000ED98#32 (rnrWord s.rnr (Config.freeValue s.draws)))) := rfl

/-- A BusFault writes the answer alone. -/
theorem takeBusFault_eq (s : State) : takeBusFault s = { s with reply := .busFault } := rfl

/-- With an MPU, NREGIONS above 0, an operation is not the one of an absent MPU. -/
theorem ite_noMpu_of_present {s : State} (hmpu : s.cfg.nregions.val ≠ 0) (absent present : Out) :
    (if noMpu s then absent else present) = present := by
  simp [noMpu_eq_false.mpr hmpu]

/-! ### What the words read and written hold -/

/-- NREGIONS is below 256, so DREGION holds it whole. -/
theorem typeWord_dregion_toNat (c : Config) (f : Word) :
    ((typeWord c f).extractLsb' 8 8).toNat = c.nregions.val := by
  rw [typeWord_dregion, BitVec.toNat_ofNat, Nat.mod_eq_of_lt c.nregions.isLt]

/-- The three bits are stored as they stand in the word written, in every combination. -/
theorem State.setCtrl_ctrlOfWord (s : State) (v : Word) :
    s.setCtrl (ctrlOfWord v) =
      { s with
        ctrl := { privdefena := v.getLsbD 2, hfnmiena := v.getLsbD 1, enable := v.getLsbD 0 }
        ctrlWritten := true } := rfl

/-! ### The statements -/

/-- Settles O16: the read does not ask whether there is an MPU, and the word it answers is in format TYPE whatever the
free value of the bits no field names. -/
theorem readMpuTypeGivesTheRegionCount : Obligations.ReadMpuTypeGivesTheRegionCount := by
  intro s r
  constructor
  case left =>
    intro hunpriv
    rw [exec_readMpuType, regGate_of_unprivileged hunpriv, takeBusFault_eq]
  case right =>
    intro hproper
    refine ⟨typeWord s.cfg (Config.freeValue s.draws), ?completes, typeWord_iregion _ _, typeWord_dregion_toNat _ _,
      typeWord_separate _ _⟩
    rw [exec_readMpuType, regGate_of_proper hproper, answerRead_eq, State.drew]

/-- Settles O19: past the checks, and with an MPU, the write is `State.setCtrl` of the word's three bits. -/
theorem writeMpuCtrlStoresTheControlBits : Obligations.WriteMpuCtrlStoresTheControlBits := by
  intro s r v
  constructor
  case left =>
    intro hunpriv
    rw [exec_writeMpuCtrl, regGate_of_unprivileged hunpriv, takeBusFault_eq]
  case right =>
    intro hproper hmpu
    rw [exec_writeMpuCtrl, regGate_of_proper hproper, ite_noMpu_of_present hmpu, answerWrite_eq,
      State.setCtrl_ctrlOfWord]

/-- Settles O20: past the checks, and with an MPU, the word answered is in format RNR, REGION in bits 7:0 whatever the
free value of the bits above. -/
theorem readMpuRnrGivesTheRegionNumber : Obligations.ReadMpuRnrGivesTheRegionNumber := by
  intro s r
  constructor
  case left =>
    intro hunpriv
    rw [exec_readMpuRnr, regGate_of_unprivileged hunpriv, takeBusFault_eq]
  case right =>
    intro hproper hmpu
    refine ⟨rnrWord s.rnr (Config.freeValue s.draws), ?completes, rnrWord_region _ _⟩
    rw [exec_readMpuRnr, regGate_of_proper hproper, ite_noMpu_of_present hmpu, answerRead_eq, State.drew]

end Sys2Proof.Machine
end

section
/-! The unprivileged loads and stores (`43_unprivileged_loadstore.md`): what the regions make of an access with
AccType_UNPRIV (R230, R231), and Table B3-12. -/

namespace Sys2Proof.Machine

/-! ### An unprivileged access in the regions -/

/-- AccType_UNPRIV is unprivileged whatever FindPriv() says (R121). -/
@[simp] theorem ispriv_unpriv (p : ProcInputs) : ispriv p .unpriv = false := rfl

/-- XN concerns fetches only (R185), so in a region AP alone decides a load or store instruction's access. -/
theorem regionAllows_unpriv_iff (p : ProcInputs) (g : Region) (a : Word) (w : Bool) :
    RegionAllows g a (ispriv p .unpriv) .unpriv w ↔ AllowedBy g.rasr.ap false w := by
  simp [RegionAllows]

/-- Off the PPB, where the regions answer: no region that contains the address means no hit, as an unprivileged access
has no background; a region that wins decides by the unprivileged column of its AP. -/
theorem unprivilegedByRegions_of_on {s : State} {p : ProcInputs} {a : Word} (w : Bool) (ha : ¬ OnPPB a)
    (hon : s.MpuOn p) (hlegal : s.RegionsLegal) :
    UnprivilegedByRegions s a w (validateAddress s p a .unpriv w) where
  unmapped hunmapped := by
    have hacq := acquire_of_unmapped (k := .unpriv) (by decide) ha hon hlegal hunmapped
    rw [ispriv_unpriv, Bool.and_false] at hacq
    exact validateAddress_of_no_hit w hacq
  allowed g m hwinner hattrs hap hallowed := by
    have hacq := acquire_of_winner (k := .unpriv) (by decide) ha hon hlegal hwinner
    obtain ⟨-, hpass, -⟩ := validateAddress_of_region (w := w) hacq hattrs
    exact hpass hap ((regionAllows_unpriv_iff p g a w).mpr hallowed)
  forbidden g m hwinner hattrs hap hforbidden := by
    have hacq := acquire_of_winner (k := .unpriv) (by decide) ha hon hlegal hwinner
    obtain ⟨-, -, hfail⟩ := validateAddress_of_region (w := w) hacq hattrs
    exact hfail hap (mt (regionAllows_unpriv_iff p g a w).mp hforbidden)

/-! ### The statement -/

/-- Settles O42: in the first row, and in the second below priority 0, the MPU is off for the access; in the second at
the other priorities, and in the last at every one, the regions answer (`unprivilegedByRegions_of_on`). -/
theorem tableOfUnprivilegedInstructions : Obligations.TableOfUnprivilegedInstructions := by
  intro s p a w ha
  refine ⟨?disabled, ?handler, ?ordinary, ?always⟩
  case disabled =>
    intro hhfnmiena henable
    exact validateAddress_of_off a .unpriv w ⟨hhfnmiena, .inl henable⟩
  case handler =>
    intro hhfnmiena _ hbelow
    exact validateAddress_of_off a .unpriv w ⟨hhfnmiena, .inr hbelow⟩
  case ordinary =>
    intro _ henable hnotBelow hlegal
    exact unprivilegedByRegions_of_on w ha ⟨henable, .inr hnotBelow⟩ hlegal
  case always =>
    intro hhfnmiena henable hlegal
    exact unprivilegedByRegions_of_on w ha ⟨henable, .inl hhfnmiena⟩ hlegal

end Sys2Proof.Machine
end

section
/-! The exceptions (`60_exceptions.md`): who raises BusFault (R253). Every register operation stands behind the checks
of a register access, and the privilege check is their first; a failed check of ValidateAddress is a MemManage. -/

namespace Sys2Proof.Machine

/-! ### The operations behind the checks -/

theorem exec_writeMpuType (r : RegAccess) (v : Word) (s : State) :
    exec (.writeMpuType r v) s =
      regGate s r
        (if s.cfg.roWriteIgnored then .next (answerWrite s 0xE000ED90#32) else .refused .readOnlyWrite) := rfl

theorem exec_readMpuCtrl (r : RegAccess) (s : State) :
    exec (.readMpuCtrl r) s =
      regGate s r
        (if noMpu s then .next (answerRead s 0xE000ED94#32 0#32)
         else if s.ctrlWritten then
          .next (answerRead s.drew 0xE000ED94#32 (ctrlWord s.ctrl (Config.freeValue s.draws)))
         else .next (answerRead s 0xE000ED94#32 (ctrlWord s.ctrl 0#32))) := rfl

theorem exec_writeMpuRnr (r : RegAccess) (v : Word) (s : State) :
    exec (.writeMpuRnr r v) s =
      regGate s r
        (if noMpu s then absentWrite s 0xE000ED98#32 v
         else if s.cfg.nregions.val ≤ (rnrOfWord v).toNat then .refused .regionNumberOutOfRange
         else .next (answerWrite (s.select (rnrOfWord v)) 0xE000ED98#32)) := rfl

/-- An operation behind the checks of a register access, unprivileged, writes the answer BusFault and nothing else,
whatever it would do past them (R190). -/
theorem exec_of_regGate_unprivileged {i : Instr} {s : State} {r : RegAccess} {op : Out} (hunpriv : Unprivileged r)
    (hgate : exec i s = regGate s r op) : exec i s = .next { s with reply := .busFault } := by
  rw [hgate, regGate_of_unprivileged hunpriv, takeBusFault_eq]

/-! ### The check of an access -/

theorem exec_validateAddress (p : ProcInputs) (address : ByteRange) (k : AccType) (w : Bool) (s : State) :
    exec (.validateAddress p address k w) s =
      settle s p k (validateAccess s p address.first (bytesWith address.more) k w) fun ds =>
        s.answer (.ok ds none) := rfl

/-- A failed check answers MemManage, or lockup below priority 0 (R255). -/
theorem takeMemManage_reply (s : State) (p : ProcInputs) (k : AccType) (a : Word) :
    (takeMemManage s p k a).reply = if p.prioBelowZero then .lockup else .memManage := by
  rw [takeMemManage_eq]

theorem takeMemManage_reply_ne_busFault (s : State) (p : ProcInputs) (k : AccType) (a : Word) :
    (takeMemManage s p k a).reply ≠ .busFault := by
  rw [takeMemManage_reply]
  cases p.prioBelowZero with
  | true => simp
  | false => simp

/-! ### The statement -/

/-- Settles O13: each register operation is behind the checks (`exec_of_regGate_unprivileged`); a call of
ValidateAddress passes and answers ok, or fails and takes a MemManage (`settle_next`). -/
theorem unprivilegedRegisterAccessRaisesBusFault : Obligations.UnprivilegedRegisterAccessRaisesBusFault := by
  constructor
  case left =>
    intro s r v addr region k hunpriv
    have hfault {i : Instr} {op : Out} := exec_of_regGate_unprivileged (i := i) (s := s) (op := op) hunpriv
    exact ⟨hfault (exec_readMpuType r s), hfault (exec_writeMpuType r v s),
      hfault (exec_readMpuCtrl r s), hfault (exec_writeMpuCtrl r v s),
      hfault (exec_readMpuRnr r s), hfault (exec_writeMpuRnr r v s),
      hfault (exec_rbarRead k r s), hfault (exec_rbarWriteValid0 k r addr region s),
      hfault (exec_rbarWriteValid1 k r addr region s),
      hfault (exec_rasrRead k r s), hfault (exec_rasrWrite k r v s)⟩
  case right =>
    intro s t p a k w more h
    rw [exec_validateAddress] at h
    rcases settle_next h with ⟨ds, -, rfl⟩ | ⟨b, -, rfl⟩
    case inl => simp
    case inr => exact takeMemManage_reply_ne_busFault s p k b

end Sys2Proof.Machine
end

section
/-! Encoding (`30_encoding.md`): what a packet decodes to once its qualifier has been read, and the round trip of every
operation through its packet (R90 to R97, log 25). -/

namespace Sys2Proof.Machine

/-! ### Packets by the kind of their operation -/

/-- The packet of an unprivileged load or store instruction: its kind alone chooses the instruction. -/
theorem decode_encodeUnpriv {kind : BitVec 4} (hlow : 2 ≤ kind.toNat) (hhigh : kind.toNat < 10) (p : ProcInputs)
    (a v : Word) :
    decode (encodeUnpriv kind p a v) =
      .ok (if kind = 2#4 then .ldrbt p a else if kind = 3#4 then .ldrht p a else if kind = 4#4 then .ldrsbt p a
        else if kind = 5#4 then .ldrsht p a else if kind = 6#4 then .ldrt p a else if kind = 7#4 then .strbt p a v
        else if kind = 8#4 then .strht p a v else .strt p a v) := by
  have h0 : kind ≠ 0#4 := by rintro rfl; simp at hlow
  have h1 : kind ≠ 1#4 := by rintro rfl; simp at hlow
  simp only [decode, encodeUnpriv, decodeQualifier_encodeQualifier, h0, h1, if_false, ge_iff_le,
    Nat.not_le.mpr hhigh]
  simp only [apply_ite Except.ok]
  rfl

/-- The packet of a check that is no write of a fetch or a vector read. -/
theorem decode_encode_validateAddress (p : ProcInputs) (range : ByteRange) {k : AccType} {w : Bool}
    (hwf : (!w || k.canWrite) = true) :
    decode (encode (.validateAddress p range k w)) = .ok (.validateAddress p range k w) := by
  have hread : (w && !k.canWrite) = false := by
    cases w with
    | false => rfl
    | true => simpa using hwf
  simp [decode, encode, decodeQualifier_encodeQualifier, hread]

/-! ### Register accesses -/

/-- The registers of one word each stand at twelve word addresses; any other word address is decoded by its range. -/
theorem decodeRegister_of_above {a : Word} (h : 0xE000EDC0#32 ≤ a &&& 0xFFFFFFFC#32) (r : RegAccess) (w : Bool)
    (v : Word) :
    decodeRegister a r w v =
      if a &&& 0xFFFFFFE0#32 = 0xE000EDC0#32 then
        .ok (.reservedEDC0 r (a.extractLsb' 2 3) (if w then .write v else .read))
      else if a &&& 0xFFFFFFF0#32 = 0xE000EDE0#32 then
        .ok (.reservedEDE0 r (a.extractLsb' 2 2) (if w then .write v else .read))
      else .error .notARegisterAddress := by
  have hne : ∀ b : Word, b < 0xE000EDC0#32 → a &&& 0xFFFFFFFC#32 ≠ b := by
    rintro b hb rfl
    rw [BitVec.lt_def] at hb; rw [BitVec.le_def] at h; omega
  simp (disch := decide) only [decodeRegister, hne, if_false]

/-- The eight reserved words from 0xE000EDC0: the word address is a multiple of 4, and the lane leaves the index. -/
theorem reservedEDC0_address (i : BitVec 3) (lane : BitVec 2) :
    (0xE000EDC0#32 ||| placed i 2) &&& 3#32 = 0#32 ∧ 0xE000EDC0#32 ≤ 0xE000EDC0#32 ||| placed i 2 ∧
      ((0xE000EDC0#32 ||| placed i 2) ||| placed lane 0) &&& 0xFFFFFFE0#32 = 0xE000EDC0#32 ∧
      ((0xE000EDC0#32 ||| placed i 2) ||| placed lane 0).extractLsb' 2 3 = i := by
  revert i lane; decide

/-- The four reserved words from 0xE000EDE0, which lie outside the block of eight. -/
theorem reservedEDE0_address (i lane : BitVec 2) :
    (0xE000EDE0#32 ||| placed i 2) &&& 3#32 = 0#32 ∧ 0xE000EDC0#32 ≤ 0xE000EDE0#32 ||| placed i 2 ∧
      ((0xE000EDE0#32 ||| placed i 2) ||| placed lane 0) &&& 0xFFFFFFE0#32 ≠ 0xE000EDC0#32 ∧
      ((0xE000EDE0#32 ||| placed i 2) ||| placed lane 0) &&& 0xFFFFFFF0#32 = 0xE000EDE0#32 ∧
      ((0xE000EDE0#32 ||| placed i 2) ||| placed lane 0).extractLsb' 2 2 = i := by
  revert i lane; decide

theorem decode_encode_reservedEDC0 (r : RegAccess) (i : BitVec 3) (w : Bool) (v : Word) :
    decode (encodeRegister (0xE000EDC0#32 ||| placed i 2) r w v) =
      .ok (.reservedEDC0 r i (if w then .write v else .read)) := by
  obtain ⟨hword, habove, hblock, hindex⟩ := reservedEDC0_address i r.lane
  refine decode_encodeRegister hword fun a ha haddr => ?_
  rw [decodeRegister_of_above (haddr ▸ habove), ha, if_pos hblock, hindex]

theorem decode_encode_reservedEDE0 (r : RegAccess) (i : BitVec 2) (w : Bool) (v : Word) :
    decode (encodeRegister (0xE000EDE0#32 ||| placed i 2) r w v) =
      .ok (.reservedEDE0 r i (if w then .write v else .read)) := by
  obtain ⟨hword, habove, houtside, hblock, hindex⟩ := reservedEDE0_address i r.lane
  refine decode_encodeRegister hword fun a ha haddr => ?_
  rw [decodeRegister_of_above (haddr ▸ habove), ha, if_neg houtside, if_pos hblock, hindex]

/-- A register of one word: what its word address decodes to, its packet does, the lane making no difference. -/
theorem decode_encodeRegister_of_base {base : Word} (hb : base &&& 3#32 = 0#32) {r : RegAccess} {w : Bool} {v : Word}
    {i : Instr} (h : ∀ a : Word, a &&& 0xFFFFFFFC#32 = base → decodeRegister a r w v = .ok i) :
    decode (encodeRegister base r w v) = .ok i :=
  decode_encodeRegister hb fun a _ ha => h a ha

/-! ### The operations a decoder answers -/

/-- Whatever operation a decoder's answer holds is well formed. -/
def AnswersWf (x : Except DecodeError Instr) : Prop := ∀ i, x = .ok i → i.wf = true

theorem answersWf_error (e : DecodeError) : AnswersWf (.error e) := fun _ h => nomatch h

theorem answersWf_ok {i : Instr} (h : i.wf = true) : AnswersWf (.ok i) := by
  rintro _ ⟨⟩; exact h

theorem answersWf_ite {c : Prop} [Decidable c] {x y : Except DecodeError Instr} (hx : c → AnswersWf x)
    (hy : ¬ c → AnswersWf y) : AnswersWf (if c then x else y) := by
  split
  case isTrue h => exact hx h
  case isFalse h => exact hy h

/-- A register access is never a check of an access, the one operation whose operands are related. -/
theorem decodeRegister_answersWf (a : Word) (r : RegAccess) (w : Bool) (v : Word) :
    AnswersWf (decodeRegister a r w v) := by
  unfold decodeRegister
  dsimp only
  repeat' refine answersWf_ite (fun _ => ?_) (fun _ => ?_)
  on_goal -1 => exact answersWf_error _
  all_goals exact answersWf_ok (by cases w <;> cases rbarValidField v <;> rfl)

/-- The decoder rejects the one ill-formed operation, a check of a write that is a fetch or a vector read, by name. -/
theorem decode_answersWf (packet : Packet) : AnswersWf (decode packet) := by
  unfold decode
  cases decodeQualifier packet.qualifier with
  | error e => exact answersWf_error e
  | ok q =>
    dsimp only
    refine answersWf_ite (fun _ => ?register) fun _ => answersWf_ite (fun _ => ?check) fun _ => ?unprivileged
    case register => exact answersWf_ite (fun _ => answersWf_error _) fun _ => decodeRegister_answersWf _ _ _ _
    case check =>
      refine answersWf_ite (fun _ => answersWf_error _) fun _ =>
        answersWf_ite (fun _ => answersWf_error _) fun hread => answersWf_ok ?_
      cases hw : q.iswrite with
      | false => rfl
      | true => simpa [hw, Instr.wf] using hread
    case unprivileged =>
      refine answersWf_ite (fun _ => answersWf_error _) fun _ => answersWf_ite (fun _ => answersWf_error _) fun _ => ?_
      repeat' refine answersWf_ite (fun _ => ?_) (fun _ => ?_)
      all_goals exact answersWf_ok rfl

/-! ### The statements -/

/-- Settles O1: the qualifier gives back its fields, and then the kind chooses the operation; of a register access the
word address does, whatever the lane (`decode_encodeRegister_of_base`), and a written RBAR word gives back its fields. -/
theorem decodeOfEncodeIsTheOperation : Obligations.DecodeOfEncodeIsTheOperation := by
  intro i hwf
  cases i with
  | readMpuType | writeMpuType | readMpuCtrl | writeMpuCtrl | readMpuRnr | writeMpuRnr
  | readMpuRbar | readMpuRbarA1 | readMpuRbarA2 | readMpuRbarA3
  | readMpuRasr | readMpuRasrA1 | readMpuRasrA2 | readMpuRasrA3
  | writeMpuRasr | writeMpuRasrA1 | writeMpuRasrA2 | writeMpuRasrA3 =>
    exact decode_encodeRegister_of_base (by decide) fun a ha => by simp [decodeRegister, ha]
  | writeMpuRbarValid0 | writeMpuRbarA1Valid0 | writeMpuRbarA2Valid0 | writeMpuRbarA3Valid0
  | writeMpuRbarValid1 | writeMpuRbarA1Valid1 | writeMpuRbarA2Valid1 | writeMpuRbarA3Valid1 =>
    exact decode_encodeRegister_of_base (by decide) fun a ha => by
      simp [decodeRegister, ha, rbarAddrField_rbarWordOf, rbarValidField_rbarWordOf, rbarRegionField_rbarWordOf]
  | reservedEDBC r op =>
    cases op with
    | read | write => exact decode_encodeRegister_of_base (by decide) fun a ha => by simp [decodeRegister, ha]
  | reservedEDC0 r index op =>
    cases op with
    | read | write => exact decode_encode_reservedEDC0 r index _ _
  | reservedEDE0 r index op =>
    cases op with
    | read | write => exact decode_encode_reservedEDE0 r index _ _
  | validateAddress p range k w => exact decode_encode_validateAddress p range hwf
  | ldrbt | ldrht | ldrsbt | ldrsht | ldrt | strbt | strht | strt =>
    exact decode_encodeUnpriv (by decide) (by decide) _ _ _

/-- Settles O2: a register access and an instruction are well formed whatever their operands; a check that is a write of
a fetch or a vector read is rejected. -/
theorem decodedOperationsAreWellFormed : Obligations.DecodedOperationsAreWellFormed := decode_answersWf

/-- Settles O3: nine closed packets, each evaluated by the decoder. -/
theorem writtenOutPacketsDecodeRight : Obligations.WrittenOutPacketsDecodeRight := by
  refine ⟨?readType, ?writeCtrl, ?writeRbarValid1, ?writeRbarA3Valid0, ?writeRasrA1, ?reserved, ?checkByte, ?checkWord,
    ?ldrt⟩
  all_goals decide

end Sys2Proof.Machine
end

section
/-! Steps (`00_scope.md` section 5): what a step can do, derived once from what an operation can do (`exec_effect`), and
from that the invariant, the violation bits, lockup, and who changes the MPU's registers and the memory. -/

namespace Sys2Proof.Machine

/-! ### One step -/

theorem step_of_lockedUp {s : State} (h : s.lockedUp = true) : step s = .fault .lockup := by
  simp [step, h]

theorem step_of_empty {s : State} (h : s.lockedUp = false) (hq : s.queue = []) : step s = .next s := by
  simp [step, h, hq]

theorem step_of_decode_ok {s : State} {packet : Packet} {rest : List Packet} {i : Instr} (h : s.lockedUp = false)
    (hq : s.queue = packet :: rest) (hd : decode packet = .ok i) : step s = exec i (s.setQueue rest) := by
  simp [step, h, hq, hd]

theorem step_of_decode_error {s : State} {packet : Packet} {rest : List Packet} {e : DecodeError}
    (h : s.lockedUp = false) (hq : s.queue = packet :: rest) (hd : decode packet = .error e) :
    step s = .refused (.undecodable e) := by
  simp [step, h, hq, hd]

/-- Everything a step that completes can do: nothing, or one operation on the state without its packet. -/
theorem step_next {s t : State} (h : step s = .next t) : t = s ∨ ∃ i rest, exec i (s.setQueue rest) = .next t := by
  cases hl : s.lockedUp with
  | true => simp [step_of_lockedUp hl] at h
  | false =>
    cases hq : s.queue with
    | nil =>
      rw [step_of_empty hl hq, next_inj] at h
      exact .inl h.symm
    | cons packet rest =>
      cases hd : decode packet with
      | error e => simp [step_of_decode_error hl hq hd] at h
      | ok i => exact .inr ⟨i, rest, by rw [← step_of_decode_ok hl hq hd, h]⟩

/-- What does not read the queue and is kept by every effect of an operation is kept by every step. -/
theorem step_keeps {P : State → Prop} (hqueue : ∀ s q, P s → P (s.setQueue q))
    (heffect : ∀ {i : Instr} {s t : State}, Effect i s t → P s → P t) {s t : State} (hs : P s) (h : step s = .next t) :
    P t := by
  rcases step_next h with rfl | ⟨i, rest, hexec⟩
  · exact hs
  · exact heffect (exec_effect hexec) (hqueue s rest hs)

/-! ### What the effects leave unchanged -/

/-- The parameters, MPU_CTRL, RNR.REGION and the regions are the same. -/
structure SameMpu (s t : State) : Prop where
  cfg : t.cfg = s.cfg
  ctrl : t.ctrl = s.ctrl
  rnr : t.rnr = s.rnr
  rnrWritten : t.rnrWritten = s.rnrWritten
  regions : t.regions = s.regions

theorem takeMemManage_sameMpu (s : State) (p : ProcInputs) (k : AccType) (a : Word) :
    SameMpu s (takeMemManage s p k a) := by
  rw [takeMemManage_eq]
  exact ⟨rfl, rfl, rfl, rfl, rfl⟩

/-- A read changes no register of the MPU. -/
theorem RegNext.sameMpu_of_read {s t : State} (h : RegNext s false t) : SameMpu s t := by
  obtain ⟨u, a, v, heffect, rfl⟩ := h
  cases heffect with
  | nothing | draw => exact ⟨rfl, rfl, rfl, rfl, rfl⟩

/-- No register operation changes the memory, the syndrome or the lockup, and each that completes answers ok. -/
theorem RegNext.frame {s t : State} {w : Bool} (h : RegNext s w t) :
    t.mem = s.mem ∧ t.mmfsr = s.mmfsr ∧ t.lockedUp = s.lockedUp ∧ ∃ ds v, t.reply = .ok ds v := by
  obtain ⟨u, a, v, heffect, rfl⟩ := h
  cases heffect with
  | nothing | draw | ctrl | select | addr | selectAddr | rasr => exact ⟨rfl, rfl, rfl, _, _, rfl⟩

/-- The MPU's registers change in one way only: a defined write of the register block. -/
theorem Effect.write_or_sameMpu {i : Instr} {s t : State} (h : Effect i s t) :
    (∃ r, regAccessOf i = some (r, true) ∧ Proper r ∧ RegNext s true t) ∨ SameMpu s t := by
  cases h with
  | register r w t hi hp hnext =>
    cases w with
    | true => exact .inl ⟨r, hi, hp, hnext⟩
    | false => exact .inr hnext.sameMpu_of_read
  | memManage p k a => exact .inr (takeMemManage_sameMpu s p k a)
  | busFaultRegister | busFaultUnpriv | answer | answerDrew | store => exact .inr ⟨rfl, rfl, rfl, rfl, rfl⟩

/-- The memory changes in one way only: an unprivileged store. -/
theorem Effect.mem {i : Instr} {s t : State} (h : Effect i s t) :
    t.mem = s.mem ∨ ∃ p a size v, unprivAccessOf i = some (p, a, size, true) ∧
      t.mem = storeValue s a (bytesOf size) v := by
  cases h with
  | register r w t hi hp hnext => exact .inl hnext.frame.1
  | memManage p k a => left; rw [takeMemManage_eq]
  | store p a v size ds hi => exact .inr ⟨p, a, size, v, hi, rfl⟩
  | busFaultRegister | busFaultUnpriv | answer | answerDrew => exact .inl rfl

/-- The syndrome changes in one way only: a MemManage. -/
theorem Effect.mmfsr {i : Instr} {s t : State} (h : Effect i s t) :
    t.mmfsr = s.mmfsr ∨ ∃ k, t.mmfsr = syndromeBits s.mmfsr k := by
  cases h with
  | register r w t hi hp hnext => exact .inl hnext.frame.2.1
  | memManage p k a => right; exact ⟨k, by rw [takeMemManage_eq]⟩
  | busFaultRegister | busFaultUnpriv | answer | answerDrew | store => exact .inl rfl

/-- Lockup is set by a MemManage below priority 0, which is also what answers it. -/
theorem Effect.lockedUp_iff {i : Instr} {s t : State} (h : Effect i s t) (hs : s.lockedUp = false) :
    t.lockedUp = true ↔ t.reply = .lockup := by
  cases h with
  | register r w t hi hp hnext =>
    obtain ⟨-, -, hlocked, ds, v, hreply⟩ := hnext.frame
    simp [hlocked, hs, hreply]
  | memManage p k a =>
    rw [takeMemManage_eq]
    cases p.prioBelowZero <;> simp [hs]
  | busFaultRegister | busFaultUnpriv => simp [takeBusFault, hs]
  | answer | answerDrew | store => simp [hs]

/-! ### The invariant -/

/-- The invariant reads the registers and the memory only. -/
theorem State.Inv.of_sameMpu {s t : State} (h : s.Inv) (hsame : SameMpu s t) (hmem : t.mem.wf) : t.Inv where
  oneEntryPerRegion := by rw [hsame.regions, hsame.cfg]; exact h.oneEntryPerRegion
  selectedRegionExists := by rw [hsame.rnrWritten, hsame.rnr, hsame.cfg]; exact h.selectedRegionExists
  lowAddrBitsZero := by rw [hsame.regions, hsame.cfg]; exact h.lowAddrBitsZero
  noMpuNoControl := by rw [hsame.cfg, hsame.ctrl]; exact h.noMpuNoControl
  memoryCanonical := hmem

theorem State.Inv.answer {s : State} (h : s.Inv) (r : Reply) : (s.answer r).Inv :=
  h.of_sameMpu ⟨rfl, rfl, rfl, rfl, rfl⟩ h.memoryCanonical

theorem State.Inv.setCtrl {s : State} (h : s.Inv) (hmpu : s.cfg.nregions.val ≠ 0) (c : Ctrl) : (s.setCtrl c).Inv :=
  { h with noMpuNoControl := fun hno => absurd hno hmpu }

theorem State.Inv.select {s : State} (h : s.Inv) {n : BitVec 8} (hn : n.toNat < s.cfg.nregions.val) :
    (s.select n).Inv :=
  { h with selectedRegionExists := fun _ => hn }

theorem State.Inv.setAddr {s : State} (h : s.Inv) (r : Nat) (addr : BitVec 27) :
    (s.setAddr r (storedAddr s.cfg r addr)).Inv :=
  { h with
    oneEntryPerRegion := by
      rw [State.setAddr, List.length_modify]; exact h.oneEntryPerRegion
    lowAddrBitsZero := by
      intro q g hg j hj
      rw [State.setAddr_getElem?] at hg
      split at hg
      case isTrue hq =>
        subst hq
        obtain ⟨g', -, rfl⟩ := Option.map_eq_some_iff.mp hg
        rw [State.setAddr_cfg] at hj
        rw [getLsbD_storedAddr, decide_eq_false (by omega), Bool.false_and]
      case isFalse hq => exact h.lowAddrBitsZero q g hg j hj }

theorem State.Inv.setRasr {s : State} (h : s.Inv) (r : Nat) (x : Rasr) : (s.setRasr r x).Inv :=
  { h with
    oneEntryPerRegion := by
      rw [State.setRasr, List.length_modify]; exact h.oneEntryPerRegion
    lowAddrBitsZero := by
      intro q g hg j hj
      rw [State.setRasr_getElem?] at hg
      split at hg
      case isTrue hq =>
        obtain ⟨g', hg', rfl⟩ := Option.map_eq_some_iff.mp hg
        exact h.lowAddrBitsZero q g' hg' j hj
      case isFalse hq => exact h.lowAddrBitsZero q g hg j hj }

/-- REGION of a written RBAR word names the region it selects. -/
theorem toNat_zeroExtend_region (n : BitVec 4) : (n.zeroExtend 8).toNat = n.toNat := by
  simp [BitVec.toNat_setWidth]; omega

theorem RegEffect.keeps_inv {s u : State} {w : Bool} (h : RegEffect s w u) (hs : s.Inv) : u.Inv ∧ u.cfg = s.cfg := by
  cases h with
  | nothing => exact ⟨hs, rfl⟩
  | draw => exact ⟨hs.of_sameMpu ⟨rfl, rfl, rfl, rfl, rfl⟩ hs.memoryCanonical, rfl⟩
  | ctrl c hmpu => exact ⟨hs.setCtrl hmpu c, rfl⟩
  | select n hn => exact ⟨hs.select hn, rfl⟩
  | addr addr hmpu => exact ⟨hs.setAddr _ addr, rfl⟩
  | selectAddr n addr hn => exact ⟨(hs.select (by rwa [toNat_zeroExtend_region])).setAddr _ addr, rfl⟩
  | rasr x hmpu hsize => exact ⟨hs.setRasr _ x, rfl⟩

theorem RegNext.keeps_inv {s t : State} {w : Bool} (h : RegNext s w t) (hs : s.Inv) : t.Inv ∧ t.cfg = s.cfg := by
  obtain ⟨u, a, v, heffect, rfl⟩ := h
  obtain ⟨hinv, hcfg⟩ := heffect.keeps_inv hs
  exact ⟨hinv.answer _, hcfg⟩

theorem Effect.keeps_inv {i : Instr} {s t : State} (h : Effect i s t) (hs : s.Inv) : t.Inv ∧ t.cfg = s.cfg := by
  rcases h.write_or_sameMpu with ⟨r, -, -, hnext⟩ | hsame
  · exact hnext.keeps_inv hs
  · refine ⟨hs.of_sameMpu hsame ?_, hsame.cfg⟩
    rcases h.mem with hmem | ⟨p, a, size, v, -, hmem⟩
    · rw [hmem]; exact hs.memoryCanonical
    · rw [hmem]; exact storeValue_wf s a _ v hs.memoryCanonical

/-! ### The sizes of enabled regions -/

/-- A RASR value the window accepts: when it enables the region its SIZE is supported (R214, D25). -/
theorem minLog2_le_of_sizeTooSmall {c : Config} {r : Nat} {x : Rasr} (h : sizeTooSmall c r x = false)
    (henable : x.enable = true) : c.minLog2 r ≤ x.size.toNat + 1 := by
  rw [sizeTooSmall, henable, Bool.true_or, Bool.and_true] at h
  exact Nat.le_of_not_lt (of_decide_eq_false h)

theorem State.EnabledSizesSupported.of_sameMpu {s t : State} (h : s.EnabledSizesSupported) (hsame : SameMpu s t) :
    t.EnabledSizesSupported := by
  unfold State.EnabledSizesSupported
  rw [hsame.regions, hsame.cfg]
  exact h

theorem State.EnabledSizesSupported.setAddr {s : State} (h : s.EnabledSizesSupported) (r : Nat) (addr : BitVec 27) :
    (s.setAddr r addr).EnabledSizesSupported := by
  intro q g hg henable
  rw [State.setAddr_getElem?] at hg
  split at hg
  case isTrue hq =>
    obtain ⟨g', hg', rfl⟩ := Option.map_eq_some_iff.mp hg
    exact h q g' hg' henable
  case isFalse hq => exact h q g hg henable

theorem State.EnabledSizesSupported.setRasr {s : State} (h : s.EnabledSizesSupported) {r : Nat} {x : Rasr}
    (hx : sizeTooSmall s.cfg r x = false) : (s.setRasr r x).EnabledSizesSupported := by
  intro q g hg henable
  rw [State.setRasr_getElem?] at hg
  split at hg
  case isTrue hq =>
    subst hq
    obtain ⟨g', -, rfl⟩ := Option.map_eq_some_iff.mp hg
    exact minLog2_le_of_sizeTooSmall hx henable
  case isFalse hq => exact h q g hg henable

theorem RegEffect.keeps_enabledSizes {s u : State} {w : Bool} (h : RegEffect s w u) (hs : s.EnabledSizesSupported) :
    u.EnabledSizesSupported := by
  cases h with
  | nothing | draw | ctrl | select => exact hs
  | addr addr hmpu => exact hs.setAddr _ _
  | selectAddr n addr hn => exact State.EnabledSizesSupported.setAddr (s := s.select _) hs _ _
  | rasr x hmpu hsize => exact hs.setRasr hsize

theorem Effect.keeps_enabledSizes {i : Instr} {s t : State} (h : Effect i s t) (hs : s.EnabledSizesSupported) :
    t.EnabledSizesSupported := by
  rcases h.write_or_sameMpu with ⟨r, -, -, u, a, v, heffect, rfl⟩ | hsame
  · exact heffect.keeps_enabledSizes hs
  · exact hs.of_sameMpu hsame

/-! ### The reset state -/

theorem State.reset_region {r : Nat} {g : Region} (h : State.reset.regions[r]? = some g) : g = Region.zero :=
  List.eq_of_mem_replicate (List.mem_of_getElem? h)

/-! ### The statements -/

/-- Settles O8: every effect keeps the invariant and the parameters (`Effect.keeps_inv`), and the queue is no part of
either. -/
theorem stepKeepsTheInvariant : Obligations.StepKeepsTheInvariant := by
  intro s t hinv hstep
  refine step_keeps (P := fun u => u.Inv ∧ u.cfg = s.cfg) ?queue ?effect ⟨hinv, rfl⟩ hstep
  case queue =>
    rintro u q ⟨hu, hcfg⟩
    exact ⟨hu.of_sameMpu ⟨rfl, rfl, rfl, rfl, rfl⟩ hu.memoryCanonical, hcfg⟩
  case effect =>
    rintro i u v h ⟨hu, hcfg⟩
    obtain ⟨hv, hcfg'⟩ := h.keeps_inv hu
    exact ⟨hv, hcfg'.trans hcfg⟩

/-- Settles O9: a RASR window refuses a SIZE below the minimum with ENABLE 1, and nothing else writes SIZE or ENABLE. -/
theorem stepKeepsEnabledSizesSupported : Obligations.StepKeepsEnabledSizesSupported := by
  intro s t hs hstep
  exact step_keeps (fun _ _ hu => hu) Effect.keeps_enabledSizes hs hstep

/-- Settles O10: the syndrome of a MemManage sets one violation bit and leaves the other, and nothing else writes
MMFSR. -/
theorem violationBitsStaySet : Obligations.ViolationBitsStaySet := by
  intro s t hstep
  refine step_keeps (P := fun u => (s.mmfsr.iaccviol = true → u.mmfsr.iaccviol = true) ∧
    (s.mmfsr.daccviol = true → u.mmfsr.daccviol = true)) (fun _ _ hu => hu) ?effect ⟨id, id⟩ hstep
  rintro i u v h ⟨hi, hd⟩
  rcases h.mmfsr with heq | ⟨k, heq⟩
  · rw [heq]; exact ⟨hi, hd⟩
  · rw [heq]
    cases k with
    | ifetch => exact ⟨fun _ => rfl, hd⟩
    | normal | vectable | unpriv => exact ⟨hi, fun _ => rfl⟩

/-- Settles O7: no step leaves lockup, and only a MemManage below priority 0 locks up and answers so
(`Effect.lockedUp_iff`). -/
theorem lockupIsTerminal : Obligations.LockupIsTerminal :=
  ⟨fun _ => step_of_lockedUp, fun _ _ _ hs h => (exec_effect h).lockedUp_iff hs⟩

/-- Settles O11: an effect that is no defined write leaves every register of the MPU (`Effect.write_or_sameMpu`). -/
theorem onlyProperWritesChangeTheMpu : Obligations.OnlyProperWritesChangeTheMpu := by
  intro i s t h hchanged
  rcases (exec_effect h).write_or_sameMpu with ⟨r, hi, hproper, -⟩ | hsame
  · exact ⟨r, hi, hproper⟩
  · rcases hchanged with hne | hne | hne
    · exact absurd hsame.ctrl hne
    · exact absurd hsame.rnr hne
    · exact absurd hsame.regions hne

/-- Settles O12: only a store writes the memory, and it reads as before at every address that is none of the store's
bytes (`storeValue_storedAs`). -/
theorem onlyStoresChangeMemory : Obligations.OnlyStoresChangeMemory := by
  intro i s t hwf h x hx
  rcases (exec_effect h).mem with hmem | ⟨p, a, size, v, hi, hmem⟩
  · rw [hmem] at hx; exact absurd rfl hx
  · refine ⟨p, a, size, hi, ?_⟩
    by_contra hnone
    push Not at hnone
    obtain ⟨-, hother⟩ := storeValue_storedAs hwf a (show bytesOf size < 2 ^ 32 by cases size <;> decide) v
    rw [hmem] at hx
    exact hx (hother x fun k hk _ => hnone k hk)

/-- Settles O6: the three cases of `step` in a machine that is not locked up. -/
theorem stepPerformsTheOldestTransaction : Obligations.StepPerformsTheOldestTransaction :=
  fun _ h => ⟨fun _ _ _ => step_of_decode_ok h, fun _ _ _ => step_of_decode_error h, step_of_empty h⟩

/-- Settles O5: every region of the reset state is zero in every field, so it is disabled and no bit of its ADDR is
set. -/
theorem resetMeetsTheInvariant : Obligations.ResetMeetsTheInvariant := by
  constructor
  case left =>
    exact
      { oneEntryPerRegion := rfl
        selectedRegionExists := nofun
        lowAddrBitsZero := by
          intro r g hg k _
          rw [State.reset_region hg, Region.zero, BitVec.getLsbD_zero]
        noMpuNoControl := nofun
        memoryCanonical := State.reset_mem_wf }
  case right =>
    intro r g hg henable
    rw [State.reset_region hg] at henable
    exact absurd henable Bool.false_ne_true

end Sys2Proof.Machine
end

section
/-! The register interface (`42_register_interface.md`): MPU_TYPE, MPU_CTRL and MPU_RNR, the RBAR and RASR windows once
a region is selected and before, the addresses without a register, and the checks behind which all of them stand. -/

namespace Sys2Proof.Machine

/-! ### The checks of a register access -/

/-- Every register operation stands behind the checks of a register access. -/
theorem exec_eq_regGate {i : Instr} {r : RegAccess} {w : Bool} (hi : regAccessOf i = some (r, w)) (s : State) :
    ∃ op, exec i s = regGate s r op := by
  cases i with
  | reservedEDBC r' op | reservedEDC0 r' j op | reservedEDE0 r' j op =>
    cases op with
    | read | write => cases hi; exact ⟨_, rfl⟩
  | validateAddress | ldrbt | ldrht | ldrsbt | ldrsht | ldrt | strbt | strht | strt => nomatch hi
  | _ => cases hi; exact ⟨_, rfl⟩

/-- Settles O15: past the privilege check come the width and then the alignment, whatever the operation. -/
theorem misshapenRegisterAccessIsRefused : Obligations.MisshapenRegisterAccessIsRefused := by
  intro i s r w hi hpriv
  obtain ⟨op, hgate⟩ := exec_eq_regGate hi s
  rw [hgate]
  exact ⟨fun hwidth => regGate_of_width hpriv hwidth s op, fun hword hlane => regGate_of_lane hpriv hword hlane s op⟩

/-! ### MPU_TYPE, MPU_CTRL and MPU_RNR -/

/-- Without an MPU an operation is the one of an absent MPU. -/
theorem ite_noMpu_of_absent {s : State} (hno : s.cfg.nregions.val = 0) (absent present : Out) :
    (if noMpu s then absent else present) = absent := by
  simp [noMpu_eq_true.mpr hno]

/-- Settles O17: past the checks, the parameter alone decides. -/
theorem writeMpuTypeIsIgnoredOrRefused : Obligations.WriteMpuTypeIsIgnoredOrRefused := by
  intro s r v hproper
  rw [exec_writeMpuType, regGate_of_proper hproper, answerWrite_eq]
  constructor
  · intro hignored; simp [hignored]
  · intro hrefused; simp [hrefused]

/-- Settles O18: the word answered is in format CTRL; its reserved bits are those of 0 before the first write, with
nothing drawn, and of a drawn word after it. -/
theorem readMpuCtrlGivesTheControlBits : Obligations.ReadMpuCtrlGivesTheControlBits := by
  intro s r hproper
  constructor
  case left =>
    intro hno
    rw [exec_readMpuCtrl, regGate_of_proper hproper, ite_noMpu_of_absent hno, answerRead_eq]
  case right =>
    intro hmpu
    by_cases hwritten : s.ctrlWritten = true
    case neg =>
      have hunwritten := Bool.eq_false_of_not_eq_true hwritten
      refine ⟨ctrlWord s.ctrl 0#32, s.draws, ?_, ctrlWord_privdefena _ _, ctrlWord_hfnmiena _ _, ctrlWord_enable _ _,
        fun _ => ⟨by rw [ctrlWord_reserved]; rfl, rfl⟩, (absurd · hwritten)⟩
      rw [exec_readMpuCtrl_of_unwritten hproper hunwritten, noMpu_eq_false.mpr hmpu, if_neg Bool.false_ne_true]
    case pos =>
      refine ⟨ctrlWord s.ctrl (Config.freeValue s.draws), s.draws + 1, ?_, ctrlWord_privdefena _ _,
        ctrlWord_hfnmiena _ _, ctrlWord_enable _ _, fun h => absurd hwritten (by simp [h]), fun _ => rfl⟩
      rw [exec_readMpuCtrl, regGate_of_proper hproper, ite_noMpu_of_present hmpu, if_pos hwritten, answerRead_eq,
        State.drew]

/-- Settles O21: past the checks, and with an MPU, bits 7:0 are compared with NREGIONS and stored. -/
theorem writeMpuRnrSelectsARegion : Obligations.WriteMpuRnrSelectsARegion := by
  intro s r v
  refine ⟨?unprivileged, ?absentRegion, ?region⟩
  case unprivileged =>
    intro hunpriv
    exact exec_of_regGate_unprivileged hunpriv (exec_writeMpuRnr r v s)
  case absentRegion =>
    intro hproper hmpu habsent
    rw [exec_writeMpuRnr, regGate_of_proper hproper, ite_noMpu_of_present hmpu, rnrOfWord, if_pos habsent]
  case region =>
    intro hproper hregion
    rw [exec_writeMpuRnr, regGate_of_proper hproper, ite_noMpu_of_present (by omega), rnrOfWord,
      if_neg (by omega), answerWrite_eq, State.select]

/-! ### The windows, once a region is selected -/

/-- The state after the register pair of the selected region has become `g`, which is what the writes of the windows
make of a state (`exec_rbarWriteValid0_of_selected`, `exec_rasrWrite_of_supported`, `exec_rbarWriteValid1_of_region`). -/
def State.setSelected (s : State) (g : Region) : State := { s with regions := s.regions.set s.rnr.toNat g }

theorem State.setSelected_same {s : State} {g : Region} (h : s.regions[s.rnr.toNat]? = some g) (g' : Region) :
    (s.setSelected g').regions[s.rnr.toNat]? = some g' :=
  List.getElem?_set_self (List.getElem?_eq_some_iff.mp h).choose

theorem State.setSelected_other {s : State} {q : Nat} (h : q ≠ s.rnr.toNat) (g : Region) :
    (s.setSelected g).regions[q]? = s.regions[q]? :=
  List.getElem?_set_ne h.symm

section Selected

variable {s : State} {r : RegAccess} {g : Region} (hproper : Proper r) (hmpu : s.cfg.nregions.val ≠ 0)
  (hwritten : s.rnrWritten = true) (hregion : s.regions[s.rnr.toNat]? = some g)
include hproper hmpu hwritten hregion

theorem exec_rbarRead_of_selected (k : Fin 4) :
    exec (rbarRead k r) s = .next (s.answered (rbarAddress k) (some (rbarWord g.addr s.rnr))) := by
  rw [exec_rbarRead, regGate_of_proper hproper, readRbarWindow, ite_noMpu_of_present hmpu,
    withSelected_of_some hwritten hregion, answerRead_eq]

theorem exec_rbarWriteValid0_of_selected (k : Fin 4) (addr : BitVec 27) (n : BitVec 4) :
    exec (rbarWriteValid0 k r addr n) s =
      .next ((s.setSelected { g with addr := storedAddr s.cfg s.rnr.toNat addr }).answered (rbarAddress k) none) := by
  rw [exec_rbarWriteValid0, regGate_of_proper hproper, writeRbarValid0, ite_noMpu_of_present hmpu,
    withSelected_of_some hwritten hregion, answerWrite_eq, State.setAddr_eq hregion, State.setSelected]

theorem exec_rasrRead_of_selected (k : Fin 4) :
    exec (rasrRead k r) s =
      .next (({ s with draws := s.draws + 1 } : State).answered (rasrAddress k)
        (some (rasrWord g.rasr (Config.freeValue s.draws)))) := by
  rw [exec_rasrRead, regGate_of_proper hproper, readRasrWindow, ite_noMpu_of_present hmpu,
    withSelected_of_some hwritten hregion, answerRead_eq, State.drew]

theorem exec_rasrWrite_of_small (k : Fin 4) {v : Word}
    (hsize : sizeTooSmall s.cfg s.rnr.toNat (rasrOfWord v) = true) :
    exec (rasrWrite k r v) s = .refused .sizeBelowMinimum := by
  rw [exec_rasrWrite, regGate_of_proper hproper, writeRasrWindow, ite_noMpu_of_present hmpu,
    withSelected_of_some hwritten hregion, hsize, if_pos rfl]

theorem exec_rasrWrite_of_supported (k : Fin 4) {v : Word}
    (hsize : sizeTooSmall s.cfg s.rnr.toNat (rasrOfWord v) = false) :
    exec (rasrWrite k r v) s =
      .next ((s.setSelected { g with rasr := rasrOfWord v }).answered (rasrAddress k) none) := by
  rw [exec_rasrWrite, regGate_of_proper hproper, writeRasrWindow, ite_noMpu_of_present hmpu,
    withSelected_of_some hwritten hregion, hsize, if_neg Bool.false_ne_true, answerWrite_eq,
    State.setRasr_eq hregion, State.setSelected]

end Selected

/-- A RASR word is refused for its SIZE when that is below the minimum and it enables the region, or when the parameter
asks for the check of every word (R214, D25). -/
theorem sizeTooSmall_rasrOfWord (c : Config) (q : Nat) (v : Word) :
    sizeTooSmall c q (rasrOfWord v) = true ↔
      (v.extractLsb' 1 5).toNat + 1 < c.minLog2 q ∧ (v.getLsbD 0 = true ∨ c.sizeCheckOnlyWhenEnabled = false) := by
  rw [sizeTooSmall, Bool.and_eq_true, Bool.or_eq_true, Bool.not_eq_true', decide_eq_true_eq]
  rfl

theorem sizeTooSmall_of_le {c : Config} {q : Nat} {v : Word} (h : c.minLog2 q ≤ (v.extractLsb' 1 5).toNat + 1) :
    sizeTooSmall c q (rasrOfWord v) = false := by
  rw [← Bool.not_eq_true, sizeTooSmall_rasrOfWord]
  rintro ⟨hlt, -⟩
  omega

/-- ADDR is in bits 31:5 of the word an RBAR window reads as. -/
theorem rbarWord_getLsbD_addr (addr : BitVec 27) (rnr : BitVec 8) (j : Nat) :
    (rbarWord addr rnr).getLsbD (5 + j) = addr.getLsbD j := by
  by_cases hj : j < 27
  · rw [← rbarWord_addr addr rnr, BitVec.getLsbD_extractLsb', decide_eq_true hj, Bool.true_and, rbarWord_addr]
  · rw [BitVec.getLsbD_of_ge _ _ (by omega), BitVec.getLsbD_of_ge _ _ (by omega)]

/-- The write of an RBAR word that names a region that exists, whatever RNR held. -/
theorem exec_rbarWriteValid1_of_region {s : State} {r : RegAccess} {n : BitVec 4} {g : Region} (hproper : Proper r)
    (hn : n.toNat < s.cfg.nregions.val) (hregion : s.regions[n.toNat]? = some g) (k : Fin 4) (addr : BitVec 27) :
    exec (rbarWriteValid1 k r addr n) s =
      .next (((s.select (n.zeroExtend 8)).setSelected { g with addr := storedAddr s.cfg n.toNat addr }).answered
        (rbarAddress k) none) := by
  have hrange : ¬ (s.cfg.nregions.val < 16 && decide (s.cfg.nregions.val ≤ n.toNat)) = true := by simp; omega
  rw [exec_rbarWriteValid1, regGate_of_proper hproper, writeRbarValid1, ite_noMpu_of_present (by omega),
    if_neg hrange, answerWrite_eq, State.setAddr_eq (s := s.select _) hregion,
    State.setSelected, State.select_rnr, toNat_zeroExtend_region]

/-- Settles O22: the word answered is in format RBAR, and the invariant has the low bits of the stored ADDR 0. -/
theorem readRbarWindowsGiveTheBaseAddress : Obligations.ReadRbarWindowsGiveTheBaseAddress := by
  intro s r k g hproper hmpu hwritten hregion
  refine ⟨rbarWord g.addr s.rnr, exec_rbarRead_of_selected hproper hmpu hwritten hregion k, rbarWord_addr _ _,
    rbarWord_valid _ _, rbarWord_region _ _, fun hinv j hj => ?_⟩
  rw [rbarWord_getLsbD_addr]
  exact hinv.lowAddrBitsZero _ g hregion j hj

/-- Settles O23: the ADDR stored is `storedAddr` of the ADDR written. -/
theorem writeRbarWindowsValid0SetTheSelectedBase : Obligations.WriteRbarWindowsValid0SetTheSelectedBase := by
  intro s r k addr region g hproper hmpu hwritten hregion
  exact ⟨storedAddr s.cfg s.rnr.toNat addr, getLsbD_storedAddr _ _ _,
    exec_rbarWriteValid0_of_selected hproper hmpu hwritten hregion k addr region⟩

/-- Settles O24: REGION is compared with NREGIONS, and its four bits cannot exceed 16 regions or more. -/
theorem writeRbarWindowsValid1SelectAndSetTheBase : Obligations.WriteRbarWindowsValid1SelectAndSetTheBase := by
  intro s r k addr region
  refine ⟨?unprivileged, ?absentRegion, ?region⟩
  case unprivileged =>
    intro hunpriv
    exact exec_of_regGate_unprivileged hunpriv (exec_rbarWriteValid1 k r addr region s)
  case absentRegion =>
    intro hproper hmpu hfew habsent
    rw [exec_rbarWriteValid1, regGate_of_proper hproper, writeRbarValid1, ite_noMpu_of_present hmpu,
      if_pos (by simp [hfew, habsent])]
  case region =>
    intro g hproper hn hregion
    refine ⟨storedAddr s.cfg region.toNat addr, getLsbD_storedAddr _ _ _, ?_⟩
    rw [exec_rbarWriteValid1_of_region hproper hn hregion k addr, State.setSelected, State.select_rnr,
      toNat_zeroExtend_region, State.select]

/-- Settles O25: the word answered is in format RASR, whatever the drawn word of the bits no field names. -/
theorem readRasrWindowsGiveTheAttributes : Obligations.ReadRasrWindowsGiveTheAttributes := by
  intro s r k g hproper hmpu hwritten hregion
  exact ⟨rasrWord g.rasr (Config.freeValue s.draws), exec_rasrRead_of_selected hproper hmpu hwritten hregion k,
    rasrWord_xn _ _, rasrWord_ap _ _, rasrWord_tex _ _, rasrWord_s _ _, rasrWord_c _ _, rasrWord_b _ _,
    rasrWord_srd _ _, rasrWord_size _ _, rasrWord_enable _ _⟩

/-- Settles O26: `sizeTooSmall` of the word's fields divides the two clauses. -/
theorem writeRasrWindowsSetTheAttributes : Obligations.WriteRasrWindowsSetTheAttributes := by
  intro s r k v g hproper hmpu hwritten hregion
  constructor
  case left =>
    intro hsmall hchecked
    exact exec_rasrWrite_of_small hproper hmpu hwritten hregion k
      ((sizeTooSmall_rasrOfWord _ _ _).mpr ⟨hsmall, hchecked⟩)
  case right =>
    intro hsupported
    refine exec_rasrWrite_of_supported hproper hmpu hwritten hregion k ?_
    rw [← Bool.not_eq_true, sizeTooSmall_rasrOfWord]
    rintro ⟨hsmall, hchecked⟩
    rcases hsupported with hle | ⟨hdisabled, honly⟩
    · omega
    · rw [hdisabled, honly] at hchecked
      exact absurd hchecked (by decide)

/-- Settles O29: ADDR reads back as all ones from the region's minimum alignment up, and MINLOG2 counts five bits
more. -/
theorem probeFindsTheMinimumSize : Obligations.ProbeFindsTheMinimumSize := by
  intro s r k j region g hproper hmpu hwritten hregion
  obtain ⟨stored, hbits, hwrite⟩ := writeRbarWindowsValid0SetTheSelectedBase s r k (BitVec.allOnes 27) region g hproper
    hmpu hwritten hregion
  have hread := exec_rbarRead_of_selected (s := (s.setSelected { g with addr := stored }).answered (rbarAddress k) none)
    hproper hmpu hwritten (State.setSelected_same hregion _) j
  refine ⟨_, _, _, hwrite, hread, rfl, fun b hb => ?_⟩
  rw [rbarWord_getLsbD_addr, hbits, BitVec.getLsbD_allOnes, decide_eq_true hb, Bool.and_true,
    Config.minLog2, Nat.add_sub_cancel_left]

/-- Settles O27: each of the four is an operation on the selected region. -/
theorem windowsAreRefusedBeforeASelection : Obligations.WindowsAreRefusedBeforeASelection := by
  intro s r k addr region v hproper hmpu hunwritten
  refine ⟨?_, ?_, ?_, ?_⟩
  · rw [exec_rbarRead, regGate_of_proper hproper, readRbarWindow, ite_noMpu_of_present hmpu,
      withSelected_of_unwritten hunwritten]
  · rw [exec_rbarWriteValid0, regGate_of_proper hproper, writeRbarValid0, ite_noMpu_of_present hmpu,
      withSelected_of_unwritten hunwritten]
  · rw [exec_rasrRead, regGate_of_proper hproper, readRasrWindow, ite_noMpu_of_present hmpu,
      withSelected_of_unwritten hunwritten]
  · rw [exec_rasrWrite, regGate_of_proper hproper, writeRasrWindow, ite_noMpu_of_present hmpu,
      withSelected_of_unwritten hunwritten]

/-! ### A pair of words of a multi-word store -/

/-- The first word's packet is the write of RBAR window `k`, the next one's that of RASR window `k`. -/
theorem stmStream_pair (r : RegAccess) (k : Fin 4) (addr : BitVec 27) (n : BitVec 4) (v : Word) (rest : List Packet) :
    stmStream r (rbarAddress k) [rbarWordOf addr true n, v] ++ rest =
      encode (rbarWriteValid1 k r addr n) :: encode (rasrWrite k r v) :: rest := by
  fin_cases k <;> rfl

theorem decode_encode_rbarWriteValid1 (k : Fin 4) (r : RegAccess) (addr : BitVec 27) (n : BitVec 4) :
    decode (encode (rbarWriteValid1 k r addr n)) = .ok (rbarWriteValid1 k r addr n) :=
  decodeOfEncodeIsTheOperation _ (by fin_cases k <;> rfl)

theorem decode_encode_rasrWrite (k : Fin 4) (r : RegAccess) (v : Word) :
    decode (encode (rasrWrite k r v)) = .ok (rasrWrite k r v) :=
  decodeOfEncodeIsTheOperation _ (by fin_cases k <;> rfl)

theorem run_two {s u t : State} (hfirst : step s = .next u) (hsecond : step u = .next t) :
    Host.Core.run Sys2Proof.core 2 s = .next t := by
  simp only [Host.Core.run, Sys2Proof.core, hfirst, hsecond]

theorem step_rbarWriteValid1 {s : State} {r : RegAccess} {k : Fin 4} {addr : BitVec 27} {n : BitVec 4} {g : Region}
    {rest : List Packet} (hlocked : s.lockedUp = false) (hproper : Proper r) (hn : n.toNat < s.cfg.nregions.val)
    (hregion : s.regions[n.toNat]? = some g) (hqueue : s.queue = encode (rbarWriteValid1 k r addr n) :: rest) :
    step s =
      .next ((((s.setQueue rest).select (n.zeroExtend 8)).setSelected
        { g with addr := storedAddr s.cfg n.toNat addr }).answered (rbarAddress k) none) := by
  rw [step_of_decode_ok hlocked hqueue (decode_encode_rbarWriteValid1 k r addr n)]
  exact exec_rbarWriteValid1_of_region (s := s.setQueue rest) hproper hn hregion k addr

theorem step_rasrWrite {s : State} {r : RegAccess} {k : Fin 4} {v : Word} {g : Region} {rest : List Packet}
    (hlocked : s.lockedUp = false) (hproper : Proper r) (hmpu : s.cfg.nregions.val ≠ 0)
    (hwritten : s.rnrWritten = true) (hregion : s.regions[s.rnr.toNat]? = some g)
    (hsize : s.cfg.minLog2 s.rnr.toNat ≤ (v.extractLsb' 1 5).toNat + 1)
    (hqueue : s.queue = encode (rasrWrite k r v) :: rest) :
    step s =
      .next (((s.setQueue rest).setSelected { g with rasr := rasrOfWord v }).answered (rasrAddress k) none) := by
  rw [step_of_decode_ok hlocked hqueue (decode_encode_rasrWrite k r v)]
  exact exec_rasrWrite_of_supported (s := s.setQueue rest) hproper hmpu hwritten hregion k (sizeTooSmall_of_le hsize)

/-- Settles O28: the first step selects region `n` and writes its ADDR, so the second finds it selected and writes its
RASR. -/
theorem streamOfTwoWordsSetsOneRegion : Obligations.StreamOfTwoWordsSetsOneRegion := by
  intro s r k addr n v rest g hlocked hproper hn hregion hsize hqueue
  rw [stmStream_pair] at hqueue
  have hfirst := step_rbarWriteValid1 hlocked hproper hn hregion hqueue
  have hrnr := toNat_zeroExtend_region n
  have hselected : ((s.setQueue (encode (rasrWrite k r v) :: rest)).select (n.zeroExtend 8)).regions[
      (n.zeroExtend 8).toNat]? = some g := by rw [hrnr]; exact hregion
  refine ⟨_, run_two hfirst (step_rasrWrite hlocked hproper (Nat.ne_of_gt (Nat.zero_lt_of_lt hn)) rfl
    (State.setSelected_same hselected _) (by rw [← hrnr] at hsize; exact hsize) rfl), rfl, rfl, rfl, rfl, ?others,
    { addr := storedAddr s.cfg n.toNat addr, rasr := rasrOfWord v }, ?region, rfl, getLsbD_storedAddr _ _ _⟩
  case others =>
    intro q hq
    rw [← hrnr] at hq
    exact (State.setSelected_other hq _).trans (State.setSelected_other hq _)
  case region =>
    rw [← hrnr]
    exact State.setSelected_same (State.setSelected_same hselected _) _

/-! ### Addresses without a register -/

theorem absentRead_eq (s : State) (a : Word) :
    absentRead s a =
      .next (({ s with draws := s.draws + 1 } : State).answered a (some (Config.freeValue s.draws))) := rfl

theorem absentWrite_zero (s : State) (a : Word) : absentWrite s a 0#32 = .next (s.answered a none) := rfl

theorem absentWrite_of_ne {v : Word} (hv : v ≠ 0#32) (s : State) (a : Word) :
    absentWrite s a v = .refused .absentRegisterWrite :=
  if_neg hv

/-- An access to the reserved address `a`, the operation `i op` standing behind the checks (R210, R211, D19). -/
theorem exec_reserved {i : RegOp → Instr} {s : State} {r : RegAccess} {a : Word}
    (hgate : ∀ op, exec (i op) s = regGate s r (reservedAccess s a op)) (hproper : Proper r) :
    (s.cfg.nregions.val ≠ 0 → ∀ op, exec (i op) s = .refused .reservedAddress) ∧
    (s.cfg.nregions.val = 0 →
      (∃ x, exec (i .read) s = .next (({ s with draws := s.draws + 1 } : State).answered a (some x))) ∧
      exec (i (.write 0#32)) s = .next (s.answered a none) ∧
      ∀ v, v ≠ 0#32 → exec (i (.write v)) s = .refused .absentRegisterWrite) := by
  simp only [hgate, regGate_of_proper hproper, reservedAccess]
  constructor
  case left => exact fun hmpu op => ite_noMpu_of_present hmpu _ _
  case right =>
    intro hno
    simp only [ite_noMpu_of_absent hno]
    exact ⟨⟨_, absentRead_eq s a⟩, absentWrite_zero s a, fun v hv => absentWrite_of_ne hv s a⟩

/-- The word addresses of the reserved ranges, by index. -/
theorem reservedEDC0_eq_add (i : BitVec 3) : 0xE000EDC0#32 ||| placed i 2 = 0xE000EDC0#32 + 4#32 * i.zeroExtend 32 := by
  revert i; decide

theorem reservedEDE0_eq_add (i : BitVec 2) : 0xE000EDE0#32 ||| placed i 2 = 0xE000EDE0#32 + 4#32 * i.zeroExtend 32 := by
  revert i; decide

theorem exec_reservedEDBC (r : RegAccess) (s : State) (op : RegOp) :
    exec (.reservedEDBC r op) s = regGate s r (reservedAccess s 0xE000EDBC#32 op) := rfl

theorem exec_reservedEDC0 (r : RegAccess) (i : BitVec 3) (s : State) (op : RegOp) :
    exec (.reservedEDC0 r i op) s = regGate s r (reservedAccess s (0xE000EDC0#32 + 4#32 * i.zeroExtend 32) op) := by
  rw [← reservedEDC0_eq_add]; rfl

theorem exec_reservedEDE0 (r : RegAccess) (i : BitVec 2) (s : State) (op : RegOp) :
    exec (.reservedEDE0 r i op) s = regGate s r (reservedAccess s (0xE000EDE0#32 + 4#32 * i.zeroExtend 32) op) := by
  rw [← reservedEDE0_eq_add]; rfl

/-- Settles O30: the three rows are one operation at three addresses (`exec_reserved`). -/
theorem reservedAddressesFollowTheDecision : Obligations.ReservedAddressesFollowTheDecision := by
  intro s r i3 i2 op v
  refine ⟨?unprivileged, ?present, ?absent⟩
  case unprivileged =>
    intro hunpriv
    exact ⟨exec_of_regGate_unprivileged hunpriv (exec_reservedEDBC r s op),
      exec_of_regGate_unprivileged hunpriv (exec_reservedEDC0 r i3 s op),
      exec_of_regGate_unprivileged hunpriv (exec_reservedEDE0 r i2 s op)⟩
  case present =>
    intro hproper hmpu
    exact ⟨(exec_reserved (exec_reservedEDBC r s) hproper).1 hmpu op,
      (exec_reserved (exec_reservedEDC0 r i3 s) hproper).1 hmpu op,
      (exec_reserved (exec_reservedEDE0 r i2 s) hproper).1 hmpu op⟩
  case absent =>
    intro hproper hno
    obtain ⟨readBC, zeroBC, otherBC⟩ := (exec_reserved (exec_reservedEDBC r s) hproper).2 hno
    obtain ⟨readC0, zeroC0, otherC0⟩ := (exec_reserved (exec_reservedEDC0 r i3 s) hproper).2 hno
    obtain ⟨readE0, zeroE0, otherE0⟩ := (exec_reserved (exec_reservedEDE0 r i2 s) hproper).2 hno
    exact ⟨readBC, readC0, readE0, zeroBC, zeroC0, zeroE0, fun hv => ⟨otherBC v hv, otherC0 v hv, otherE0 v hv⟩⟩

/-- A word with VALID 1, or with a bit of ADDR or REGION set, is not zero. -/
theorem rbarWordOf_eq_zero {addr : BitVec 27} {b : Bool} {n : BitVec 4} (h : rbarWordOf addr b n = 0#32) :
    addr = 0#27 ∧ b = false ∧ n = 0#4 := by
  refine ⟨?_, ?_, ?_⟩
  · rw [← rbarAddrField_rbarWordOf addr b n, h]; rfl
  · rw [← rbarValidField_rbarWordOf addr b n, h]; rfl
  · rw [← rbarRegionField_rbarWordOf addr b n, h]; rfl

/-- Settles O31: past the checks each operation is its branch without an MPU; a word with VALID 1 is never zero. -/
theorem absentMpuRegistersReadAnythingAndIgnoreZero : Obligations.AbsentMpuRegistersReadAnythingAndIgnoreZero := by
  intro s r k v addr region hproper hno
  rw [exec_writeMpuCtrl, exec_readMpuRnr, exec_rbarRead, exec_rasrRead, exec_writeMpuRnr, exec_writeMpuRnr,
    exec_rbarWriteValid0, exec_rbarWriteValid0, exec_rbarWriteValid1, exec_rasrWrite, exec_rasrWrite]
  simp only [regGate_of_proper hproper, readRbarWindow, readRasrWindow, writeRbarValid0, writeRbarValid1,
    writeRasrWindow, ite_noMpu_of_absent hno]
  refine ⟨rfl, ⟨_, absentRead_eq s _⟩, ⟨_, absentRead_eq s _⟩, ⟨_, absentRead_eq s _⟩, absentWrite_zero s _,
    absentWrite_zero s _, absentWrite_zero s _, fun hv => ⟨absentWrite_of_ne hv s _, absentWrite_of_ne hv s _⟩,
    fun hset => absentWrite_of_ne ?_ s _, absentWrite_of_ne ?_ s _⟩
  · intro hzero
    obtain ⟨haddr, -, hregion⟩ := rbarWordOf_eq_zero hzero
    exact hset.elim (absurd haddr) (absurd hregion)
  · intro hzero
    obtain ⟨-, hvalid, -⟩ := rbarWordOf_eq_zero hzero
    exact absurd hvalid (by decide)

end Sys2Proof.Machine
end

section
/-! The operation of the MPU (`40_mpu_operation.md`, sections 4 and 5): the decision table of R148 with a row for every
verdict, what a region that loses changes, and what the bytes of one aligned block of 32 have in common. -/

namespace Sys2Proof.Machine

/-! ### The decision table -/

/-- The rows 4a to 4d of the decision table, each with the verdict it gives (R148). -/
inductive Row (s : State) (p : ProcInputs) (a : Word) (t : AccType) (w : Bool) : Verdict → Prop where
  | illegal (e : Refusal) (h : ¬ s.RegionsLegal) : Row s p a t w (.refuse e)
  | attributes (g : Region) (e : Refusal) (hl : s.RegionsLegal) (hw : s.Winner a g)
      (hm : texDecode s.cfg g.rasr.texcb g.rasr.s = .error e) : Row s p a t w (.refuse e)
  | reservedAp (g : Region) (hl : s.RegionsLegal) (hw : s.Winner a g) (hap : g.rasr.ap = 4#3) :
      Row s p a t w (.refuse .reservedAccessPermission)
  | allowed (g : Region) (m : MemAttrs) (hl : s.RegionsLegal) (hw : s.Winner a g)
      (hm : texDecode s.cfg g.rasr.texcb g.rasr.s = .ok m) (hr : RegionAllows g a (ispriv p t) t w) :
      Row s p a t w (.ok [{ physicaladdress := a, memattrs := m }])
  | forbidden (g : Region) (hl : s.RegionsLegal) (hw : s.Winner a g) (hap : g.rasr.ap ≠ 4#3)
      (hr : ¬ RegionAllows g a (ispriv p t) t w) : Row s p a t w (.violation a)
  | background (hl : s.RegionsLegal) (hu : s.Unmapped a) (hd : s.ctrl.privdefena = true) (hp : PrivilegedAccess p t)
      (hx : ¬ (t = .ifetch ∧ DefaultExecuteNever a)) :
      Row s p a t w (.ok [{ physicaladdress := a, memattrs := Config.defaultMemAttrs a }])
  | executeNever (hl : s.RegionsLegal) (hu : s.Unmapped a) (hx : t = .ifetch ∧ DefaultExecuteNever a) :
      Row s p a t w (.violation a)
  | noHit (hl : s.RegionsLegal) (hu : s.Unmapped a) (hn : ¬ (s.ctrl.privdefena = true ∧ PrivilegedAccess p t)) :
      Row s p a t w (.violation a)

theorem privdefena_and_ispriv {s : State} {p : ProcInputs} {t : AccType} :
    (s.ctrl.privdefena && ispriv p t) = true ↔ s.ctrl.privdefena = true ∧ PrivilegedAccess p t := by
  rw [Bool.and_eq_true, ispriv_iff]

/-- On the background a privileged access has the verdict of the default map. -/
theorem validateAddress_of_background {s : State} {p : ProcInputs} {a : Word} {t : AccType} (w : Bool)
    (ht : t ≠ .vectable) (ha : ¬ OnPPB a) (hon : s.MpuOn p) (hl : s.RegionsLegal) (hu : s.Unmapped a)
    (hd : s.ctrl.privdefena = true) (hp : PrivilegedAccess p t) : ByDefaultMap a t (validateAddress s p a t w) := by
  have hacq := acquire_of_unmapped (k := t) ht ha hon hl hu
  rw [privdefena_and_ispriv.mpr ⟨hd, hp⟩] at hacq
  exact validateAddress_of_default hacq

/-- No region and no background: no hit (R129). -/
theorem validateAddress_of_nothing {s : State} {p : ProcInputs} {a : Word} {t : AccType} (w : Bool)
    (ht : t ≠ .vectable) (ha : ¬ OnPPB a) (hon : s.MpuOn p) (hl : s.RegionsLegal) (hu : s.Unmapped a)
    (hn : ¬ (s.ctrl.privdefena = true ∧ PrivilegedAccess p t)) : validateAddress s p a t w = .violation a := by
  have hacq := acquire_of_unmapped (k := t) ht ha hon hl hu
  rw [Bool.eq_false_of_not_eq_true (mt privdefena_and_ispriv.mp hn)] at hacq
  exact validateAddress_of_no_hit w hacq

/-- The verdict where the regions answer is that of one of the rows. -/
theorem validateAddress_row {s : State} {p : ProcInputs} {a : Word} {t : AccType} (w : Bool) (hon : s.MpuOn p)
    (ht : t ≠ .vectable) (ha : ¬ OnPPB a) : Row s p a t w (validateAddress s p a t w) := by
  by_cases hl : s.RegionsLegal
  case neg =>
    obtain ⟨e, hacq⟩ := acquire_of_illegal ht ha hon hl
    rw [validateAddress_of_error w hacq]
    exact .illegal e hl
  rcases winner_or_unmapped s a with ⟨g, hw⟩ | hu
  case inl =>
    have hacq := acquire_of_winner ht ha hon hl hw
    cases hm : texDecode s.cfg g.rasr.texcb g.rasr.s with
    | error e =>
      rw [validateAddress_of_bad_attributes w hacq hm]
      exact .attributes g e hl hw hm
    | ok m =>
      obtain ⟨hreserved, hallowed, hforbidden⟩ := validateAddress_of_region (w := w) hacq hm
      by_cases hap : g.rasr.ap = 4#3
      · rw [hreserved hap]; exact .reservedAp g hl hw hap
      by_cases hr : RegionAllows g a (ispriv p t) t w
      · rw [hallowed hap hr]; exact .allowed g m hl hw hm hr
      · rw [hforbidden hap hr]; exact .forbidden g hl hw hap hr
  case inr =>
    by_cases hb : s.ctrl.privdefena = true ∧ PrivilegedAccess p t
    case neg =>
      rw [validateAddress_of_nothing w ht ha hon hl hu hb]
      exact .noHit hl hu hb
    obtain ⟨hd, hp⟩ := hb
    obtain ⟨hfails, hpasses⟩ := validateAddress_of_background w ht ha hon hl hu hd hp
    by_cases hx : t = .ifetch ∧ DefaultExecuteNever a
    · rw [hfails hx]; exact .executeNever hl hu hx
    · rw [hpasses hx]; exact .background hl hu hd hp hx

/-- Settles O36: the loop comes to the winner's walk, to the background's, or to no hit, and each decides as its row
says. -/
theorem regionLoopMeetsTheDecisionTable : Obligations.RegionLoopMeetsTheDecisionTable := by
  intro s p a t w hon ht ha
  constructor
  case left =>
    intro hillegal
    obtain ⟨e, hacq⟩ := acquire_of_illegal ht ha hon hillegal
    exact ⟨e, validateAddress_of_error w hacq⟩
  case right =>
    intro hl
    refine ⟨fun g e hw hm => ?_, fun g m hw hm => ?_, fun hu hd hp => ?_, fun hu hn => ?_⟩
    · exact validateAddress_of_bad_attributes w (acquire_of_winner ht ha hon hl hw) hm
    · exact validateAddress_of_region (acquire_of_winner ht ha hon hl hw) hm
    · exact validateAddress_of_background w ht ha hon hl hu hd hp
    · exact validateAddress_of_nothing w ht ha hon hl hu hn

/-- Settles O37: each verdict is read back from its row (`validateAddress_row`). -/
theorem everyVerdictHasItsRow : Obligations.EveryVerdictHasItsRow := by
  intro s p a t w hon ht ha
  have hrow := validateAddress_row w hon ht ha
  refine ⟨fun ds h => ?ok, fun b h => ?violation, fun e h => ?refuse⟩
  all_goals rw [h] at hrow
  case ok =>
    cases hrow with
    | allowed g m hl hw hm hr => exact ⟨hl, .inl ⟨g, m, hw, hm, hr, rfl⟩⟩
    | background hl hu hd hp hx => exact ⟨hl, .inr ⟨hu, hd, hp, hx, rfl⟩⟩
  case violation =>
    cases hrow with
    | forbidden g hl hw hap hr => exact ⟨rfl, hl, .inl ⟨g, hw, hap, hr⟩⟩
    | executeNever hl hu hx => exact ⟨rfl, hl, .inr ⟨hu, .inr hx⟩⟩
    | noHit hl hu hn => exact ⟨rfl, hl, .inr ⟨hu, .inl hn⟩⟩
  case refuse =>
    cases hrow with
    | illegal e hl => exact .inl hl
    | attributes g e hl hw hm => exact .inr ⟨g, hw, .inr hm⟩
    | reservedAp g hl hw hap => exact .inr ⟨g, hw, .inl hap⟩

/-- Settles O39: with every region disabled none is illegal and none contains the address, so the background alone
answers, and it is for privileged accesses. -/
theorem onlyPrivilegedCodeExecutesFromTheBackground : Obligations.OnlyPrivilegedCodeExecutesFromTheBackground := by
  intro s p a hdisabled hd hon ha
  have hl : s.RegionsLegal := fun g hg ⟨henable, _⟩ => by simp [hdisabled g hg] at henable
  have hu : s.Unmapped a := fun g hg ⟨henable, _⟩ => by simp [hdisabled g hg] at henable
  constructor
  · intro hpriv
    exact validateAddress_of_background false (by decide) ha hon hl hu hd ⟨hpriv, by decide⟩
  · intro huser
    exact validateAddress_of_nothing false (by decide) ha hon hl hu fun ⟨_, hpriv, _⟩ => by simp [huser] at hpriv

/-! ### Regions that lose -/

/-- Past a legal region that contains the address, what the loop held before it makes no difference. -/
theorem regionLoop_congr_walk {gs : List Region} {a : Word} {r : Nat} {g : Region} (hr : gs[r]? = some g)
    (hc : Contains g a) (hl : ¬ IllegalRegion g) (w w' : Walk) : regionLoop gs a w = regionLoop gs a w' := by
  induction gs generalizing r w w' with
  | nil => simp at hr
  | cons x rest ih =>
    cases hx : x.illegal with
    | some e => simp [regionLoop, hx]
    | none =>
      rw [regionLoop_cons _ _ _ _ hx, regionLoop_cons _ _ _ _ hx]
      cases r with
      | zero =>
        obtain rfl : x = g := by simpa using hr
        rw [if_pos ((Region.covers_iff hl a).mpr hc), if_pos ((Region.covers_iff hl a).mpr hc)]
      | succ r => exact ih (by simpa using hr) _ _

/-- Replacing a legal region by a legal one below a legal region that contains the address. -/
theorem regionLoop_set {gs : List Region} {a : Word} {q r : Nat} {old new g : Region} (hqr : q < r)
    (hq : gs[q]? = some old) (hr : gs[r]? = some g) (hc : Contains g a) (hold : ¬ IllegalRegion old)
    (hnew : ¬ IllegalRegion new) (hl : ¬ IllegalRegion g) (w : Walk) :
    regionLoop (gs.set q new) a w = regionLoop gs a w := by
  induction gs generalizing q r w with
  | nil => simp at hq
  | cons x rest ih =>
    obtain ⟨r, rfl⟩ : ∃ r', r = r' + 1 := ⟨r - 1, by omega⟩
    cases q with
    | zero =>
      obtain rfl : x = old := by simpa using hq
      rw [List.set_cons_zero, regionLoop_cons _ _ _ _ (new.illegal_eq_none.mpr hnew),
        regionLoop_cons _ _ _ _ (x.illegal_eq_none.mpr hold)]
      exact regionLoop_congr_walk (by simpa using hr) hc hl _ _
    | succ q =>
      rw [List.set_cons_succ]
      cases hx : x.illegal with
      | some e => simp [regionLoop, hx]
      | none =>
        rw [regionLoop_cons _ _ _ _ hx, regionLoop_cons _ _ _ _ hx]
        exact ih (Nat.lt_of_succ_lt_succ hqr) (by simpa using hq) (by simpa using hr) _

/-- Settles O38: the regions reach the verdict through the loop alone, and there the replaced region loses
(`regionLoop_set`). -/
theorem lowerRegionsMakeNoDifference : Obligations.LowerRegionsMakeNoDifference := by
  intro s p a t w q r old new g hqr hq hr hc hold hnew hl
  have hacq : acquire { s with regions := s.regions.set q new } p a t = acquire s p a t := by
    simp only [acquire, regionLoop_set hqr hq hr hc hold hnew hl]
  simp only [validateAddress, hacq]

/-! ### One aligned block of 32 bytes -/

/-- The bits from 5 up are the same at every address of the block. -/
theorem div_two_pow_of_block {x y k : Nat} (h : x / 32 = y / 32) (hk : 5 ≤ k) : x / 2 ^ k = y / 2 ^ k := by
  obtain ⟨j, rfl⟩ := Nat.exists_eq_add_of_le hk
  rw [Nat.pow_add, ← Nat.div_div_eq_div_mul, ← Nat.div_div_eq_div_mul, show 2 ^ 5 = 32 from rfl, h]

section Block

variable {a b : Word} (hblock : a.toNat / 32 = b.toNat / 32)
include hblock

theorem extractLsb'_of_block {k : Nat} (hk : 5 ≤ k) (n : Nat) : a.extractLsb' k n = b.extractLsb' k n := by
  apply BitVec.eq_of_toNat_eq
  rw [BitVec.extractLsb'_toNat, BitVec.extractLsb'_toNat, Nat.shiftRight_eq_div_pow, Nat.shiftRight_eq_div_pow,
    div_two_pow_of_block hblock hk]

theorem ushiftRight_of_block {k : Nat} (hk : 5 ≤ k) : a >>> k = b >>> k := by
  apply BitVec.eq_of_toNat_eq
  rw [BitVec.toNat_ushiftRight, BitVec.toNat_ushiftRight, Nat.shiftRight_eq_div_pow, Nat.shiftRight_eq_div_pow,
    div_two_pow_of_block hblock hk]

theorem isPPB_of_block : isPPB a = isPPB b := by
  rw [isPPB, isPPB, extractLsb'_of_block hblock (by decide)]

theorem defaultPermissions_of_block : defaultPermissions a = defaultPermissions b := by
  rw [defaultPermissions, defaultPermissions, extractLsb'_of_block hblock (by decide)]

theorem systemSpaceXN_of_block (perms : Perms) : systemSpaceXN perms a = systemSpaceXN perms b := by
  rw [systemSpaceXN, systemSpaceXN, isSystemSpace, isSystemSpace, extractLsb'_of_block hblock (by decide)]

/-- A legal region is of 32 bytes or more, and one with subregions of 256 or more, so no boundary cuts the block. -/
theorem covers_of_block {g : Region} (hl : ¬ IllegalRegion g) : g.covers a = g.covers b := by
  cases henable : g.rasr.enable with
  | false => simp [Region.covers, henable]
  | true =>
    have hsize : 4 ≤ g.rasr.size.toNat := by
      by_contra hlt
      exact hl ⟨henable, .inl (by omega)⟩
    have hmatch : g.addressMatches a = g.addressMatches b := by
      rw [Region.addressMatches, Region.addressMatches, Rasr.lsbit_eq, ushiftRight_of_block hblock (by omega)]
    have hsub : g.subregionEnabled a = g.subregionEnabled b := by
      by_cases h7 : 7 ≤ g.rasr.size.toNat
      · rw [Region.subregionEnabled, Region.subregionEnabled, Region.subregion, Region.subregion, Rasr.lsbit_eq,
          extractLsb'_of_block hblock (by omega)]
      · have hzero : g.rasr.srd = 0#8 := by
          by_contra hne
          exact hl ⟨henable, .inr ⟨by omega, hne⟩⟩
        simp [Region.subregionEnabled, hzero]
    rw [Region.covers, Region.covers, hmatch, hsub]

theorem regionLoop_of_block (gs : List Region) (w : Walk) : regionLoop gs a w = regionLoop gs b w := by
  induction gs generalizing w with
  | nil => rfl
  | cons g rest ih =>
    cases hg : g.illegal with
    | some e => simp [regionLoop, hg]
    | none =>
      rw [regionLoop_cons _ _ _ _ hg, regionLoop_cons _ _ _ _ hg,
        covers_of_block hblock ((Region.illegal_eq_none g).mp hg), ih]

theorem acquire_of_block (s : State) (p : ProcInputs) (t : AccType) : acquire s p a t = acquire s p b t := by
  simp only [acquire, isPPB_of_block hblock, defaultPermissions_of_block hblock, regionLoop_of_block hblock]

end Block

/-- Two verdicts, at `a` and at `b`, that differ in the address and in attributes at most. -/
inductive SameOutcome (a b : Word) : Verdict → Verdict → Prop where
  | ok (ds ds' : List AddressDescriptor) : SameOutcome a b (.ok ds) (.ok ds')
  | violation : SameOutcome a b (.violation a) (.violation b)
  | refuse (e : Refusal) : SameOutcome a b (.refuse e) (.refuse e)

/-- The attributes of both addresses are refused for the same reason or not at all: the default map's never are, and a
region's do not depend on the address. -/
theorem attributesOf_cases (c : Config) (a b : Word) (src : AttrSource) :
    (∃ m m', attributesOf c a src = .ok m ∧ attributesOf c b src = .ok m') ∨
      ∃ e, attributesOf c a src = .error e ∧ attributesOf c b src = .error e := by
  cases src with
  | defaultMap => exact .inl ⟨_, _, rfl, rfl⟩
  | region texcb s =>
    cases h : texDecode c texcb s with
    | ok m => exact .inl ⟨m, m, h, h⟩
    | error e => exact .inr ⟨e, h, h⟩

theorem validateAddress_of_block {a b : Word} (hblock : a.toNat / 32 = b.toNat / 32) (s : State) (p : ProcInputs)
    (t : AccType) (w : Bool) : SameOutcome a b (validateAddress s p a t w) (validateAddress s p b t w) := by
  unfold validateAddress
  rw [acquire_of_block hblock]
  cases acquire s p b t with
  | error e => exact .refuse e
  | ok walk =>
    cases hhit : walk.hit with
    | false => simpa [hhit] using SameOutcome.violation
    | true =>
      rcases attributesOf_cases s.cfg a b walk.attr with ⟨m, m', ha, hb⟩ | ⟨e, ha, hb⟩
      · simp only [hhit, ha, hb, systemSpaceXN_of_block hblock, if_true]
        cases checkPermission (systemSpaceXN walk.perms b) (ispriv p t) t w with
        | none => exact .refuse _
        | some allowed =>
          cases allowed with
          | true => exact .ok _ _
          | false => exact .violation
      · simpa [hhit, ha, hb] using SameOutcome.refuse e

/-- Settles O46: each boundary the call looks at is a multiple of 32 (`validateAddress_of_block`). -/
theorem oneVerdictInAnAlignedBlock : Obligations.OneVerdictInAnAlignedBlock := by
  intro s p a b t w hblock
  have hsame := validateAddress_of_block hblock s p t w
  generalize validateAddress s p a t w = va at hsame
  generalize validateAddress s p b t w = vb at hsame
  cases hsame with
  | ok | violation | refuse => simp

/-! ### The encodings without a memory type -/

/-- The reserved encodings of Table B3-13: 00101, and 01001 to 01111. -/
theorem texDecode_reserved {x : BitVec 5} (hx : x = 0b00101#5 ∨ (0b01001#5 ≤ x ∧ x ≤ 0b01111#5)) (c : Config)
    (s : Bool) : texDecode c x s = .error .reservedMemoryType := by
  have hlist : x = 5#5 ∨ x = 9#5 ∨ x = 10#5 ∨ x = 11#5 ∨ x = 12#5 ∨ x = 13#5 ∨ x = 14#5 ∨ x = 15#5 := by
    revert x; decide
  rcases hlist with rfl | rfl | rfl | rfl | rfl | rfl | rfl | rfl
  all_goals rfl

theorem texDecode_impdef_of_refuse {c : Config} (h : c.impdefAttr = .refuse) (s : Bool) :
    texDecode c 0b00110#5 s = .error .implementationDefinedMemoryType := by
  simp [texDecode, h]

theorem texDecode_impdef_of_attrs {c : Config} {m0 m1 : MemAttrs} (h : c.impdefAttr = .attrs m0 m1) (s : Bool) :
    texDecode c 0b00110#5 s = .ok (if s then m1 else m0) := by
  simp [texDecode, h]

/-- Settles O44: the ranges of reserved encodings are those of `texDecode_reserved`. -/
theorem reservedTexRowsAreRefused : Obligations.ReservedTexRowsAreRefused := by
  intro c s
  refine ⟨texDecode_reserved (.inl rfl) c s, texDecode_reserved (by decide) c s,
    fun b => texDecode_reserved ?_ c s, fun cb => texDecode_reserved ?_ c s,
    fun h => texDecode_impdef_of_refuse h s, fun m0 m1 h => texDecode_impdef_of_attrs h s⟩
  · revert b; decide
  · revert cb; decide

end Sys2Proof.Machine
end

section
/-! The transaction ValidateAddress, of any number of bytes (`20_memory.md` section 3, `40_mpu_operation.md` section 5,
`60_exceptions.md`): one check or one for every byte, and what each verdict makes of the state. -/

namespace Sys2Proof.Machine

/-! ### The checks of one access -/

theorem byteAddr_zero (a : Word) : byteAddr a 0 = a := BitVec.add_zero a

theorem bytesWith_pos (more : Word) : 0 < bytesWith more := Nat.succ_pos _

/-- An access checked byte by byte passes when every byte does, with one descriptor a byte. -/
theorem validateAccess_of_bytes_ok {s : State} {p : ProcInputs} {a : Word} {n : Nat} {t : AccType} {w : Bool}
    (hn : ¬ NaturallyAligned a n) (h : ∀ k, k < n → ∃ ds, validateAddress s p (byteAddr a k) t w = .ok ds) :
    ∃ ds, validateAccess s p a n t w = .ok ds ∧ ds.map (·.physicaladdress) = (List.range n).map (byteAddr a) := by
  have hspan : ∀ x ∈ spanOf a n, ∃ ds, validateAddress s p x t w = .ok ds := by
    intro x hx
    obtain ⟨k, hk, rfl⟩ := List.mem_map.mp hx
    exact h k (List.mem_range.mp hk)
  obtain ⟨ds, hds, -, -⟩ := validateEach_of_all_ok hspan
  exact ⟨ds, by rw [validateAccess_of_unaligned hn, hds], validateEach_ok_addresses hds⟩

/-- It ends at the first byte that does not pass. -/
theorem validateAccess_of_first_failing {s : State} {p : ProcInputs} {a : Word} {n k : Nat} {t : AccType} {w : Bool}
    (hn : ¬ NaturallyAligned a n) (hk : k < n)
    (hbefore : ∀ j, j < k → ∃ ds, validateAddress s p (byteAddr a j) t w = .ok ds)
    (hfails : ∀ ds, validateAddress s p (byteAddr a k) t w ≠ .ok ds) :
    validateAccess s p a n t w = validateAddress s p (byteAddr a k) t w := by
  rw [validateAccess_of_unaligned hn, validateEach_span_of_first hk hbefore hfails]

/-- At every alignment, an access whose bytes all pass passes. -/
theorem validateAccess_of_all_ok {s : State} {p : ProcInputs} {a : Word} {n : Nat} {t : AccType} {w : Bool} (hn : 0 < n)
    (h : ∀ k, k < n → ∃ ds, validateAddress s p (byteAddr a k) t w = .ok ds) :
    ∃ ds, validateAccess s p a n t w = .ok ds := by
  by_cases ha : NaturallyAligned a n
  · rw [validateAccess_of_aligned ha, ← byteAddr_zero a]
    exact h 0 hn
  · obtain ⟨ds, hds, -⟩ := validateAccess_of_bytes_ok ha h
    exact ⟨ds, hds⟩

/-- Settles O47: the aligned access is the first branch of `validateAccess`, and any other is `validateEach` over its
bytes. -/
theorem oneCheckWhenAlignedElseEveryByte : Obligations.OneCheckWhenAlignedElseEveryByte := by
  intro s p a n t w
  refine ⟨validateAccess_of_aligned, ?size, fun hn => ⟨validateAccess_of_bytes_ok hn, fun k hk hbefore => ⟨?_, ?_⟩⟩⟩
  case size =>
    rintro size rfl hmod
    exact validateAccess_of_aligned (naturallyAligned_bytesOf.mpr hmod)
  · intro hv
    rw [validateAccess_of_first_failing hn hk hbefore (by simp [hv]), hv]
  · intro e hv
    rw [validateAccess_of_first_failing hn hk hbefore (by simp [hv]), hv]

/-! ### What a verdict makes of the transaction -/

section Check

variable {s : State} {p : ProcInputs} {a more : Word} {t : AccType} {w : Bool}

theorem exec_check_of_ok {ds : List AddressDescriptor} (h : validateAccess s p a (bytesWith more) t w = .ok ds) :
    exec (.validateAddress p ⟨a, more⟩ t w) s = .next { s with reply := .ok ds none } := by
  rw [exec_validateAddress, h, settle_ok, State.answer]

theorem exec_check_of_violation {b : Word} (h : validateAccess s p a (bytesWith more) t w = .violation b) :
    exec (.validateAddress p ⟨a, more⟩ t w) s = .next (s.afterViolation p t b) := by
  rw [exec_validateAddress, h, settle_violation, takeMemManage_afterViolation]

theorem exec_check_of_refuse {e : Refusal} (h : validateAccess s p a (bytesWith more) t w = .refuse e) :
    exec (.validateAddress p ⟨a, more⟩ t w) s = .refused e := by
  rw [exec_validateAddress, h, settle_refuse]

/-- A first byte that fails ends the access, whatever the number of bytes and the alignment. -/
theorem exec_check_of_first_violation (h : validateAddress s p a t w = .violation a) :
    exec (.validateAddress p ⟨a, more⟩ t w) s = .next (s.afterViolation p t a) :=
  exec_check_of_violation (by rw [validateAccess_of_first_byte (bytesWith_pos more) (by simp [h]), h])

theorem exec_check_of_first_refuse {e : Refusal} (h : validateAddress s p a t w = .refuse e) :
    exec (.validateAddress p ⟨a, more⟩ t w) s = .refused e :=
  exec_check_of_refuse (by rw [validateAccess_of_first_byte (bytesWith_pos more) (by simp [h]), h])

/-- The default map answers vector reads, the PPB, and every access the MPU is off for. -/
theorem validateAddress_byDefaultMap (w : Bool) (h : t = .vectable ∨ OnPPB a ∨ s.MpuOff p) :
    ByDefaultMap a t (validateAddress s p a t w) := by
  rcases h with h | h | h
  · exact vectorReadsAndPpbUseTheDefaultMap s p a t w (.inl h)
  · exact vectorReadsAndPpbUseTheDefaultMap s p a t w (.inr h)
  · exact validateAddress_of_off a t w h

/-- It answers a privileged access that no region contains too, on the PPB or off it, when PRIVDEFENA is set. -/
theorem validateAddress_byBackground (w : Bool) (hon : s.MpuOn p) (hl : s.RegionsLegal) (hu : s.Unmapped a)
    (hd : s.ctrl.privdefena = true) (hp : PrivilegedAccess p t) : ByDefaultMap a t (validateAddress s p a t w) := by
  by_cases hmap : t = .vectable ∨ OnPPB a
  · exact vectorReadsAndPpbUseTheDefaultMap s p a t w hmap
  · obtain ⟨ht, ha⟩ := not_or.mp hmap
    exact validateAddress_of_background w ht ha hon hl hu hd hp

end Check

/-- Settles O48: a naturally aligned access is one call, and in each of the cases that call passes. -/
theorem allowedCheckOnlyAnswers : Obligations.AllowedCheckOnlyAnswers := by
  intro s p a t w more haligned
  have hok {m : MemAttrs} (hv : validateAddress s p a t w = .ok [{ physicaladdress := a, memattrs := m }]) :=
    exec_check_of_ok ((validateAccess_of_aligned haligned).trans hv)
  refine ⟨fun hmap hx => ?_, fun hon hl hu hd hp hx => ?_, fun g m hon ht ha hl hw hm hap hr => ?_⟩
  · exact hok ((validateAddress_byDefaultMap w hmap).2 hx)
  · exact hok ((validateAddress_byBackground w hon hl hu hd hp).2 hx)
  · obtain ⟨-, hallowed, -⟩ := validateAddress_of_region (w := w) (acquire_of_winner ht ha hon hl hw) hm
    exact hok (hallowed hap hr)

/-- Settles O34: arm 2 refuses the first byte, so it refuses the access. -/
theorem unpredictableControlIsRefused : Obligations.UnpredictableControlIsRefused := by
  intro s p a t w more henable hhfnmiena ht ha
  exact exec_check_of_first_refuse (validateAddress_of_error w (acquire_of_unpredictable ht ha henable hhfnmiena))

/-- Settles O59: the verdict of an access checked byte by byte (O47), settled. -/
theorem checkOfManyBytesAnswersForEveryByte : Obligations.CheckOfManyBytesAnswersForEveryByte := by
  intro s p a t w more hn
  constructor
  case left =>
    intro hall
    obtain ⟨ds, hds, haddresses⟩ := validateAccess_of_bytes_ok hn hall
    exact ⟨ds, exec_check_of_ok hds, haddresses⟩
  case right =>
    intro k hk hbefore
    constructor
    · intro hv
      exact exec_check_of_violation (by rw [validateAccess_of_first_failing hn hk hbefore (by simp [hv]), hv])
    · intro e hv
      exact exec_check_of_refuse (by rw [validateAccess_of_first_failing hn hk hbefore (by simp [hv]), hv])

/-! ### The syndrome -/

/-- At priority 0 or above a failed fetch changes IACCVIOL, MMARVALID and the answer only. -/
theorem State.afterViolation_of_fetch {p : ProcInputs} (hprio : p.prioBelowZero = false) (s : State) (b : Word) :
    s.afterViolation p .ifetch b =
      { s with mmfsr := { s.mmfsr with iaccviol := true, mmarvalid := false }, reply := .memManage } := by
  simp [State.afterViolation, hprio]

/-- Any other failed access changes DACCVIOL, MMARVALID, MMAR and the answer only. -/
theorem State.afterViolation_of_data {p : ProcInputs} (hprio : p.prioBelowZero = false) (s : State) {k : AccType}
    (hk : k ≠ .ifetch) (b : Word) :
    s.afterViolation p k b =
      { s with mmfsr := { s.mmfsr with daccviol := true, mmarvalid := true }, mmar := b, reply := .memManage } := by
  simp [State.afterViolation, hprio, hk]

/-- The syndrome is the same at every priority. -/
theorem State.afterViolation_syndrome_of_fetch (s : State) (p : ProcInputs) (b : Word) :
    (s.afterViolation p .ifetch b).mmfsr = { s.mmfsr with iaccviol := true, mmarvalid := false } ∧
      (s.afterViolation p .ifetch b).mmar = s.mmar := ⟨rfl, rfl⟩

theorem State.afterViolation_syndrome_of_data (s : State) (p : ProcInputs) {k : AccType} (hk : k ≠ .ifetch) (b : Word) :
    (s.afterViolation p k b).mmfsr = { s.mmfsr with daccviol := true, mmarvalid := true } ∧
      (s.afterViolation p k b).mmar = b := by
  simp [State.afterViolation, hk]

/-- Settles O49: no hit at the first byte of the fetch, the background being for privileged software. -/
theorem noHitFetchSyndrome : Obligations.NoHitFetchSyndrome := by
  intro s p a w more hon ha hl hu hn
  have hv := validateAddress_of_nothing (t := .ifetch) w (by decide) ha hon hl hu
    fun ⟨hd, hpriv, _⟩ => hn ⟨hd, hpriv⟩
  obtain ⟨hmmfsr, hmmar⟩ := s.afterViolation_syndrome_of_fetch p a
  exact ⟨_, exec_check_of_first_violation hv, hmmfsr, hmmar, fun hprio => s.afterViolation_of_fetch hprio a⟩

/-- Settles O50: no hit at the first byte of the access. -/
theorem noHitDataSyndrome : Obligations.NoHitDataSyndrome := by
  intro s p a k w more hfetch hvector hon ha hl hu hn
  have hv := validateAddress_of_nothing w hvector ha hon hl hu hn
  obtain ⟨hmmfsr, hmmar⟩ := s.afterViolation_syndrome_of_data p hfetch a
  refine ⟨_, exec_check_of_first_violation hv, hmmfsr, hmmar, fun hprio => ?_⟩
  rw [hmmfsr]
  exact s.afterViolation_of_data hprio hfetch a

/-- Settles O51: every failing verdict leaves `State.afterViolation`, and the cases named fail at the first byte: the
winning region's permissions, or an execute-never range wherever the default map answers. -/
theorem permissionFailureSyndrome : Obligations.PermissionFailureSyndrome := by
  intro s p a k w more hprio
  refine ⟨fun b hv => ⟨?fetch, ?data⟩, exec_check_of_first_violation, ?region, ?executeNever⟩
  case fetch =>
    rintro rfl
    rw [exec_check_of_violation hv, s.afterViolation_of_fetch hprio]
  case data =>
    intro hk
    rw [exec_check_of_violation hv, s.afterViolation_of_data hprio hk]
  case region =>
    intro g m hon hk ha hl hw hm hap hr
    obtain ⟨-, -, hforbidden⟩ := validateAddress_of_region (w := w) (acquire_of_winner hk ha hon hl hw) hm
    exact exec_check_of_first_violation (hforbidden hap hr)
  case executeNever =>
    rintro rfl hx hmap
    have hdefault : ByDefaultMap a .ifetch (validateAddress s p a .ifetch w) := by
      rcases hmap with hppb | hoff | ⟨hon, hl, hu, hd, hpriv⟩
      · exact validateAddress_byDefaultMap w (.inr (.inl hppb))
      · exact validateAddress_byDefaultMap w (.inr (.inr hoff))
      · exact validateAddress_byBackground w hon hl hu hd ⟨hpriv, by decide⟩
    exact exec_check_of_first_violation (hdefault.1 ⟨rfl, hx⟩)

/-- Settles O52: below priority 0 the state after a violation is locked up, and no step leaves lockup. -/
theorem failureBelowPriorityZeroLocksUp : Obligations.FailureBelowPriorityZeroLocksUp := by
  intro s p a k w more b hprio hv
  refine ⟨_, exec_check_of_violation hv, ?answer, step_of_lockedUp ?locked, ?fetch, s.afterViolation_syndrome_of_data p
    (b := b), rfl, rfl, rfl, rfl⟩
  case answer => simp [State.afterViolation, hprio]
  case locked => simp [State.afterViolation, hprio]
  case fetch =>
    rintro rfl
    exact s.afterViolation_syndrome_of_fetch p b

end Sys2Proof.Machine
end

section
/-! The unprivileged loads and stores (`43_unprivileged_loadstore.md`): what each completes with once its checks pass,
when they do, and what it is when it touches the register block or a check fails. -/

namespace Sys2Proof.Machine

/-! ### The eight instructions -/

theorem bytesOf_pos (size : AccSize) : 0 < bytesOf size := by cases size <;> decide

/-- Each of the eight raises BusFault on the register block, and else is what its checks with AccType_UNPRIV come to. -/
theorem exec_unpriv {i : Instr} {p : ProcInputs} {a : Word} {size : AccSize} {w : Bool}
    (hi : unprivAccessOf i = some (p, a, size, w)) (s : State) :
    ∃ done, exec i s =
      if touchesRegisterBlock a (bytesOf size) then .next (takeBusFault s)
      else settle s p .unpriv (validateAccess s p a (bytesOf size) .unpriv w) done := by
  cases i with
  | ldrbt | ldrht | ldrsbt | ldrsht | ldrt | strbt | strht | strt => cases hi; exact ⟨_, rfl⟩
  | _ => nomatch hi

theorem exec_unpriv_of_block {i : Instr} {p : ProcInputs} {a : Word} {size : AccSize} {w : Bool}
    (hi : unprivAccessOf i = some (p, a, size, w)) (hblock : TouchesBlock a (bytesOf size)) (s : State) :
    exec i s = .next { s with reply := .busFault } := by
  obtain ⟨done, hexec⟩ := exec_unpriv hi s
  rw [hexec, if_pos (touchesRegisterBlock_iff.mpr hblock), takeBusFault_eq]

theorem exec_unpriv_of_violation {i : Instr} {s : State} {p : ProcInputs} {a b : Word} {size : AccSize} {w : Bool}
    (hi : unprivAccessOf i = some (p, a, size, w)) (hblock : ¬ TouchesBlock a (bytesOf size))
    (hv : validateAccess s p a (bytesOf size) .unpriv w = .violation b) :
    exec i s = .next (s.afterViolation p .unpriv b) := by
  obtain ⟨done, hexec⟩ := exec_unpriv hi s
  rw [hexec, if_neg (mt touchesRegisterBlock_iff.mp hblock), hv, settle_violation, takeMemManage_afterViolation]

/-- What the mnemonic makes of the bytes a load reads off the PPB (log 28). -/
theorem exec_load {i : Instr} {p : ProcInputs} {a : Word} {size : AccSize}
    (hi : unprivAccessOf i = some (p, a, size, false)) (s : State) :
    ∃ sgn, exec i s = unprivLoad s p a size sgn ∧
      (¬ TouchesPPB a (bytesOf size) → extendLoad size sgn (loadValue s a (bytesOf size)) = s.loaded i) := by
  cases i with
  | ldrbt => cases hi; exact ⟨false, rfl, fun h => congrArg (BitVec.zeroExtend 32) (loadValue_one h)⟩
  | ldrht => cases hi; exact ⟨false, rfl, fun h => congrArg (BitVec.zeroExtend 32) (loadValue_two h)⟩
  | ldrsbt => cases hi; exact ⟨true, rfl, fun h => congrArg (BitVec.signExtend 32) (loadValue_one h)⟩
  | ldrsht => cases hi; exact ⟨true, rfl, fun h => congrArg (BitVec.signExtend 32) (loadValue_two h)⟩
  | ldrt => cases hi; exact ⟨false, rfl, loadValue_four⟩
  | strbt | strht | strt => simp [unprivAccessOf] at hi
  | _ => nomatch hi

theorem exec_store {i : Instr} {p : ProcInputs} {a : Word} {size : AccSize}
    (hi : unprivAccessOf i = some (p, a, size, true)) (s : State) :
    exec i s = unprivStore s p a size (storedValue i) := by
  cases i with
  | strbt | strht | strt => cases hi; rfl
  | ldrbt | ldrht | ldrsbt | ldrsht | ldrt => simp [unprivAccessOf] at hi
  | _ => nomatch hi

/-- A load whose checks pass changes nothing but the answer, and off the PPB gives what memory holds. -/
theorem exec_load_of_ok {i : Instr} {s : State} {p : ProcInputs} {a : Word} {size : AccSize}
    {ds : List AddressDescriptor} (hi : unprivAccessOf i = some (p, a, size, false))
    (hblock : ¬ TouchesBlock a (bytesOf size)) (hv : validateAccess s p a (bytesOf size) .unpriv false = .ok ds) :
    ∃ (v : Word) (d : Nat), exec i s = .next { s with draws := d, reply := .ok ds (some v) } ∧
      (¬ TouchesPPB a (bytesOf size) → v = s.loaded i ∧ d = s.draws) := by
  obtain ⟨sgn, hexec, hloaded⟩ := exec_load hi s
  simp only [hexec, unprivLoad, if_neg (mt touchesRegisterBlock_iff.mp hblock), hv, settle_ok]
  by_cases hppb : TouchesPPB a (bytesOf size)
  · rw [if_pos (touchesPPB_iff.mpr hppb)]
    exact ⟨_, _, rfl, fun hoff => absurd hppb hoff⟩
  · rw [if_neg (mt touchesPPB_iff.mp hppb)]
    exact ⟨_, _, rfl, fun _ => ⟨hloaded hppb, rfl⟩⟩

/-- A load off the PPB, in one equation. -/
theorem exec_load_off_ppb {i : Instr} {s : State} {p : ProcInputs} {a : Word} {size : AccSize}
    {ds : List AddressDescriptor} (hi : unprivAccessOf i = some (p, a, size, false))
    (hblock : ¬ TouchesBlock a (bytesOf size)) (hppb : ¬ TouchesPPB a (bytesOf size))
    (hv : validateAccess s p a (bytesOf size) .unpriv false = .ok ds) :
    exec i s = .next { s with reply := .ok ds (some (s.loaded i)) } := by
  obtain ⟨v, d, hexec, hvalue⟩ := exec_load_of_ok hi hblock hv
  obtain ⟨rfl, rfl⟩ := hvalue hppb
  exact hexec

/-- A store whose checks pass changes its own bytes of memory and the answer. -/
theorem exec_store_of_ok {i : Instr} {s : State} {p : ProcInputs} {a : Word} {size : AccSize}
    {ds : List AddressDescriptor} (hi : unprivAccessOf i = some (p, a, size, true)) (hmem : s.mem.wf)
    (hblock : ¬ TouchesBlock a (bytesOf size)) (hv : validateAccess s p a (bytesOf size) .unpriv true = .ok ds) :
    ∃ m, exec i s = .next { s with mem := m, reply := .ok ds none } ∧ s.StoredAs a (bytesOf size) (storedValue i) m := by
  refine ⟨storeValue s a (bytesOf size) (storedValue i), ?_,
    storeValue_storedAs hmem a (by cases size <;> decide) (storedValue i)⟩
  simp only [exec_store hi, unprivStore, if_neg (mt touchesRegisterBlock_iff.mp hblock), hv, settle_ok]
  rfl

/-! ### Where the bytes of an access lie -/

/-- The register block is part of the PPB (R63, R91). -/
theorem touchesPPB_of_touchesBlock {a : Word} {n : Nat} (h : TouchesBlock a n) : TouchesPPB a n := by
  obtain ⟨k, hk, hlow, hhigh⟩ := h
  exact ⟨k, hk, by omega, by omega⟩

/-- The bytes of a naturally aligned access lie in one aligned block of 32. -/
theorem byteAddr_of_aligned {a : Word} {size : AccSize} {k : Nat} (ha : a.toNat % bytesOf size = 0)
    (hk : k < bytesOf size) : (byteAddr a k).toNat / 32 = a.toNat / 32 := by
  have := a.isLt
  rw [byteAddr, BitVec.toNat_add, BitVec.toNat_ofNat]
  cases size <;> simp only [bytesOf] at ha hk <;> omega

theorem not_touchesPPB_of_aligned {a : Word} {size : AccSize} (ha : a.toNat % bytesOf size = 0) (hoff : ¬ OnPPB a) :
    ¬ TouchesPPB a (bytesOf size) := by
  rintro ⟨k, hk, hppb⟩
  rw [← isPPB_iff, isPPB_of_block (byteAddr_of_aligned ha hk), isPPB_iff] at hppb
  exact hoff hppb

/-! ### Where the regions let unprivileged software -/

theorem validateAddress_of_unprivilegedIn {s : State} {p : ProcInputs} {a : Word} {w : Bool} {m : MemAttrs}
    (ha : ¬ OnPPB a) (hon : s.MpuOn p) (hl : s.RegionsLegal) (h : s.UnprivilegedIn a w m) :
    validateAddress s p a .unpriv w = .ok [{ physicaladdress := a, memattrs := m }] := by
  obtain ⟨g, hw, hm, hap, hallowed⟩ := h
  exact (unprivilegedByRegions_of_on w ha hon hl).allowed g m hw hm hap hallowed

/-- A naturally aligned access is one call, in the region that wins its address. -/
theorem validateAccess_of_unprivilegedIn {s : State} {p : ProcInputs} {a : Word} {size : AccSize} {w : Bool}
    {m : MemAttrs} (haligned : a.toNat % bytesOf size = 0) (ha : ¬ OnPPB a) (hon : s.MpuOn p) (hl : s.RegionsLegal)
    (h : s.UnprivilegedIn a w m) :
    validateAccess s p a (bytesOf size) .unpriv w = .ok [{ physicaladdress := a, memattrs := m }] := by
  rw [validateAccess_of_aligned (naturallyAligned_bytesOf.mpr haligned),
    validateAddress_of_unprivilegedIn ha hon hl h]

/-- Any other is one call for every byte, each in the region that wins that byte. -/
theorem validateAccess_of_each_unprivilegedIn {s : State} {p : ProcInputs} {a : Word} {size : AccSize} {w : Bool}
    {m : Nat → MemAttrs} (hodd : a.toNat % bytesOf size ≠ 0) (hppb : ¬ TouchesPPB a (bytesOf size)) (hon : s.MpuOn p)
    (hl : s.RegionsLegal) (h : ∀ k, k < bytesOf size → s.UnprivilegedIn (byteAddr a k) w (m k)) :
    validateAccess s p a (bytesOf size) .unpriv w =
      .ok ((List.range (bytesOf size)).map fun k => { physicaladdress := byteAddr a k, memattrs := m k }) := by
  rw [validateAccess_of_unaligned (mt naturallyAligned_bytesOf.mp hodd)]
  refine validateEach_of_each_ok (f := byteAddr a) fun k hk => ?_
  have hk := List.mem_range.mp hk
  exact validateAddress_of_unprivilegedIn (fun hon => hppb ⟨k, hk, hon⟩) hon hl (h k hk)

/-! ### FindPriv() -/

/-- An access with AccType_UNPRIV looks at the execution priority only. -/
theorem validateAccess_unpriv_congr {p q : ProcInputs} (hprio : p.prioBelowZero = q.prioBelowZero) (s : State) (a : Word)
    (n : Nat) (w : Bool) : validateAccess s p a n .unpriv w = validateAccess s q a n .unpriv w := by
  have haddress (x : Word) : validateAddress s p x .unpriv w = validateAddress s q x .unpriv w :=
    validateAddress_congr_inputs w (by simp only [acquire, ispriv_unpriv, hprio]) rfl
  have heach (l : List Word) : validateEach s p .unpriv w l = validateEach s q .unpriv w l := by
    induction l with
    | nil => rfl
    | cons x rest ih => simp only [validateEach, haddress, ih]
  simp only [validateAccess, haddress, heach]

theorem settle_congr {p q : ProcInputs} (hprio : p.prioBelowZero = q.prioBelowZero) (s : State) (k : AccType)
    (v : Verdict) (done : List AddressDescriptor → State) : settle s p k v done = settle s q k v done := by
  cases v with
  | ok | refuse => rfl
  | violation a => simp only [settle_violation, takeMemManage, hprio]

/-- Settles O53: FindPriv() reaches neither the checks nor what they come to. -/
theorem unprivilegedInstructionsIgnoreFindPriv : Obligations.UnprivilegedInstructionsIgnoreFindPriv := by
  intro s b b' z a v more w
  have hchecks := validateAccess_unpriv_congr (p := ⟨b, z⟩) (q := ⟨b', z⟩) rfl s a
  have hsettle := settle_congr (p := ⟨b, z⟩) (q := ⟨b', z⟩) rfl s .unpriv
  have hload (size : AccSize) (sgn : Bool) : unprivLoad s ⟨b, z⟩ a size sgn = unprivLoad s ⟨b', z⟩ a size sgn := by
    simp only [unprivLoad, hchecks, hsettle]
  have hstore (size : AccSize) : unprivStore s ⟨b, z⟩ a size v = unprivStore s ⟨b', z⟩ a size v := by
    simp only [unprivStore, hchecks, hsettle]
  refine ⟨hload _ _, hload _ _, hload _ _, hload _ _, hload _ _, hstore _, hstore _, hstore _, ?check⟩
  rw [exec_validateAddress, exec_validateAddress, hchecks, hsettle]

/-! ### The register block, and failed checks -/

/-- Settles O14: of the effects of an operation, an unprivileged register access and an instruction on the block alone
answer BusFault. -/
theorem unprivilegedInstructionOnTheBlockRaisesBusFault :
    Obligations.UnprivilegedInstructionOnTheBlockRaisesBusFault := by
  constructor
  case left =>
    intro i s p a size w hi hblock
    exact exec_unpriv_of_block hi hblock s
  case right =>
    intro i s t h hreply
    cases exec_effect h with
    | register r w t hi hp hnext =>
      obtain ⟨-, -, -, ds, v, hok⟩ := hnext.frame
      simp [hok] at hreply
    | busFaultRegister r w hi hu => exact .inl ⟨r, w, hi, hu⟩
    | busFaultUnpriv p a size w hi hblock => exact .inr ⟨p, a, size, w, hi, hblock⟩
    | memManage p k a => exact absurd hreply (takeMemManage_reply_ne_busFault s p k a)
    | answer | answerDrew | store => simp at hreply

/-- Settles O58: the violation is settled as `State.afterViolation`; where the regions refuse the address presented, it
fails at its first byte. -/
theorem failedUnprivilegedAccessIsNotPerformed : Obligations.FailedUnprivilegedAccessIsNotPerformed := by
  intro i s p a size w hi hblock
  refine ⟨fun b hv => exec_unpriv_of_violation hi hblock hv, fun ha hon hl hrefused => ?_⟩
  have hregions := unprivilegedByRegions_of_on w ha hon hl
  have hv : validateAddress s p a .unpriv w = .violation a := by
    rcases hrefused with hu | ⟨g, m, hw, hm, hap, hforbidden⟩
    · exact hregions.unmapped hu
    · exact hregions.forbidden g m hw hm hap hforbidden
  exact exec_unpriv_of_violation hi hblock
    (by rw [validateAccess_of_first_byte (bytesOf_pos size) (by simp [hv]), hv])

/-! ### Completion -/

/-- Settles O54: the default map passes every byte (`validateAccess_of_defaultMapAnswers`), and the load completes. -/
theorem loadsCompleteUnderTheDefaultMap : Obligations.LoadsCompleteUnderTheDefaultMap := by
  intro i s p a size hi hblock hmap
  obtain ⟨ds, hv, hattrs, hone⟩ := validateAccess_of_defaultMapAnswers false hmap
  obtain ⟨v, d, hexec, hvalue⟩ := exec_load_of_ok hi hblock hv
  exact ⟨ds, v, d, hexec, hattrs, hone, hvalue⟩

/-- A store completes wherever the default map answers it. -/
theorem exec_store_of_defaultMapAnswers {i : Instr} {s : State} {p : ProcInputs} {a : Word} {size : AccSize}
    (hi : unprivAccessOf i = some (p, a, size, true)) (hmem : s.mem.wf) (hblock : ¬ TouchesBlock a (bytesOf size))
    (hmap : s.DefaultMapAnswers p a (bytesOf size)) :
    ∃ ds m, exec i s = .next { s with mem := m, reply := .ok ds none } ∧
      s.StoredAs a (bytesOf size) (storedValue i) m := by
  obtain ⟨ds, hv, -, -⟩ := validateAccess_of_defaultMapAnswers true hmap
  exact ⟨ds, exec_store_of_ok hi hmem hblock hv⟩

/-- Settles O55: the three sizes of `exec_store_of_defaultMapAnswers`. -/
theorem storesCompleteUnderTheDefaultMap : Obligations.StoresCompleteUnderTheDefaultMap := by
  intro s p a v hmem
  exact ⟨exec_store_of_defaultMapAnswers (i := .strbt p a v) rfl hmem,
    exec_store_of_defaultMapAnswers (i := .strht p a v) rfl hmem,
    exec_store_of_defaultMapAnswers (i := .strt p a v) rfl hmem⟩

/-- Settles O56: the checks pass in one call or in one a byte, and the load completes; off the PPB it is off the
register block too. -/
theorem loadsCompleteInAReadableRegion : Obligations.LoadsCompleteInAReadableRegion := by
  intro i s p a size hi
  refine ⟨fun m haligned ha hon hl h => ?aligned, fun m hodd hppb hon hl h => ?bytes, fun hblock hall => ?anyMap⟩
  case aligned =>
    have hppb := not_touchesPPB_of_aligned haligned ha
    exact exec_load_off_ppb hi (mt touchesPPB_of_touchesBlock hppb) hppb
      (validateAccess_of_unprivilegedIn haligned ha hon hl h)
  case bytes =>
    exact exec_load_off_ppb hi (mt touchesPPB_of_touchesBlock hppb) hppb
      (validateAccess_of_each_unprivilegedIn hodd hppb hon hl h)
  case anyMap =>
    obtain ⟨ds, hv⟩ := validateAccess_of_all_ok (bytesOf_pos size) hall
    exact ⟨ds, exec_load_of_ok hi hblock hv⟩

/-- Settles O57: as for the loads, with the memory `exec_store_of_ok` leaves. -/
theorem storesCompleteInAWritableRegion : Obligations.StoresCompleteInAWritableRegion := by
  intro i s p a size hi hmem
  refine ⟨fun m haligned ha hon hl h => ?aligned, fun m hodd hppb hon hl h => ?bytes, fun hblock hall => ?anyMap⟩
  case aligned =>
    exact exec_store_of_ok hi hmem (mt touchesPPB_of_touchesBlock (not_touchesPPB_of_aligned haligned ha))
      (validateAccess_of_unprivilegedIn haligned ha hon hl h)
  case bytes =>
    exact exec_store_of_ok hi hmem (mt touchesPPB_of_touchesBlock hppb)
      (validateAccess_of_each_unprivilegedIn hodd hppb hon hl h)
  case anyMap =>
    obtain ⟨ds, hv⟩ := validateAccess_of_all_ok (bytesOf_pos size) hall
    exact ⟨ds, exec_store_of_ok hi hmem hblock hv⟩

end Sys2Proof.Machine
end
